-- ==== Sys2Proof/Word.lean ====
section
/-! DEFINITION. The word types of the spec (00_scope.md R12, R13). -/

namespace Sys2Proof

/-- `u8`: one byte of a RAM (00_scope.md R13). -/
abbrev Byte := BitVec 8

/-- `s16`: one PCM sample, two's complement (00_scope.md R13). -/
abbrev S16 := BitVec 16

/-- `u32`: a register, a bus data value or a CMD word (00_scope.md R13). -/
abbrev Word := BitVec 32

/-- `f32`: the bit pattern of an IEEE 754 binary32 value (00_scope.md R13). -/
abbrev F32 := BitVec 32

/-- A byte offset in the 64 KiB host bus window (20_memory.md R90). -/
abbrev Offset := BitVec 16

end Sys2Proof
end

