-- ==== Sys2Proof/Syntax.lean ====
section
/-! DEFINITION. The instructions of the block: one constructor per row of spec/opcode_table.json
(00_scope.md R3: host commands, capture events, host bus transactions). -/

namespace Sys2Proof

/-- The three encoded forms, each arriving on an interface of its own (30_encoding.md R130). -/
inductive Form
  /-- a 32-bit word written to CMD -/
  | cmd
  /-- a 2-bit code on the capture event port -/
  | evt
  /-- a host bus transaction: a 19-bit descriptor and 32 data bits -/
  | bus
  deriving DecidableEq, Repr

/-- The nine command opcodes, CMD.OP (30_encoding.md R132). -/
inductive CmdOp
  | nop | cfgDec | cfgFft | avgReset | start | stop | evtHalf | evtFull | softReset
  deriving DecidableEq, Repr

/-- One instruction. A command has no operand in its word (R131); an event none (R134); a bus
transaction has its offset and, for a write of n bytes, the n-byte value in the low bits of
`data` (R135). -/
inductive Instr
  | nop
  | cfgDec
  | cfgFft
  | avgReset
  | start
  | stop
  | evtHalf
  | evtFull
  | softReset
  | half
  | full
  | rd8 (addr : Offset)
  | rd16 (addr : Offset)
  | rd32 (addr : Offset)
  | wr8 (addr : Offset) (data : Word)
  | wr16 (addr : Offset) (data : Word)
  | wr32 (addr : Offset) (data : Word)
  deriving DecidableEq, Repr

/-- The instruction a command opcode names. -/
def CmdOp.toInstr : CmdOp → Instr
  | .nop => .nop
  | .cfgDec => .cfgDec
  | .cfgFft => .cfgFft
  | .avgReset => .avgReset
  | .start => .start
  | .stop => .stop
  | .evtHalf => .evtHalf
  | .evtFull => .evtFull
  | .softReset => .softReset

/-- The interface an instruction arrives on (30_encoding.md R130). -/
def Instr.form : Instr → Form
  | .nop | .cfgDec | .cfgFft | .avgReset | .start | .stop | .evtHalf | .evtFull | .softReset => .cmd
  | .half | .full => .evt
  | .rd8 _ | .rd16 _ | .rd32 _ | .wr8 _ _ | .wr16 _ _ | .wr32 _ _ => .bus

end Sys2Proof
end

