-- ==== Sys2Proof/WellFormed.lean ====
section
/-! DEFINITION. Which terms of Instr stand for an encoded instruction. Every field but the data of a
narrow write has exactly the width of its encoding, so only that one needs a check. -/

namespace Sys2Proof

/-- A write of n bytes uses the low 8·n bits of WDATA (30_encoding.md R135): the value of a narrow
write fits in them. -/
def Instr.wellFormed : Instr → Bool
  | .wr8 _ d => d.toNat < 2 ^ 8
  | .wr16 _ d => d.toNat < 2 ^ 16
  | .nop | .cfgDec | .cfgFft | .avgReset | .start | .stop | .evtHalf | .evtFull | .softReset
  | .half | .full | .rd8 _ | .rd16 _ | .rd32 _ | .wr32 _ _ => true

end Sys2Proof
end

