-- ==== Sys2Proof/Decode.lean ====
section
/-! DEFINITION. The decoder, total on any bits of any form, and the encoder
(30_encoding.md R130 to R135). -/

namespace Sys2Proof

/-- Why bits are no instruction of the opcode table. Each has an effect of its own in the machine. -/
inductive Reject
  /-- OP in 0x09..0xFF: executes as BAD_COMMAND (30_encoding.md R133). -/
  | reservedOp
  /-- bits 31:8 of a CMD word not zero: executes as BAD_COMMAND (30_encoding.md R133). -/
  | mbzNotZero
  /-- EVT code 0b00: no event this step (30_encoding.md R134). -/
  | noEvent
  /-- EVT code 0b11: ignored (30_encoding.md R134). -/
  | reservedEvent
  /-- SIZE = 0b11: the transaction gets an error response (30_encoding.md R135). -/
  | reservedSize
  /-- bytes that no interface can carry: a wrong number of them, or a set bit above the form's bits. -/
  | notAWord
  deriving DecidableEq, Repr

/-- The opcode of a well-formed CMD word (30_encoding.md R131 to R133). -/
def decodeCmdOp (w : Word) : Except Reject CmdOp :=
  if w.toNat / 2 ^ 8 ≠ 0 then .error .mbzNotZero
  else match w.toNat with
    | 0x00 => .ok .nop
    | 0x01 => .ok .cfgDec
    | 0x02 => .ok .cfgFft
    | 0x03 => .ok .avgReset
    | 0x04 => .ok .start
    | 0x05 => .ok .stop
    | 0x06 => .ok .evtHalf
    | 0x07 => .ok .evtFull
    | 0x08 => .ok .softReset
    | _ => .error .reservedOp

/-- A CMD word (30_encoding.md R131). -/
def decodeCmd (w : Word) : Except Reject Instr :=
  (decodeCmdOp w).map CmdOp.toInstr

/-- An EVT code (30_encoding.md R134). -/
def decodeEvt (code : BitVec 2) : Except Reject Instr :=
  match code.toNat with
  | 0 => .error .noEvent
  | 1 => .ok .half
  | 2 => .ok .full
  | _ => .error .reservedEvent

/-- A BUS descriptor with its data: DIR in bit 18, SIZE in 17:16, ADDR in 15:0; a write of n bytes
takes the low 8·n bits of WDATA (30_encoding.md R135). -/
def decodeBus (desc : BitVec 19) (wdata : Word) : Except Reject Instr :=
  let addr : Offset := desc.setWidth 16
  match desc.toNat / 2 ^ 16 with
  | 0b000 => .ok (.rd8 addr)
  | 0b001 => .ok (.rd16 addr)
  | 0b010 => .ok (.rd32 addr)
  | 0b100 => .ok (.wr8 addr ((wdata.setWidth 8).setWidth 32))
  | 0b101 => .ok (.wr16 addr ((wdata.setWidth 16).setWidth 32))
  | 0b110 => .ok (.wr32 addr wdata)
  | _ => .error .reservedSize

/-- The value of bytes in little-endian order, the first byte least significant. -/
def leNat : List Byte → Nat
  | [] => 0
  | b :: bs => b.toNat + 2 ^ 8 * leNat bs

/-- The low `n` bytes of a number in little-endian order. -/
def leBytes : Nat → Nat → List Byte
  | 0, _ => []
  | n + 1, v => BitVec.ofNat 8 v :: leBytes n (v / 2 ^ 8)

/-- How many bytes the record of each form has: 4 for a CMD word, 1 for an EVT code, 3 for a BUS
descriptor and 4 for its WDATA lines (log 21). -/
def Form.bytes : Form → Nat
  | .cmd => 4
  | .evt => 1
  | .bus => 7

/-- The decoder on the bytes of one form's record, lowest first; total on any bytes. -/
def decode (f : Form) (bs : List Byte) : Except Reject Instr :=
  if bs.length ≠ f.bytes then .error .notAWord
  else match f with
    | .cmd => decodeCmd (BitVec.ofNat 32 (leNat bs))
    | .evt => if leNat bs < 2 ^ 2 then decodeEvt (BitVec.ofNat 2 (leNat bs)) else .error .notAWord
    | .bus =>
      let desc := leNat (bs.take 3)
      if desc < 2 ^ 19 then decodeBus (BitVec.ofNat 19 desc) (BitVec.ofNat 32 (leNat (bs.drop 3)))
      else .error .notAWord

/-- The opcode of a command (30_encoding.md R132). -/
def CmdOp.code : CmdOp → Nat
  | .nop => 0x00
  | .cfgDec => 0x01
  | .cfgFft => 0x02
  | .avgReset => 0x03
  | .start => 0x04
  | .stop => 0x05
  | .evtHalf => 0x06
  | .evtFull => 0x07
  | .softReset => 0x08

/-- A BUS descriptor from its fields: `{DIR, SIZE}` and ADDR (30_encoding.md R135). -/
def busDescriptor (dirSize : Nat) (addr : Offset) : BitVec 19 :=
  BitVec.ofNat 19 (dirSize * 2 ^ 16 + addr.toNat)

/-- The record of a bus transaction: the descriptor, then WDATA (zero for a read). -/
def busRecord (dirSize : Nat) (addr : Offset) (wdata : Word) : List Byte :=
  leBytes 3 (busDescriptor dirSize addr).toNat ++ leBytes 4 wdata.toNat

/-- The encoder: the bytes of an instruction's record on its interface (30_encoding.md R131 to R135). -/
def encode : Instr → List Byte
  | .nop => leBytes 4 CmdOp.nop.code
  | .cfgDec => leBytes 4 CmdOp.cfgDec.code
  | .cfgFft => leBytes 4 CmdOp.cfgFft.code
  | .avgReset => leBytes 4 CmdOp.avgReset.code
  | .start => leBytes 4 CmdOp.start.code
  | .stop => leBytes 4 CmdOp.stop.code
  | .evtHalf => leBytes 4 CmdOp.evtHalf.code
  | .evtFull => leBytes 4 CmdOp.evtFull.code
  | .softReset => leBytes 4 CmdOp.softReset.code
  | .half => leBytes 1 0b01
  | .full => leBytes 1 0b10
  | .rd8 a => busRecord 0b000 a 0
  | .rd16 a => busRecord 0b001 a 0
  | .rd32 a => busRecord 0b010 a 0
  | .wr8 a d => busRecord 0b100 a d
  | .wr16 a d => busRecord 0b101 a d
  | .wr32 a d => busRecord 0b110 a d

/-- The interface an opcode-table row of `nbits` bits belongs to: CMD rows have 32 bits, BUS rows 19,
EVT rows 2 (30_encoding.md R130; log 1). -/
def formOfBits (nbits : Nat) : Form :=
  if nbits ≤ 8 then .evt else if nbits ≤ 24 then .bus else .cmd

/-- The instruction the decoder reads from a table row's bits `w`: the record of the row's form, every
bit above the row's zero. -/
def decodeTableWord (nbits w : Nat) : Option Instr :=
  (decode (formOfBits nbits) (leBytes (formOfBits nbits).bytes w)).toOption

end Sys2Proof
end

