-- ==== Sys2Proof/Config.lean ====
section
/-! DEFINITION. What an instance of the block fixes (00_scope.md R9, 10_state.md R65) and the free
values the spec leaves open. A free value is an opaque constant: nothing can be proved of it. -/

namespace Sys2Proof.Config

/-- The parameters of 00_scope.md R9, arguments of every operation that reads one. -/
structure Params where
  /-- C_MAX, the maximum number of input PDM channels. -/
  cMax : Nat
  /-- LOG2T_MAX, the largest log2 of the transform length. -/
  log2tMax : Nat
  /-- HB_PRESENT, whether the half-band stage exists. -/
  hbPresent : Bool
  /-- K_CIC(R), the CIC order for primary ratio R. -/
  kCic : Nat → Nat
  /-- M_CIC(R), the CIC differential delay for primary ratio R. -/
  mCic : Nat → Nat
  /-- FIR_COEF(R), the compensation taps h[0..L) for primary ratio R. -/
  firCoef : Nat → List Rat
  /-- HB_COEF, the half-band taps g[0..L_HB). -/
  hbCoef : List Rat
  /-- GAIN_LIN(d), the linear gain factor for d dB. -/
  gainLin : Int → Rat
  /-- RFFT_T(y)[k], the pair (re_k, im_k) of bin k for the frame y of length T. -/
  rfft : Nat → List F32 → Nat → F32 × F32
  /-- ATAN2(im, re), the phase function. -/
  atan2 : F32 → F32 → F32
  /-- EPS_FFT, the tolerance bound of RFFT_T (43_window_fft.md R318). -/
  epsFft : ℝ
  /-- EPS_ATAN, the tolerance bound of ATAN2 (43_window_fft.md R322). -/
  epsAtan : ℝ

/-- What PDM_BUF byte j holds at power-on (10_state.md R60: unspecified). -/
opaque powerOnByte : Nat → Byte

/-- Free choice number n between the old and the new value of a result word read while BUSY = 1
(20_memory.md R105); true is the pending value. -/
opaque tornPick : Nat → Bool

/-- The NaN an invalid binary32 operation on these operands gives, before it is made a NaN (log 16). -/
opaque nanRaw : F32 → F32 → F32

/-- An element of α, not known which: the free value of a type whose elements carry their constraints. -/
opaque anyOf (α : Type) [Inhabited α] : α

end Sys2Proof.Config
end

