-- ==== Sys2Proof/Machine/Binary32.lean ====
section
/-! DEFINITION. IEEE 754 binary32 with rounding to nearest, ties to even, subnormals kept
(00_scope.md R14). A finite value is an integer number of units of 2^−149. -/

namespace Sys2Proof.Machine

def f32Sign (x : F32) : Bool := decide (2 ^ 31 ≤ x.toNat)
def f32Exp (x : F32) : Nat := x.toNat / 2 ^ 23 % 2 ^ 8
def f32Frac (x : F32) : Nat := x.toNat % 2 ^ 23

def f32IsFinite (x : F32) : Bool := f32Exp x != 255
def f32IsNan (x : F32) : Bool := f32Exp x == 255 && f32Frac x != 0
def f32IsInf (x : F32) : Bool := f32Exp x == 255 && f32Frac x == 0
def f32IsZero (x : F32) : Bool := x.toNat % 2 ^ 31 == 0

/-- ±0. -/
def f32Zero (neg : Bool) : F32 := if neg then 0x80000000 else 0x00000000

/-- ±∞. -/
def f32Inf (neg : Bool) : F32 := if neg then 0xFF800000 else 0x7F800000

/-- |x| in units of 2^−149, for a finite x. -/
def f32Mag (x : F32) : Nat :=
  if f32Exp x = 0 then f32Frac x else (2 ^ 23 + f32Frac x) * 2 ^ (f32Exp x - 1)

/-- x in units of 2^−149, for a finite x. -/
def f32Units (x : F32) : Int := if f32Sign x then -(f32Mag x : Int) else (f32Mag x : Int)

/-- The value of a finite x. -/
def f32ToRat (x : F32) : Rat := mkRat (f32Units x) (2 ^ 149)

/-- n/d rounded to the nearest integer, ties to even. -/
def rneDiv (n d : Nat) : Nat :=
  let q := n / d
  let r := n % d
  if 2 * r < d then q else if d < 2 * r then q + 1 else if q % 2 = 0 then q else q + 1

/-- The bits of the positive real n/d rounded to binary32. With u = ⌊n/d in units of 2^−149⌋ the spacing is
2^k units, k = max(0, ⌊log2 u⌋ − 23); the biased exponent and the fraction then add up to the bits, a
carry out of the fraction included, and what rounds past the largest finite value is infinity. -/
def rneBits (n d : Nat) : Nat :=
  let k := (n * 2 ^ 149 / d).log2 - 23
  min (k * 2 ^ 23 + rneDiv (n * 2 ^ 149) (d * 2 ^ k)) 0x7F800000

/-- num/den rounded to binary32; an exact zero takes the sign `zneg`. -/
def f32Round (zneg : Bool) (num : Int) (den : Nat) : F32 :=
  if num = 0 then f32Zero zneg
  else BitVec.ofNat 32 ((if num < 0 then 2 ^ 31 else 0) + rneBits num.natAbs den)

/-- A NaN that is free but for being one (log 16). -/
def f32Nan (x y : F32) : F32 :=
  let r := Config.nanRaw x y
  BitVec.ofNat 32 ((if f32Sign r then 2 ^ 31 else 0) + 0x7F800000
    + (if f32Frac r = 0 then 2 ^ 22 else f32Frac r))

/-- `RNE32` of a rational, `f32(x)` (00_scope.md R14). -/
def f32OfRat (q : Rat) : F32 := f32Round false q.num q.den

/-- `f32(x)` of an integer (00_scope.md R14). -/
def f32OfInt (i : Int) : F32 := f32Round false i 1

/-- −x. -/
def f32Neg (x : F32) : F32 := BitVec.ofNat 32 (x.toNat % 2 ^ 31 + (if f32Sign x then 0 else 2 ^ 31))

/-- `f32_add` (00_scope.md R14). -/
def f32Add (x y : F32) : F32 :=
  if f32IsNan x || f32IsNan y then f32Nan x y
  else if f32IsInf x then (if f32IsInf y && (f32Sign x != f32Sign y) then f32Nan x y else x)
  else if f32IsInf y then y
  else f32Round (f32Sign x && f32Sign y) (f32Units x + f32Units y) (2 ^ 149)

/-- `f32_sub` (00_scope.md R14). -/
def f32Sub (x y : F32) : F32 := f32Add x (f32Neg y)

/-- `f32_mul` (00_scope.md R14). -/
def f32Mul (x y : F32) : F32 :=
  let neg := f32Sign x != f32Sign y
  if f32IsNan x || f32IsNan y then f32Nan x y
  else if f32IsInf x || f32IsInf y then
    (if f32IsZero x || f32IsZero y then f32Nan x y else f32Inf neg)
  else f32Round neg (f32Units x * f32Units y) (2 ^ 298)

/-- `f32_div` (00_scope.md R14). -/
def f32Div (x y : F32) : F32 :=
  let neg := f32Sign x != f32Sign y
  if f32IsNan x || f32IsNan y then f32Nan x y
  else if f32IsInf x then (if f32IsInf y then f32Nan x y else f32Inf neg)
  else if f32IsInf y then f32Zero neg
  else if f32IsZero y then (if f32IsZero x then f32Nan x y else f32Inf neg)
  else f32Round neg (if neg then -(f32Mag x : Int) else (f32Mag x : Int)) (f32Mag y)

/-- The integer square root from bit i − 1 down, r being the bits above. -/
def isqrtFrom (n : Nat) : Nat → Nat → Nat
  | 0, r => r
  | i + 1, r => if (r + 2 ^ i) * (r + 2 ^ i) ≤ n then isqrtFrom n i (r + 2 ^ i) else isqrtFrom n i r

/-- ⌊√n⌋. -/
def isqrt (n : Nat) : Nat := isqrtFrom n (n.log2 / 2 + 1) 0

/-- `f32_sqrt` (00_scope.md R14): the root in half units of 2^−149, its last bit sticky, then rounded once. -/
def f32Sqrt (x : F32) : F32 :=
  if f32IsNan x then f32Nan x x
  else if f32IsZero x then x
  else if f32Sign x then f32Nan x x
  else if f32IsInf x then x
  else
    let n := f32Mag x * 2 ^ 149
    let r := isqrt n
    f32Round false ((2 * r + (if r * r = n then 0 else 1) : Nat) : Int) (2 ^ 150)

/-- x is greater than zero. -/
def f32Positive (x : F32) : Bool := !f32IsNan x && !f32IsZero x && !f32Sign x

/-- x is less than zero. -/
def f32Negative (x : F32) : Bool := !f32IsNan x && !f32IsZero x && f32Sign x

end Sys2Proof.Machine
end

