-- ==== Sys2Proof/Machine/State.lean ====
section
/-! DEFINITION. The state of the block (10_state.md), the reasons a step can stop, and reset. -/

namespace Sys2Proof.Machine

/-- Why the machine stops with a fault. -/
inductive Fault
  /-- The model is in the sticky fault state FAULT = OVERRUN, past which the spec gives no step
  (60_exceptions.md R510). Raised by every step taken in that state. Safe: the spec says nothing of what
  the hardware then does, and no claim about a next state can rest on it. -/
  | overrun
  deriving DecidableEq, Repr

/-- Why a step has no meaning. -/
inductive Refusal
  /-- The instruction has no meaning yet. No arm of exec answers it in this model. Safe. -/
  | notModelled (mnemonic : String)
  /-- An event would be accepted while the decimator or FFT configuration is absent, which the spec says
  never happens: RUNNING = 1 implies both are latched (41_bitstream_handoff.md R254, 70_reset_and_hazards.md
  R600). Raised by EVT_HALF, EVT_FULL, HALF and FULL in states no run reaches. Safe (log 9). -/
  | absentState
  deriving DecidableEq, Repr

/-- The two regions of PDM_BUF (20_memory.md R97). -/
inductive BufHalf
  | A | B
  deriving DecidableEq, Repr

/-- The window types (30_encoding.md R138). -/
inductive WindowKind
  | rectangular | hamming | hann | blackmanHarris | tukey25 | tukey75
  deriving DecidableEq, Repr

/-- The output kinds (30_encoding.md R139). -/
inductive OutKind
  | complex | magnitude | phase
  deriving DecidableEq, Repr

/-- The model fault state FAULT (10_state.md R62). -/
inductive FaultFlag
  | none | overrun
  deriving DecidableEq, Repr

/-- The latched decimator configuration DC (10_state.md R50). -/
structure DecConfig where
  code : Nat
  r : Nat
  rp : Nat
  casc : Bool
  cin : Nat
  cout : Nat
  /-- BORD: true when the first bit in time is the LSB of each byte. -/
  bord : Bool
  /-- END: true when the bytes of each halfword are swapped. -/
  endn : Bool
  nout : Nat
  nfin : Nat
  hbytes : Nat
  deriving DecidableEq, Repr

/-- The latched FFT configuration FC (10_state.md R51). -/
structure FftConfig where
  lt : Nat
  t : Nat
  nb : Nat
  win : WindowKind
  outk : OutKind
  chsel : Nat
  ovl : Nat
  rret : Nat
  deriving DecidableEq, Repr

/-- The half-band state of a channel (10_state.md R54): HBD, most recent first, and HBPH. -/
structure HbMem where
  hbd : List S16
  hbph : Bool
  deriving DecidableEq, Repr

/-- The filter memory of an output channel (10_state.md R52 to R54). `integ` is INTEG[1..K]; `combd` has a
line COMBD[k][1..M] for each k; `fird` is FIRD[1..L−1]; `hb` is present in cascade mode only. -/
structure ChanMem where
  integ : List Int
  combd : List (List Int)
  fird : List Rat
  hb : Option HbMem
  deriving DecidableEq, Repr

/-- RAM contents: window offset and byte, in the canonical form of Machine/Memory.lean. -/
abbrev Memory := List Host.Cell

/-- Everything an in-flight chunk changes, the fields of S in ACCEPT (41_bitstream_handoff.md R254). The
live state has one, and PEND is another (10_state.md R61). -/
structure Results where
  chunkCount : Word
  frameCount : Word
  avgCount : Word
  pcmCount : Word
  avgWarm : Bool
  /-- the bytes of PCM_OUT, AVG and SPEC at their window offsets -/
  ram : Memory
  /-- INTEG, COMBD, FIRD, HBD, HBPH, one entry per output channel; empty while absent -/
  filt : List ChanMem
  /-- FB; empty while absent -/
  fb : List S16
  fill : Nat
  deriving DecidableEq, Repr

/-- The in-flight chunk: BREG and PEND (10_state.md R61). -/
structure InFlight where
  breg : BufHalf
  pend : Results
  deriving DecidableEq, Repr

/-- What a bus transaction returns to the host (30_encoding.md R135, 60_exceptions.md R504): whether it is
an error response, and the read data. The model's own view of the bus (log 6). -/
structure BusResp where
  err : Bool
  data : Word
  deriving DecidableEq, Repr

/-- One step of one agent, as it reaches the block (00_scope.md R8, 20_memory.md R103). -/
inductive Input
  /-- the host writes a word to CMD (30_encoding.md R130) -/
  | cmd (w : Word)
  /-- the capture engine drives the event port (R134) -/
  | evt (code : BitVec 2)
  /-- the host issues a bus transaction (R135) -/
  | bus (desc : BitVec 19) (wdata : Word)
  /-- the capture engine writes a byte of PDM_BUF (41_bitstream_handoff.md R250) -/
  | cap (off : BitVec 13) (b : Byte)
  /-- the pipeline commits (R255) -/
  | commit
  deriving DecidableEq, Repr

/-- The state of the block. STATUS bits DEC_CFGD, FFT_CFGD and BUSY are the presence of `dc`, `fc` and
`inflight` (log 8). -/
structure State where
  errcode : BitVec 8
  decCfg : Word
  gain : Word
  fftCfg : Word
  overlap : Word
  fsHz : Word
  halfBytes : Word
  nbins : Word
  running : Bool
  dc : Option DecConfig
  fc : Option FftConfig
  /-- the window table WT; empty while absent -/
  wt : List F32
  live : Results
  /-- PDM_BUF at its window offsets; a byte not listed has not been written -/
  pdm : Memory
  inflight : Option InFlight
  fault : FaultFlag
  /-- the model's own: the response to the last bus transaction -/
  resp : Option BusResp
  /-- the model's own: how many free choices were drawn -/
  draws : Nat
  /-- the model's own: the agents' steps still to come -/
  inputs : List Input
  deriving DecidableEq, Repr

/-- The results part of power-on reset (70_reset_and_hazards.md R600). -/
def Results.reset : Results where
  chunkCount := 0
  frameCount := 0
  avgCount := 0
  pcmCount := 0
  avgWarm := false
  ram := []
  filt := []
  fb := []
  fill := 0

/-- Power-on reset (70_reset_and_hazards.md R600). -/
def State.reset : State where
  errcode := 0
  decCfg := 0
  gain := 0
  fftCfg := 0
  overlap := 0
  fsHz := 0
  halfBytes := 0
  nbins := 0
  running := false
  dc := none
  fc := none
  wt := []
  live := Results.reset
  pdm := []
  inflight := none
  fault := .none
  resp := none
  draws := 0
  inputs := []

end Sys2Proof.Machine
end

