-- ==== Sys2Proof/Machine/Flags.lean ====
section
/-! DEFINITION. The error codes, the STATUS word, and the rounding, saturation and wrapping rules
(60_exceptions.md R501, 10_state.md R34, 00_scope.md R15, 40_decimation.md R221). -/

namespace Sys2Proof.Machine

/-- The error codes of ERRCODE (60_exceptions.md R501). -/
inductive ErrCode
  | ok
  | unsupportedRatio
  | invalidChannels
  | resourceExhausted
  | invalidChunk
  | invalidLength
  | invalidOverlap
  | invalidWindow
  | invalidOutputKind
  | notConfigured
  | invalidChannelSelect
  | state
  | badCommand
  deriving DecidableEq, Repr

/-- The numeric code (60_exceptions.md R501). -/
def errValue : ErrCode → BitVec 8
  | .ok => 0
  | .unsupportedRatio => 1
  | .invalidChannels => 2
  | .resourceExhausted => 3
  | .invalidChunk => 4
  | .invalidLength => 5
  | .invalidOverlap => 6
  | .invalidWindow => 7
  | .invalidOutputKind => 8
  | .notConfigured => 9
  | .invalidChannelSelect => 10
  | .state => 11
  | .badCommand => 12

/-- STATUS.BUSY: a chunk is in flight (10_state.md R61). -/
def State.busy (s : State) : Bool := s.inflight.isSome

/-- The STATUS word with AVG_WARM given apart, since it is a result word (10_state.md R34, 20_memory.md R101). -/
def statusWord (s : State) (avgWarm : Bool) : Word :=
  BitVec.ofNat 32 (s.dc.isSome.toNat + 2 * s.fc.isSome.toNat + 4 * s.running.toNat + 8 * s.busy.toNat
    + 16 * avgWarm.toNat)

/-- `rnd`: to the nearest integer, ties away from zero (00_scope.md R15). -/
def rnd (q : Rat) : Int :=
  if q < 0 then -(-q + 1 / 2).floor else (q + 1 / 2).floor

/-- The clamp to the range of an s16 (00_scope.md R15). -/
def clamp16 (i : Int) : Int := min 32767 (max (-32768) i)

/-- `sat16` as a sample (00_scope.md R15). -/
def sat16 (i : Int) : S16 := BitVec.ofInt 16 (clamp16 i)

/-- `wrap32` of a counter's increment (00_scope.md R15; CHUNK_COUNT, FRAME_COUNT). -/
def wrapInc (w : Word) : Word := BitVec.ofNat 32 ((w.toNat + 1) % 2 ^ 32)

/-- `satu32` of a counter's increment (00_scope.md R15; AVG_COUNT). -/
def satInc (w : Word) : Word := BitVec.ofNat 32 (min (w.toNat + 1) (2 ^ 32 - 1))

/-- AVG_WARM of an update count: the averager is Warm once it has an update (10_state.md R63). -/
def warm (avgCount : Word) : Bool := decide (1 ≤ avgCount.toNat)

end Sys2Proof.Machine
end

