-- ==== Sys2Proof/Machine/Memory.lean ====
section
/-! DEFINITION. RAM: the window map, one canonical form, reads and writes of bytes and of little-endian
values (20_memory.md R91, R92). -/

namespace Sys2Proof.Machine

/-- The regions of the host bus window (20_memory.md R91). -/
inductive WinRegion
  | control | pcmOut | pdmBuf | avg | spec
  deriving DecidableEq, Repr

def pcmBase : Nat := 0x1000
def pdmBase : Nat := 0x2000
def avgBase : Nat := 0x4000
def specBase : Nat := 0x8000

/-- The region of a window offset; every offset is in exactly one (20_memory.md R91). -/
def regionOf (a : Nat) : WinRegion :=
  if a < pcmBase then .control
  else if a < pdmBase then .pcmOut
  else if a < avgBase then .pdmBuf
  else if a < specBase then .avg
  else .spec

/-- What an unlisted address reads as: 0 in PCM_OUT, AVG and SPEC, which the spec resets to 0; no value in
PDM_BUF, which power-on leaves unspecified (70_reset_and_hazards.md R600). -/
def unlisted (a : Nat) : Option Byte :=
  if regionOf a = .pdmBuf then none else some 0

/-- The value listed at an address, or what the address reads as when it is not listed. -/
def memGet : Memory → Nat → Option Byte
  | [], a => unlisted a
  | (x, v) :: m, a => if x = a then some v else memGet m a

/-- Store one byte, keeping the canonical form: the value an unlisted address reads as is not listed. -/
def memPut : Memory → Nat → Byte → Memory
  | [], a, b => if unlisted a = some b then [] else [(a, b)]
  | (x, v) :: m, a, b =>
    if x < a then (x, v) :: memPut m a b
    else if x = a then (if unlisted a = some b then m else (a, b) :: m)
    else if unlisted a = some b then (x, v) :: m
    else (a, b) :: (x, v) :: m

/-- Set every byte of a range back to its unlisted reading: addresses lo ≤ a < hi leave the list. -/
def memClear (m : Memory) (lo hi : Nat) : Memory :=
  m.filter fun c => c.1 < lo || hi ≤ c.1

/-- The canonical form: addresses strictly rising, and no entry an unlisted address would read as. -/
def memWf (m : Memory) : Bool :=
  decide (m.Pairwise fun c d => c.1 < d.1) && m.all fun c => unlisted c.1 != some c.2

/-- Memory holds only addresses from lo up to hi. -/
def memWithin (m : Memory) (lo hi : Nat) : Bool :=
  m.all fun c => decide (lo ≤ c.1) && decide (c.1 < hi)

/-- PDM_BUF holds canonical bytes of its own region. -/
def pdmWf (m : Memory) : Bool := memWf m && memWithin m pdmBase avgBase

/-- The result RAM holds canonical bytes of PCM_OUT, AVG and SPEC only. -/
def ramWf (m : Memory) : Bool :=
  memWf m && memWithin m pcmBase 0x10000 && m.all fun c => decide (regionOf c.1 ≠ .pdmBuf)

/-- The byte of the result RAM at a window offset. -/
def ramByte (m : Memory) (a : Nat) : Byte := (memGet m a).getD 0

/-- The byte of PDM_BUF at a window offset: what was written, or the free value it powered on with
(10_state.md R60). -/
def pdmByte (m : Memory) (a : Nat) : Byte := (memGet m a).getD (Config.powerOnByte (a - pdmBase))

/-- MemRead: n bytes at offset a, byte a least significant (20_memory.md R92). -/
def readLE (byte : Nat → Byte) (a : Nat) : Nat → Nat
  | 0 => 0
  | n + 1 => (byte a).toNat + 2 ^ 8 * readLE byte (a + 1) n

/-- MemWrite: the low n bytes of v at offset a, the least significant at a (20_memory.md R92). -/
def writeLE (m : Memory) (a : Nat) : Nat → Nat → Memory
  | 0, _ => m
  | n + 1, v => writeLE (memPut m a (BitVec.ofNat 8 v)) (a + 1) n (v / 2 ^ 8)

/-- An s16 element of PCM_OUT at its offset (20_memory.md R92). -/
def readHalf (m : Memory) (a : Nat) : S16 := BitVec.ofNat 16 (readLE (ramByte m) a 2)

/-- An f32 element of AVG or SPEC at its offset (20_memory.md R92). -/
def readWord (m : Memory) (a : Nat) : F32 := BitVec.ofNat 32 (readLE (ramByte m) a 4)

/-- Store s16 elements one after another from offset a. -/
def writeHalves (m : Memory) (a : Nat) : List S16 → Memory
  | [] => m
  | v :: vs => writeHalves (writeLE m a 2 v.toNat) (a + 2) vs

/-- Store f32 elements one after another from offset a. -/
def writeWords (m : Memory) (a : Nat) : List F32 → Memory
  | [] => m
  | v :: vs => writeWords (writeLE m a 4 v.toNat) (a + 4) vs

end Sys2Proof.Machine
end

