-- ==== Sys2Proof/Machine/Operands.lean ====
section
/-! DEFINITION. The operand forms: register fields, configuration codes, register offsets, access widths
(10_state.md R32 to R40, 20_memory.md R95, R96, 30_encoding.md R136 to R140). -/

namespace Sys2Proof.Machine

/-- v[lo+width−1 : lo] (00_scope.md R12). -/
def field (v : Word) (lo width : Nat) : Nat := v.toNat / 2 ^ lo % 2 ^ width

/-- v[i] (00_scope.md R12). -/
def bitAt (v : Word) (i : Nat) : Bool := field v i 1 == 1

/-- GAIN_DB = s8(GAIN[7:0]) (30_encoding.md R140). -/
def gainDb (gain : Word) : Int := (gain.setWidth 8).toInt

/-- The ratio code: R, RP and CASC, or rejected (30_encoding.md R137). -/
def decodeRatio : Nat → Option (Nat × Nat × Bool)
  | 0 => some (16, 16, false)
  | 1 => some (24, 24, false)
  | 2 => some (32, 32, false)
  | 3 => some (48, 48, false)
  | 4 => some (64, 64, false)
  | 5 => some (80, 80, false)
  | 6 => some (128, 128, false)
  | 7 => some (160, 80, true)
  | _ => none

/-- The window code (30_encoding.md R138). -/
def decodeWindow : Nat → Option WindowKind
  | 0 => some .rectangular
  | 1 => some .hamming
  | 2 => some .hann
  | 3 => some .blackmanHarris
  | 4 => some .tukey25
  | 5 => some .tukey75
  | _ => none

/-- The output kind code (30_encoding.md R139). -/
def decodeOutKind : Nat → Option OutKind
  | 0 => some .complex
  | 1 => some .magnitude
  | 2 => some .phase
  | _ => none

/-- The control registers (10_state.md R32). -/
inductive CtrlReg
  | id | status | errcode | cmd | decCfg | gain | fftCfg | overlap | fsHz
  | chunkCount | frameCount | avgCount | halfBytes | pcmCount | nbins | params | reserved
  deriving DecidableEq, Repr

/-- The register at an offset of the control region (10_state.md R32). -/
def ctrlRegAt (a : Nat) : CtrlReg :=
  match a with
  | 0x000 => .id
  | 0x004 => .status
  | 0x008 => .errcode
  | 0x00C => .cmd
  | 0x010 => .decCfg
  | 0x014 => .gain
  | 0x018 => .fftCfg
  | 0x01C => .overlap
  | 0x020 => .fsHz
  | 0x024 => .chunkCount
  | 0x028 => .frameCount
  | 0x02C => .avgCount
  | 0x030 => .halfBytes
  | 0x034 => .pcmCount
  | 0x038 => .nbins
  | 0x03C => .params
  | _ => .reserved

/-- The access widths in bytes a region takes (20_memory.md R91, R96). -/
def widthOk : WinRegion → Nat → Bool
  | .control, n => n == 4
  | .pcmOut, n => n == 2 || n == 4
  | .pdmBuf, n => n == 1 || n == 2 || n == 4
  | .avg, n => n == 4
  | .spec, n => n == 4

/-- A bus access of n bytes at offset a is aligned and of a width its region takes (20_memory.md R95, R96). -/
def accessOk (a n : Nat) : Bool := a % n == 0 && widthOk (regionOf a) n

/-- Result words: what the pending result can change (20_memory.md R101). -/
def isResultWord (a : Nat) : Bool :=
  match regionOf a with
  | .pcmOut | .avg | .spec => true
  | .pdmBuf => false
  | .control =>
    match ctrlRegAt a with
    | .status | .chunkCount | .frameCount | .avgCount | .pcmCount => true
    | .id | .errcode | .cmd | .decCfg | .gain | .fftCfg | .overlap | .fsHz | .halfBytes | .nbins
    | .params | .reserved => false

/-- The writable masks (45_host_commands.md R392). -/
def decCfgMask : Word := 0x0FFF3FFF
def gainMask : Word := 0x000000FF
def fftCfgMask : Word := 0x00003F7F
def overlapMask : Word := 0x0000FFFF

/-- PARAMS: HB_PRESENT, C_MAX, LOG2T_MAX (10_state.md R48). -/
def paramsWord (P : Config.Params) : Word :=
  BitVec.ofNat 32 (P.log2tMax % 16 + 16 * (P.cMax % 16) + 256 * P.hbPresent.toNat)

/-- The retained count, round(f·T) with ties upward (42_overlap_save.md R281). -/
def retained (ovl t : Nat) : Nat := (ovl * t + 32768) / 65536

/-- CFG_DEC's validation of DEC_CFG, in check order, and the configuration it latches
(45_host_commands.md R372). -/
def decConfigOf (P : Config.Params) (w : Word) : Except ErrCode DecConfig :=
  let code := field w 0 4
  let cin := field w 4 4
  let cout := field w 8 4
  let nout := field w 16 12
  match decodeRatio code with
  | none => .error .unsupportedRatio
  | some (r, rp, casc) =>
    let hb := cin * rp * nout / 8
    let nfin := if casc then nout / 2 else nout
    if cin < 1 ∨ P.cMax < cin ∨ cout < 1 ∨ cin < cout then .error .invalidChannels
    else if casc = true ∧ P.hbPresent = false then .error .resourceExhausted
    else if nout = 0 then .error .invalidChunk
    else if casc = true ∧ nout % 2 = 1 then .error .invalidChunk
    else if 4096 < hb then .error .invalidChunk
    else if 2048 < cout * nfin then .error .invalidChunk
    else if bitAt w 13 = true ∧ hb % 2 = 1 then .error .invalidChunk
    else .ok { code, r, rp, casc, cin, cout, bord := bitAt w 12, endn := bitAt w 13, nout, nfin, hbytes := hb }

/-- CFG_FFT's validation of FFT_CFG and OVERLAP, in check order, and the configuration it latches
(45_host_commands.md R373). -/
def fftConfigOf (P : Config.Params) (w ov : Word) : Except ErrCode FftConfig :=
  let lt := field w 0 4
  let t := 2 ^ lt
  let ovl := field ov 0 16
  let rret := retained ovl t
  if lt < 1 ∨ P.log2tMax < lt then .error .invalidLength
  else match decodeWindow (field w 4 3) with
    | none => .error .invalidWindow
    | some win =>
      match decodeOutKind (field w 8 2) with
      | none => .error .invalidOutputKind
      | some outk =>
        if t ≤ rret then .error .invalidOverlap
        else .ok { lt, t, nb := t / 2 + 1, win, outk, chsel := field w 10 4, ovl, rret }

end Sys2Proof.Machine
end

