-- ==== Sys2Proof/Machine/Ops.lean ====
section
/-! DEFINITION. The shared operations over the state: how a command ends, how a bus transaction is answered,
the model fault, free choices, register reads and writes. The block has no trap (60_exceptions.md R500,
R512): these three ways to report are all there is in the place of an exception. -/

namespace Sys2Proof.Machine

/-- Answer a bus transaction (30_encoding.md R135). -/
def State.respond (s : State) (err : Bool) (data : Word) : State := { s with resp := some ⟨err, data⟩ }

/-- A command ends with a code in ERRCODE; its CMD write gets an OK response (45_host_commands.md R371,
R391). `error(code)` is this on the unchanged state. -/
def State.endCmd (s : State) (code : ErrCode) : State :=
  { s with errcode := errValue code, resp := some ⟨false, 0⟩ }

/-- A refused transaction: an error response with data 0, and no state change (60_exceptions.md R504). -/
def State.refuseBus (s : State) : State := s.respond true 0

/-- `raise Fault(OVERRUN)`: FAULT is set and nothing else changes (60_exceptions.md R510). -/
def State.raiseOverrun (s : State) : State := { s with fault := .overrun }

/-- The BUSY gate of every command but NOP and SOFT_RESET (45_host_commands.md R370). -/
def whenIdle (s : State) (k : State → State) : State := if s.busy then s.endCmd .state else k s

/-- The results a bus read of a result word sees: the live ones, or while BUSY = 1 a free choice of live and
pending (20_memory.md R105). -/
def drawResults (s : State) : Results × State :=
  match s.inflight with
  | none => (s.live, s)
  | some f => (if Config.tornPick s.draws then f.pend else s.live, { s with draws := s.draws + 1 })

/-- The value of a control register, its result words taken from `r` (10_state.md R32 to R48). -/
def ctrlRead (P : Config.Params) (s : State) (r : Results) : CtrlReg → Word
  | .id => 0x50444D01
  | .status => statusWord s r.avgWarm
  | .errcode => s.errcode.setWidth 32
  | .cmd => 0
  | .decCfg => s.decCfg
  | .gain => s.gain
  | .fftCfg => s.fftCfg
  | .overlap => s.overlap
  | .fsHz => s.fsHz
  | .chunkCount => r.chunkCount
  | .frameCount => r.frameCount
  | .avgCount => r.avgCount
  | .halfBytes => s.halfBytes
  | .pcmCount => r.pcmCount
  | .nbins => s.nbins
  | .params => paramsWord P
  | .reserved => 0

/-- A write to a control register other than CMD: a read-write register stores the writable bits, any other
ignores the write (45_host_commands.md R391, R392; 20_memory.md R98). -/
def ctrlWrite (s : State) (v : Word) : CtrlReg → State
  | .decCfg => { s with decCfg := v &&& decCfgMask }
  | .gain => { s with gain := v &&& gainMask }
  | .fftCfg => { s with fftCfg := v &&& fftCfgMask }
  | .overlap => { s with overlap := v &&& overlapMask }
  | .fsHz => { s with fsHz := v }
  | .id | .status | .errcode | .cmd | .chunkCount | .frameCount | .avgCount | .halfBytes | .pcmCount
  | .nbins | .params | .reserved => s

/-- Where a region of PDM_BUF starts, as a PDM_BUF index (20_memory.md R97). -/
def halfBase (dc : DecConfig) : BufHalf → Nat
  | .A => 0
  | .B => dc.hbytes

/-- A write of n bytes at PDM_BUF index j touches a byte of the in-flight chunk's region
(41_bitstream_handoff.md R258). With no configuration there are no regions (20_memory.md R97). -/
def hitsInFlight (s : State) (j n : Nat) : Bool :=
  match s.inflight, s.dc with
  | some f, some dc => decide (j < halfBase dc f.breg + dc.hbytes ∧ halfBase dc f.breg < j + n)
  | _, _ => false

/-- Store n bytes of v in PDM_BUF from index j (20_memory.md R92). -/
def State.storePdm (s : State) (j n v : Nat) : State := { s with pdm := writeLE s.pdm (pdmBase + j) n v }

/-- The byte of the window RAM at an offset, its result bytes taken from `r` (20_memory.md R91). -/
def ramByteAt (s : State) (r : Results) (a : Nat) : Byte :=
  if regionOf a = .pdmBuf then pdmByte s.pdm a else ramByte r.ram a

/-- The byte of RAM a read of offset a sees when no chunk is in flight. -/
def State.byteAt (s : State) (a : Nat) : Byte := ramByteAt s s.live a

end Sys2Proof.Machine
end

