-- ==== Sys2Proof/Machine/Decimation.lean ====
section
/-! DEFINITION. The decimation filter (40_decimation.md). -/

namespace Sys2Proof.Machine

/-- The swap of the bytes of each halfword (40_decimation.md R201). -/
def swapPairs : List Byte → List Byte
  | a :: b :: bs => b :: a :: swapPairs bs
  | bs => bs

/-- ENDIAN_PREP (40_decimation.md R201). -/
def endianPrep (endn : Bool) (bs : List Byte) : List Byte := if endn then swapPairs bs else bs

/-- CHBYTES(E, c): the bytes of channel c (40_decimation.md R202). -/
def chBytes (dc : DecConfig) (e : List Byte) (c : Nat) : List Byte :=
  (List.range (dc.rp * dc.nout / 8)).map fun j => e.getD (c + dc.cin * j) 0

/-- The bits of a byte in time order (40_decimation.md R203). -/
def byteBits (bord : Bool) (b : Byte) : List Bool :=
  (List.range 8).map fun i => b.getLsbD (if bord then i else 7 - i)

/-- BITS (40_decimation.md R203). -/
def bitsOf (bord : Bool) (bs : List Byte) : List Bool := bs.flatMap (byteBits bord)

/-- LEVEL: bit 1 is +1 and bit 0 is −1 (40_decimation.md R204). -/
def level (b : Bool) : Int := if b then 1 else -1

/-- Group n: bits n·RP .. (n+1)·RP − 1 (40_decimation.md R205). -/
def group (rp : Nat) (bits : List Bool) (n : Nat) : List Bool := (bits.drop (n * rp)).take rp

/-- One bit's step of the integrator chain: each accumulator adds the new value of the one before it
(40_decimation.md R206). -/
def integrate : List Int → Int → List Int
  | [], _ => []
  | x :: xs, d => (x + d) :: integrate xs (x + d)

/-- The comb chain on x: each stage subtracts its input of M samples ago and shifts its line
(40_decimation.md R206). -/
def comb : List (List Int) → Int → List (List Int) × Int
  | [], x => ([], x)
  | line :: rest, x =>
    let out := comb rest (x - line.getLastD 0)
    ((x :: line.dropLast) :: out.1, out.2)

/-- CIC: integrate the group's bits, keep one value, comb, normalise (40_decimation.md R206). -/
def cic (P : Config.Params) (rp : Nat) (m : ChanMem) (bits : List Bool) : ChanMem × Rat :=
  let integ := bits.foldl (fun acc b => integrate acc (level b)) m.integ
  let out := comb m.combd (integ.getLastD 0)
  ({ m with integ := integ, combd := out.1 }, (out.2 : Rat) / ((rp * P.mCic rp : Nat) : Rat) ^ P.kCic rp)

/-- Σ h[j]·x[j] over two lists. -/
def dot : List Rat → List Rat → Rat
  | h :: hs, x :: xs => h * x + dot hs xs
  | _, _ => 0

/-- FIR compensation (40_decimation.md R207). -/
def fir (P : Config.Params) (rp : Nat) (m : ChanMem) (cn : Rat) : ChanMem × Rat :=
  let h := P.firCoef rp
  ({ m with fird := (cn :: m.fird).take (h.length - 1) }, dot h (cn :: m.fird))

/-- SCALE (40_decimation.md R208). -/
def scale (P : Config.Params) (v : Rat) (gdb : Int) : S16 := sat16 (rnd (32768 * P.gainLin gdb * v))

/-- PRIMARY_SAMPLE: CIC, FIR, SCALE (40_decimation.md R210). -/
def primarySample (P : Config.Params) (rp : Nat) (gdb : Int) (m : ChanMem) (bits : List Bool) : ChanMem × S16 :=
  let c := cic P rp m bits
  let f := fir P rp c.1 c.2
  (f.1, scale P f.2 gdb)

/-- The channel's primary samples, one group after another (40_decimation.md R205, R219). -/
def primarySamples (P : Config.Params) (rp : Nat) (gdb : Int) : ChanMem → List (List Bool) → ChanMem × List S16
  | m, [] => (m, [])
  | m, g :: gs =>
    let p := primarySample P rp gdb m g
    let rest := primarySamples P rp gdb p.1 gs
    (rest.1, p.2 :: rest.2)

/-- HALFBAND over the primary samples: every second output is kept (40_decimation.md R211). -/
def halfband (g : List Rat) : HbMem → List S16 → HbMem × List S16
  | h, [] => (h, [])
  | h, p :: ps =>
    let y := dot g ((p :: h.hbd).map fun x => (x.toInt : Rat))
    let rest := halfband g { hbd := (p :: h.hbd).take (g.length - 1), hbph := !h.hbph } ps
    (rest.1, if h.hbph then sat16 (rnd y) :: rest.2 else rest.2)

/-- One channel of a chunk: its new memory and its final samples (40_decimation.md R219). -/
def decimateChannel (P : Config.Params) (dc : DecConfig) (gdb : Int) (e : List Byte) (c : Nat) (m : ChanMem) :
    ChanMem × List S16 :=
  let bits := bitsOf dc.bord (chBytes dc e c)
  let p := primarySamples P dc.rp gdb m ((List.range dc.nout).map (group dc.rp bits))
  match dc.casc, p.1.hb with
  | false, _ => p
  | true, none => p
  | true, some h =>
    let o := halfband P.hbCoef h p.2
    ({ p.1 with hb := some o.1 }, o.2)

/-- The channels from c on, each with its own memory (40_decimation.md R200). -/
def decimateFrom (P : Config.Params) (dc : DecConfig) (gdb : Int) (e : List Byte) :
    Nat → List ChanMem → List (ChanMem × List S16)
  | _, [] => []
  | c, m :: ms => decimateChannel P dc gdb e c m :: decimateFrom P dc gdb e (c + 1) ms

/-- DECIMATE_CHUNK: the new filter memory and q[c] of every output channel (40_decimation.md R219). -/
def decimateChunk (P : Config.Params) (dc : DecConfig) (filt : List ChanMem) (bs : List Byte) (gdb : Int) :
    List ChanMem × List (List S16) :=
  let out := decimateFrom P dc gdb (endianPrep dc.endn bs) 0 filt
  (out.map Prod.fst, out.map Prod.snd)

/-- The PCM_OUT order: sample by sample, channel by channel (40_decimation.md R215). -/
def interleave (dc : DecConfig) (q : List (List S16)) : List S16 :=
  (List.range dc.nfin).flatMap fun n => (List.range dc.cout).map fun c => (q.getD c []).getD n 0

/-- The filter memory CFG_DEC creates for a channel: all zero (45_host_commands.md R372, 10_state.md R52 to
R54). -/
def zeroChan (P : Config.Params) (dc : DecConfig) : ChanMem where
  integ := List.replicate (P.kCic dc.rp) 0
  combd := List.replicate (P.kCic dc.rp) (List.replicate (P.mCic dc.rp) 0)
  fird := List.replicate ((P.firCoef dc.rp).length - 1) 0
  hb := if dc.casc then some { hbd := List.replicate (P.hbCoef.length - 1) 0, hbph := false } else none

end Sys2Proof.Machine
end

