-- ==== Sys2Proof/Machine/Window.lean ====
section
/-! DEFINITION. The window tables (43_window_fft.md R311 to R316). The real functions are computed in fixed
point with 128 fractional bits, far finer than the distance of any table entry to a rounding boundary, so
that RNE32 of the approximation is RNE32 of the real (log 17). -/

namespace Sys2Proof.Machine

/-- One, with 128 fractional bits. -/
def fixOne : Nat := 2 ^ 128

/-- π, with 128 fractional bits. -/
def fixPi : Nat := 1069028584064966747859680373161870783301

/-- The Taylor series of the cosine in Horner form over x², the inner j terms of it folded into `acc`. -/
def cosSeries (x2 : Nat) : Nat → Nat → Nat
  | 0, acc => acc
  | j + 1, acc => cosSeries x2 j (fixOne - x2 * acc / fixOne / ((2 * j + 1) * (2 * j + 2)))

/-- cos(π·p/q) for 0 ≤ p/q ≤ 1/2. -/
def cosQuarter (p q : Nat) : Nat :=
  let x := fixPi * p / q
  cosSeries (x * x / fixOne) 24 fixOne

/-- cos(π·p/q): the angle folded into [0, π], then into [0, π/2]. -/
def cosPi (p q : Nat) : Int :=
  let m := p % (2 * q)
  let f := if m ≤ q then m else 2 * q - m
  if 2 * f ≤ q then (cosQuarter f q : Int) else -(cosQuarter (q - f) q : Int)

/-- The Tukey window of taper ratio α = a/b, over the denominator 2·fixOne (43_window_fft.md R316). The rise is
u < α/2; the fall u > 1 − α/2 is the rise at D − n. -/
def tukey (a b n d : Nat) : Int :=
  if 2 * b * n < a * d then fixOne + cosPi (a * d - 2 * b * n) (a * d)
  else if 2 * b * (d - n) < a * d then fixOne + cosPi (a * d - 2 * b * (d - n)) (a * d)
  else 2 * fixOne

/-- w(n) of a window with D = T − 1, as a numerator and a denominator (43_window_fft.md R312 to R316). -/
def windowValue (win : WindowKind) (n d : Nat) : Int × Nat :=
  match win with
  | .rectangular => (1, 1)
  | .hamming => (54 * fixOne - 46 * cosPi (2 * n) d, 100 * fixOne)
  | .hann => (fixOne - cosPi (2 * n) d, 2 * fixOne)
  | .blackmanHarris =>
    (35875 * fixOne - 48829 * cosPi (2 * n) d + 14128 * cosPi (4 * n) d - 1168 * cosPi (6 * n) d,
      100000 * fixOne)
  | .tukey25 => (tukey 1 4 n d, 2 * fixOne)
  | .tukey75 => (tukey 3 4 n d, 2 * fixOne)

/-- WT[n] = RNE32(w(n)) (43_window_fft.md R311). -/
def windowEntry (win : WindowKind) (n d : Nat) : F32 :=
  f32Round false (windowValue win n d).1 (windowValue win n d).2

/-- The table CFG_FFT stores (43_window_fft.md R311). -/
def windowTable (win : WindowKind) (t : Nat) : List F32 :=
  (List.range t).map fun n => windowEntry win n (t - 1)

end Sys2Proof.Machine
end

