-- ==== Sys2Proof/Machine/Spectrum.lean ====
section
/-! DEFINITION. Normalisation, window multiply, real FFT, magnitude and phase, SPEC layout, averager, and the
transform cycle (43_window_fft.md, 44_averager.md). -/

namespace Sys2Proof.Machine

/-- 2^−15. -/
def f32Scale15 : F32 := 0x38000000

/-- NORMALIZE of one sample (43_window_fft.md R310). -/
def normalize (v : S16) : F32 := f32Mul (f32OfInt v.toInt) f32Scale15

/-- WINDOW over NORMALIZE (43_window_fft.md R310, R317). -/
def windowed (wt : List F32) (frame : List S16) : List F32 := List.zipWith f32Mul wt (frame.map normalize)

/-- MAG of one bin (43_window_fft.md R320). -/
def mag (z : F32 × F32) : F32 := f32Sqrt (f32Add (f32Mul z.1 z.1) (f32Mul z.2 z.2))

/-- The words SPEC gets, in its layout (43_window_fft.md R323). -/
def specWords (P : Config.Params) (outk : OutKind) (bins : List (F32 × F32)) : List F32 :=
  match outk with
  | .complex => bins.flatMap fun z => [z.1, z.2]
  | .magnitude => bins.map mag
  | .phase => bins.map fun z => P.atan2 z.2 z.1

/-- One averaged word (44_averager.md R351). -/
def avgStep (cf old m : F32) : F32 := f32Add old (f32Div (f32Sub m old) cf)

/-- The averaged words of the bins stored from offset a on (44_averager.md R351). -/
def avgWords (ram : Memory) (cf : F32) : Nat → List F32 → List F32
  | _, [] => []
  | a, m :: ms => avgStep cf (readWord ram a) m :: avgWords ram cf (a + 4) ms

/-- AVG_UPDATE (44_averager.md R351). -/
def avgUpdate (ms : List F32) (r : Results) : Results :=
  let count := satInc r.avgCount
  { r with
    avgCount := count
    ram := writeWords r.ram avgBase (avgWords r.ram (f32OfInt count.toNat) avgBase ms) }

/-- The bins of a frame: RFFT_T of the windowed frame (43_window_fft.md R318). -/
def frameBins (P : Config.Params) (fc : FftConfig) (wt : List F32) (frame : List S16) : List (F32 × F32) :=
  (List.range fc.nb).map (P.rfft fc.t (windowed wt frame))

/-- TRANSFORM_CYCLE (43_window_fft.md R324). -/
def transformCycle (P : Config.Params) (fc : FftConfig) (wt : List F32) (frame : List S16) (r : Results) : Results :=
  let bins := frameBins P fc wt frame
  let r1 := { r with ram := writeWords r.ram specBase (specWords P fc.outk bins) }
  let r2 := avgUpdate (bins.map mag) r1
  { r2 with frameCount := wrapInc r2.frameCount }

/-- The averager's reset on the results: AVG is +0.0, the count 0, the state Empty (44_averager.md R353). -/
def avgClear (r : Results) : Results :=
  { r with avgCount := 0, avgWarm := false, ram := memClear r.ram avgBase specBase }

end Sys2Proof.Machine
end

