-- ==== Sys2Proof/Machine/Overlap.lean ====
section
/-! DEFINITION. The overlap-save frame buffer (42_overlap_save.md). -/

namespace Sys2Proof.Machine

/-- The frame buffer after EMIT_SHIFT: the trailing RRET samples first, read before any is written; the
entries from RRET on are stale (42_overlap_save.md R284). -/
def shiftFrame (fc : FftConfig) (fb : List S16) : List S16 :=
  (fb.drop (fc.t - fc.rret)).take fc.rret ++ fb.drop fc.rret

/-- FEED of one sample (42_overlap_save.md R283). -/
def feedOne (P : Config.Params) (fc : FftConfig) (wt : List F32) (r : Results) (q : S16) : Results :=
  let fb := r.fb.set r.fill q
  if r.fill + 1 = fc.t then
    let r1 := transformCycle P fc wt (fb.take fc.t) { r with fb := fb }
    { r1 with fb := shiftFrame fc fb, fill := fc.rret }
  else { r with fb := fb, fill := r.fill + 1 }

/-- FEED (42_overlap_save.md R283). -/
def feed (P : Config.Params) (fc : FftConfig) (wt : List F32) (q : List S16) (r : Results) : Results :=
  q.foldl (feedOne P fc wt) r

/-- How many transform cycles a FEED of n samples runs from fill f (42_overlap_save.md R285). -/
def nCycles (fc : FftConfig) (f n : Nat) : Nat :=
  if f + n < fc.t then 0 else 1 + (f + n - fc.t) / (fc.t - fc.rret)

end Sys2Proof.Machine
end

