-- ==== Sys2Proof/Machine/Chunk.lean ====
section
/-! DEFINITION. The chunk cycle: ACCEPT and COMMIT (41_bitstream_handoff.md R254, R255). -/

namespace Sys2Proof.Machine

/-- The chunk's bytes, read once at acceptance (41_bitstream_handoff.md R254). -/
def chunkBytes (dc : DecConfig) (h : BufHalf) (pdm : Memory) : List Byte :=
  (List.range dc.hbytes).map fun j => pdmByte pdm (pdmBase + halfBase dc h + j)

/-- What a chunk makes of the results: decimate, write PCM_OUT, feed the selected channel, count the chunk
(41_bitstream_handoff.md R254, R262; 40_decimation.md R215). -/
def processChunk (P : Config.Params) (dc : DecConfig) (fc : FftConfig) (wt : List F32) (bs : List Byte)
    (gdb : Int) (r : Results) : Results :=
  let d := decimateChunk P dc r.filt bs gdb
  let r1 := { r with
    filt := d.1
    ram := writeHalves r.ram pcmBase (interleave dc d.2)
    pcmCount := BitVec.ofNat 32 (dc.cout * dc.nfin) }
  let r2 := feed P fc wt (d.2.getD fc.chsel []) r1
  { r2 with chunkCount := wrapInc r2.chunkCount, avgWarm := warm r2.avgCount }

/-- ACCEPT: the pending results of region h; the live ones keep their values. `none` where a configuration the
rule reads is absent (41_bitstream_handoff.md R254). -/
def accept (P : Config.Params) (h : BufHalf) (s : State) : Option State :=
  match s.dc, s.fc with
  | some dc, some fc =>
    let pend := processChunk P dc fc s.wt (chunkBytes dc h s.pdm) (gainDb s.gain) s.live
    some { s with inflight := some ⟨h, pend⟩ }
  | _, _ => none

/-- COMMIT: the pending results become the live ones; enabled while BUSY = 1 (41_bitstream_handoff.md R255). -/
def commit (s : State) : State :=
  match s.inflight with
  | some f => { s with live := f.pend, inflight := none }
  | none => s

end Sys2Proof.Machine
end

