-- ==== Sys2Proof/Machine/Parameters.lean ====
section
/-! DEFINITION. The constraints 00_scope.md R9 puts on the parameters, and the machine's own parameters: a free value
among all that meet them, and nothing more is known of it (logs 10 to 15). -/

namespace Sys2Proof.Machine

/-- RNE32(π) (43_window_fft.md R322). -/
def piBits : Nat := 0x40490FDB

/-- ±RNE32(π). -/
def f32Pi (neg : Bool) : F32 := BitVec.ofNat 32 ((if neg then 2 ^ 31 else 0) + piBits)

/-- Properties 2 and 3 of 43_window_fft.md R318 for bin k of the frame y of length t: finite, and within
EPS_FFT · Σ|y[n]| of the exact unnormalised DFT. -/
def FftAccurateAt (P : Config.Params) (t : Nat) (y : List F32) (k : Nat) : Prop :=
  let x : Nat → ℝ := fun n => ((f32ToRat (y.getD n 0) : Rat) : ℝ)
  let angle : Nat → ℝ := fun n => 2 * Real.pi * k * n / t
  let size := ∑ n ∈ Finset.range t, |x n|
  let z := P.rfft t y k
  f32IsFinite z.1 = true ∧ f32IsFinite z.2 = true ∧
  |((f32ToRat z.1 : Rat) : ℝ) - ∑ n ∈ Finset.range t, x n * Real.cos (angle n)| ≤ P.epsFft * size ∧
  |((f32ToRat z.2 : Rat) : ℝ) + ∑ n ∈ Finset.range t, x n * Real.sin (angle n)| ≤ P.epsFft * size

/-- What 43_window_fft.md R318 asks of RFFT_T, on every frame that WINDOW can give it (R317; log 13). Determinism
is its being a function. -/
def FftAccurate (P : Config.Params) : Prop :=
  ∀ (win : WindowKind) (lt : Nat) (frame : List S16) (k : Nat), 1 ≤ lt → lt ≤ P.log2tMax →
    frame.length = 2 ^ lt → k ≤ 2 ^ lt / 2 →
    FftAccurateAt P (2 ^ lt) (windowed (windowTable win (2 ^ lt)) frame) k

/-- Properties 2, 3, 4 and 6 of 43_window_fft.md R322: the values of ATAN2 on the axis im = ±0, and its range. -/
def PhaseInRange (P : Config.Params) : Prop :=
  ∀ im re : F32,
    (f32IsZero im = true → f32IsZero re = true → P.atan2 im re = 0) ∧
    (f32IsZero im = true → f32Positive re = true → P.atan2 im re = f32Zero (f32Sign im)) ∧
    (f32IsZero im = true → f32Negative re = true → P.atan2 im re = f32Pi (f32Sign im)) ∧
    (P.atan2 im re).toNat % 2 ^ 31 ≤ piBits

/-- Property 5 of 43_window_fft.md R322: off the axis im = ±0, ATAN2 is within EPS_ATAN of the real
atan2(im, re). -/
def PhaseAccurate (P : Config.Params) : Prop :=
  ∀ im re : F32, f32IsFinite im = true → f32IsFinite re = true → f32IsZero im = false →
    |((f32ToRat (P.atan2 im re) : Rat) : ℝ) -
      Complex.arg ⟨((f32ToRat re : Rat) : ℝ), ((f32ToRat im : Rat) : ℝ)⟩| ≤ P.epsAtan

/-- The constraints of 00_scope.md R9 on the parameters. -/
structure ParamsOk (P : Config.Params) : Prop where
  cMax : 1 ≤ P.cMax ∧ P.cMax ≤ 15
  log2tMax : 1 ≤ P.log2tMax ∧ P.log2tMax ≤ 12
  cic : ∀ r, 1 ≤ P.kCic r ∧ 1 ≤ P.mCic r
  fir : ∀ r, P.firCoef r ≠ []
  halfband : P.hbCoef.length % 2 = 1 ∧ P.hbCoef.reverse = P.hbCoef
  gainOne : P.gainLin 0 = 1
  gainPositive : ∀ d, 0 < P.gainLin d
  gainMonotone : ∀ d e, d ≤ e → P.gainLin d ≤ P.gainLin e
  epsFft : 0 ≤ P.epsFft
  fft : FftAccurate P
  epsAtan : 0 ≤ P.epsAtan
  phaseInRange : PhaseInRange P
  phase : PhaseAccurate P

/-- The values 43_window_fft.md R322 fixes on the axis im = ±0, and ±0 off it. -/
def axisPhase (im re : F32) : F32 :=
  if f32IsZero im && f32IsZero re then f32Zero false
  else if f32IsZero im && f32Negative re then f32Pi (f32Sign im)
  else f32Zero (f32Sign im)

/-- Parameters that meet R9 with wide tolerances: they show that some do. -/
def coarseParams : Config.Params where
  cMax := 4
  log2tMax := 12
  hbPresent := true
  kCic := fun _ => 1
  mCic := fun _ => 1
  firCoef := fun _ => [1]
  hbCoef := [1]
  gainLin := fun _ => 1
  rfft := fun _ _ _ => (0x00000000, 0x00000000)
  atan2 := axisPhase
  epsFft := 1
  epsAtan := 4

theorem f32ToRat_zero (neg : Bool) : f32ToRat (f32Zero neg) = 0 := by
  cases neg <;> decide +kernel

/-- Zero is within 1 · Σ|y[n]| of the DFT. -/
theorem coarseParams_fftAt (t : Nat) (y : List F32) (k : Nat) : FftAccurateAt coarseParams t y k := by
  have h0 : f32ToRat (0x00000000 : F32) = 0 := f32ToRat_zero false
  have hf : f32IsFinite (0x00000000 : F32) = true := by decide
  refine ⟨hf, hf, ?_, ?_⟩
  · simp only [coarseParams, h0, Rat.cast_zero, zero_sub, abs_neg, one_mul]
    refine (Finset.abs_sum_le_sum_abs _ _).trans (Finset.sum_le_sum fun n _ => ?_)
    rw [abs_mul]
    exact mul_le_of_le_one_right (abs_nonneg _) (Real.abs_cos_le_one _)
  · simp only [coarseParams, h0, Rat.cast_zero, zero_add, one_mul]
    refine (Finset.abs_sum_le_sum_abs _ _).trans (Finset.sum_le_sum fun n _ => ?_)
    rw [abs_mul]
    exact mul_le_of_le_one_right (abs_nonneg _) (Real.abs_sin_le_one _)

theorem coarseParams_phaseInRange : PhaseInRange coarseParams := by
  intro im re
  refine ⟨fun hi hr => ?_, fun hi hr => ?_, fun hi hr => ?_, ?_⟩
  · simp [coarseParams, axisPhase, hi, hr, f32Zero]
  · have hz : f32IsZero re = false := by simp_all [f32Positive]
    have hn : f32Negative re = false := by simp_all [f32Positive, f32Negative]
    simp [coarseParams, axisPhase, hz, hn]
  · have hz : f32IsZero re = false := by simp_all [f32Negative]
    simp [coarseParams, axisPhase, hi, hr, hz]
  · simp only [coarseParams, axisPhase]
    split
    · decide
    · split
      · cases f32Sign im <;> decide
      · cases f32Sign im <;> decide

theorem coarseParams_phase : PhaseAccurate coarseParams := by
  intro im re _ _ hi
  have h : coarseParams.atan2 im re = f32Zero (f32Sign im) := by simp [coarseParams, axisPhase, hi]
  rw [h, f32ToRat_zero, Rat.cast_zero, zero_sub, abs_neg]
  exact (Complex.abs_arg_le_pi _).trans Real.pi_le_four

theorem coarseParams_ok : ParamsOk coarseParams where
  cMax := by decide
  log2tMax := by decide
  cic := fun _ => ⟨le_refl 1, le_refl 1⟩
  fir := fun _ => List.cons_ne_nil _ _
  halfband := ⟨rfl, rfl⟩
  gainOne := rfl
  gainPositive := fun _ => zero_lt_one
  gainMonotone := fun _ _ _ => le_refl _
  epsFft := zero_le_one
  fft := fun _ _ _ _ _ _ _ _ => coarseParams_fftAt _ _ _
  epsAtan := zero_le_four
  phaseInRange := coarseParams_phaseInRange
  phase := coarseParams_phase

/-- An instance of the block: parameters with their constraints. -/
abbrev Instance := { P : Config.Params // ParamsOk P }

/-- The instance the machine is: any one that 00_scope.md R9 allows. -/
def machineInstance : Instance := @Config.anyOf Instance ⟨coarseParams, coarseParams_ok⟩

/-- The parameters of the machine (00_scope.md R9). -/
def machineParams : Config.Params := machineInstance.1

end Sys2Proof.Machine
end

