-- ==== Sys2Proof/Machine/Commands.lean ====
section
/-! DEFINITION. The meanings of the host commands (45_host_commands.md R370 to R382). -/

namespace Sys2Proof.Machine

/-- NOP: ERRCODE is 0, in every state (45_host_commands.md R380). -/
def execNop (s : State) : Host.Outcome State Fault Refusal := .next (s.endCmd .ok)

/-- What a successful CFG_DEC leaves (45_host_commands.md R372). -/
def latchDec (P : Config.Params) (dc : DecConfig) (s : State) : State :=
  { s with
    dc := some dc
    halfBytes := BitVec.ofNat 32 dc.hbytes
    live := { s.live with
      filt := List.replicate dc.cout (zeroChan P dc)
      ram := memClear s.live.ram pcmBase pdmBase
      pcmCount := 0
      chunkCount := 0 } }

/-- CFG_DEC at given parameters (45_host_commands.md R370, R372). -/
def cfgDecAt (P : Config.Params) (s : State) : State :=
  whenIdle s fun s =>
    if s.running then s.endCmd .state
    else match decConfigOf P s.decCfg with
      | .error e => s.endCmd e
      | .ok dc => (latchDec P dc s).endCmd .ok

/-- CFG_DEC (45_host_commands.md R372). -/
def execCfgDec (s : State) : Host.Outcome State Fault Refusal := .next (cfgDecAt machineParams s)

/-- What a successful CFG_FFT leaves (45_host_commands.md R373). -/
def latchFft (fc : FftConfig) (s : State) : State :=
  { s with
    fc := some fc
    wt := windowTable fc.win fc.t
    nbins := BitVec.ofNat 32 fc.nb
    live := { s.live with
      fb := List.replicate fc.t 0
      fill := 0
      ram := memClear s.live.ram avgBase 0x10000
      avgCount := 0
      frameCount := 0
      avgWarm := false } }

/-- CFG_FFT at given parameters (45_host_commands.md R370, R373). -/
def cfgFftAt (P : Config.Params) (s : State) : State :=
  whenIdle s fun s =>
    if s.running then s.endCmd .state
    else match fftConfigOf P s.fftCfg s.overlap with
      | .error e => s.endCmd e
      | .ok fc => (latchFft fc s).endCmd .ok

/-- CFG_FFT (45_host_commands.md R373). -/
def execCfgFft (s : State) : Host.Outcome State Fault Refusal := .next (cfgFftAt machineParams s)

/-- AVG_RESET (45_host_commands.md R374, 44_averager.md R353). -/
def execAvgReset (s : State) : Host.Outcome State Fault Refusal :=
  .next (whenIdle s fun s => State.endCmd { s with live := avgClear s.live } .ok)

/-- START's checks after the BUSY gate, in order (45_host_commands.md R375). -/
def startCheck (s : State) : ErrCode :=
  if s.running then .state
  else match s.dc, s.fc with
    | some dc, some fc => if dc.cout ≤ fc.chsel then .invalidChannelSelect else .ok
    | _, _ => .notConfigured

/-- START (45_host_commands.md R375). -/
def execStart (s : State) : Host.Outcome State Fault Refusal :=
  .next (whenIdle s fun s =>
    if startCheck s = .ok then State.endCmd { s with running := true } .ok else s.endCmd (startCheck s))

/-- STOP (45_host_commands.md R376). -/
def execStop (s : State) : Host.Outcome State Fault Refusal :=
  .next (whenIdle s fun s => State.endCmd { s with running := false } .ok)

/-- A host-injected event for region h at given parameters (45_host_commands.md R377, R378). -/
def hostEventAt (P : Config.Params) (h : BufHalf) (s : State) : Host.Outcome State Fault Refusal :=
  if s.busy || !s.running then .next (s.endCmd .state)
  else match accept P h s with
    | some s' => .next (s'.endCmd .ok)
    | none => .refused .absentState

/-- EVT_HALF: region A (45_host_commands.md R377). -/
def execEvtHalf (s : State) : Host.Outcome State Fault Refusal := hostEventAt machineParams .A s

/-- EVT_FULL: region B (45_host_commands.md R378). -/
def execEvtFull (s : State) : Host.Outcome State Fault Refusal := hostEventAt machineParams .B s

/-- Power-on reset of everything the spec gives the machine but PDM_BUF and FAULT; the model's own fields stay
(45_host_commands.md R379, 70_reset_and_hazards.md R601). -/
def softReset (s : State) : State :=
  { State.reset with pdm := s.pdm, fault := s.fault, resp := s.resp, draws := s.draws, inputs := s.inputs }

/-- SOFT_RESET, in every state (45_host_commands.md R379). -/
def execSoftReset (s : State) : Host.Outcome State Fault Refusal := .next ((softReset s).endCmd .ok)

/-- BAD_COMMAND: a reserved CMD word (45_host_commands.md R381). -/
def badCommand (s : State) : State := s.endCmd .badCommand

/-- The meaning of a command opcode at given parameters (45_host_commands.md R370). -/
def runCmdOpAt (P : Config.Params) (op : CmdOp) (s : State) : Host.Outcome State Fault Refusal :=
  match op with
  | .nop => execNop s
  | .cfgDec => .next (cfgDecAt P s)
  | .cfgFft => .next (cfgFftAt P s)
  | .avgReset => execAvgReset s
  | .start => execStart s
  | .stop => execStop s
  | .evtHalf => hostEventAt P .A s
  | .evtFull => hostEventAt P .B s
  | .softReset => execSoftReset s

/-- ON_CMD at given parameters: what a 32-bit write of w to CMD does (45_host_commands.md R370). -/
def onCmdAt (P : Config.Params) (w : Word) (s : State) : Host.Outcome State Fault Refusal :=
  match decodeCmdOp w with
  | .ok op => runCmdOpAt P op s
  | .error _ => .next (badCommand s)

end Sys2Proof.Machine
end

