-- ==== Sys2Proof/Machine/Bus.lean ====
section
/-! DEFINITION. The meanings of the host bus transactions (45_host_commands.md R390, R391). -/

namespace Sys2Proof.Machine

/-- The data of a permitted read of n bytes at offset a, its result words taken from `r`
(45_host_commands.md R390). -/
def readData (P : Config.Params) (s : State) (r : Results) (a n : Nat) : Word :=
  match regionOf a with
  | .control => ctrlRead P s r (ctrlRegAt a)
  | .pcmOut | .pdmBuf | .avg | .spec => BitVec.ofNat 32 (readLE (ramByteAt s r) a n)

/-- BUS_READ at given parameters (45_host_commands.md R390; 20_memory.md R105). -/
def busReadAt (P : Config.Params) (a n : Nat) (s : State) : State :=
  if accessOk a n = false then s.refuseBus
  else if isResultWord a then (drawResults s).2.respond false (readData P s (drawResults s).1 a n)
  else s.respond false (readData P s s.live a n)

/-- RD8 (45_host_commands.md R390). -/
def execRd8 (addr : Offset) (s : State) : Host.Outcome State Fault Refusal :=
  .next (busReadAt machineParams addr.toNat 1 s)

/-- RD16 (45_host_commands.md R390). -/
def execRd16 (addr : Offset) (s : State) : Host.Outcome State Fault Refusal :=
  .next (busReadAt machineParams addr.toNat 2 s)

/-- RD32 (45_host_commands.md R390). -/
def execRd32 (addr : Offset) (s : State) : Host.Outcome State Fault Refusal :=
  .next (busReadAt machineParams addr.toNat 4 s)

/-- BUS_WRITE at given parameters (45_host_commands.md R391). -/
def busWriteAt (P : Config.Params) (a n : Nat) (v : Word) (s : State) : Host.Outcome State Fault Refusal :=
  if accessOk a n = false then .next s.refuseBus
  else match regionOf a with
    | .control =>
      if ctrlRegAt a = .cmd then onCmdAt P v s else .next ((ctrlWrite s v (ctrlRegAt a)).respond false 0)
    | .pdmBuf =>
      if hitsInFlight s (a - pdmBase) n then .next s.raiseOverrun
      else .next ((s.storePdm (a - pdmBase) n v.toNat).respond false 0)
    | .pcmOut | .avg | .spec => .next (s.respond false 0)

/-- WR8 (45_host_commands.md R391). -/
def execWr8 (addr : Offset) (data : Word) (s : State) : Host.Outcome State Fault Refusal :=
  busWriteAt machineParams addr.toNat 1 data s

/-- WR16 (45_host_commands.md R391). -/
def execWr16 (addr : Offset) (data : Word) (s : State) : Host.Outcome State Fault Refusal :=
  busWriteAt machineParams addr.toNat 2 data s

/-- WR32 (45_host_commands.md R391). -/
def execWr32 (addr : Offset) (data : Word) (s : State) : Host.Outcome State Fault Refusal :=
  busWriteAt machineParams addr.toNat 4 data s

end Sys2Proof.Machine
end

