-- ==== Sys2Proof/Machine/Events.lean ====
section
/-! DEFINITION. The capture engine's steps: the events HALF and FULL, and the capture write port
(41_bitstream_handoff.md R250 to R258). -/

namespace Sys2Proof.Machine

/-- A port event for region h at given parameters: a fault while BUSY = 1, ignored while stopped, else accepted
(41_bitstream_handoff.md R253). -/
def portEventAt (P : Config.Params) (h : BufHalf) (s : State) : Host.Outcome State Fault Refusal :=
  if s.busy then .next s.raiseOverrun
  else if s.running then
    match accept P h s with
    | some s' => .next s'
    | none => .refused .absentState
  else .next s

/-- HALF: region A is filled (41_bitstream_handoff.md R251). -/
def execHalf (s : State) : Host.Outcome State Fault Refusal := portEventAt machineParams .A s

/-- FULL: region B is filled (41_bitstream_handoff.md R252). -/
def execFull (s : State) : Host.Outcome State Fault Refusal := portEventAt machineParams .B s

/-- A byte on the capture write port (41_bitstream_handoff.md R250, R258). -/
def captureWrite (off : BitVec 13) (b : Byte) (s : State) : State :=
  if hitsInFlight s off.toNat 1 then s.raiseOverrun else s.storePdm off.toNat 1 b.toNat

end Sys2Proof.Machine
end

