-- ==== Sys2Proof/Machine/Dispatch.lean ====
section
/-! DEFINITION. One arm per instruction, each one call of its meaning. -/

namespace Sys2Proof.Machine

def exec (i : Instr) (s : State) : Host.Outcome State Fault Refusal :=
  match i with
  | .nop => Sys2Proof.Machine.execNop s
  | .cfgDec => Sys2Proof.Machine.execCfgDec s
  | .cfgFft => Sys2Proof.Machine.execCfgFft s
  | .avgReset => Sys2Proof.Machine.execAvgReset s
  | .start => Sys2Proof.Machine.execStart s
  | .stop => Sys2Proof.Machine.execStop s
  | .evtHalf => Sys2Proof.Machine.execEvtHalf s
  | .evtFull => Sys2Proof.Machine.execEvtFull s
  | .softReset => Sys2Proof.Machine.execSoftReset s
  | .half => Sys2Proof.Machine.execHalf s
  | .full => Sys2Proof.Machine.execFull s
  | .rd8 addr => Sys2Proof.Machine.execRd8 addr s
  | .rd16 addr => Sys2Proof.Machine.execRd16 addr s
  | .rd32 addr => Sys2Proof.Machine.execRd32 addr s
  | .wr8 addr data => Sys2Proof.Machine.execWr8 addr data s
  | .wr16 addr data => Sys2Proof.Machine.execWr16 addr data s
  | .wr32 addr data => Sys2Proof.Machine.execWr32 addr data s

end Sys2Proof.Machine
end

