-- ==== Sys2Proof/Machine/Sequencer.lean ====
section
/-! DEFINITION. How the next step of an agent reaches the block (00_scope.md R8, 20_memory.md R103,
30_encoding.md R130): its bits are decoded on the interface they arrive on, and the instruction runs. -/

namespace Sys2Proof.Machine

/-- Where the encoded inputs go to the decoder; the capture write port and the commit carry no instruction
(30_encoding.md R142). -/
def decodeInput : Input → Option (Except Reject Instr)
  | .cmd w => some (decodeCmd w)
  | .evt code => some (decodeEvt code)
  | .bus desc wdata => some (decodeBus desc wdata)
  | .cap _ _ => none
  | .commit => none

/-- What bits that are no instruction do on their interface: a reserved CMD word is BAD_COMMAND (R133), an EVT
code 0b00 or 0b11 changes nothing (R134), a descriptor with SIZE = 0b11 gets an error response (R135). -/
def runRejected (r : Reject) (s : State) : State :=
  match r with
  | .reservedOp | .mbzNotZero => badCommand s
  | .noEvent | .reservedEvent => s
  | .reservedSize | .notAWord => s.refuseBus

/-- The meaning of the instructions, as a step takes it. -/
abbrev Meaning := Instr → State → Host.Outcome State Fault Refusal

/-- Decoded bits run, and rejected bits do what their interface says. -/
def runDecoded (ex : Meaning) (d : Except Reject Instr) (s : State) : Host.Outcome State Fault Refusal :=
  match d with
  | .ok ins => ex ins s
  | .error r => .next (runRejected r s)

/-- One input, with FAULT = NONE. -/
def runInputWith (ex : Meaning) (i : Input) (s : State) : Host.Outcome State Fault Refusal :=
  match i with
  | .cap off b => .next (captureWrite off b s)
  | .commit => .next (commit s)
  | .cmd w => runDecoded ex (decodeCmd w) s
  | .evt code => runDecoded ex (decodeEvt code) s
  | .bus desc wdata => runDecoded ex (decodeBus desc wdata) s

/-- One step: none past a fault (60_exceptions.md R510); else the next input, taken off the list; with none left
the pipeline commits what is in flight, and the block is otherwise idle (70_reset_and_hazards.md R608, R610). -/
def nextStepWith (ex : Meaning) (s : State) : Host.Outcome State Fault Refusal :=
  match s.fault with
  | .overrun => .fault .overrun
  | .none =>
    match s.inputs with
    | [] => .next (commit s)
    | i :: rest => runInputWith ex i { s with inputs := rest }

/-- The machine's step: the instructions run as `exec` says. -/
def nextStep (s : State) : Host.Outcome State Fault Refusal := nextStepWith exec s

/-- The input that carries a table row's bits: a CMD word, an EVT code, or a BUS descriptor whose WDATA lines are
the bits above it. -/
def inputOfBits (nbits w : Nat) : Input :=
  match formOfBits nbits with
  | .cmd => .cmd (BitVec.ofNat 32 w)
  | .evt => .evt (BitVec.ofNat 2 w)
  | .bus => .bus (BitVec.ofNat 19 w) (BitVec.ofNat 32 (w / 2 ^ 24))

end Sys2Proof.Machine
end

