-- ==== Sys2Proof/Machine/Step.lean ====
section
/-! DEFINITION. One step of the machine, and an instruction placed where the next step takes it. -/

namespace Sys2Proof.Machine

/-- One step of one agent (00_scope.md R8). -/
def step (s : State) : Host.Outcome State Fault Refusal := nextStep s

/-- The state with an instruction's bits as its next input (log 1). -/
def State.withFetchWord (s : State) (nbits w : Nat) : State :=
  { s with inputs := inputOfBits nbits w :: s.inputs }

end Sys2Proof.Machine
end

