-- ==== Sys2Proof/Machine/Parametric.lean ====
section
/-! DEFINITION. The step relation with the parameters of 00_scope.md R9 as its argument (10_state.md R65). The machine's
`exec` and `step` are these at `machineParams` (Laws/Ops.lean). -/

namespace Sys2Proof.Machine

/-- The meaning of an instruction at given parameters. -/
def execAt (P : Config.Params) (i : Instr) (s : State) : Host.Outcome State Fault Refusal :=
  match i with
  | .nop => runCmdOpAt P .nop s
  | .cfgDec => runCmdOpAt P .cfgDec s
  | .cfgFft => runCmdOpAt P .cfgFft s
  | .avgReset => runCmdOpAt P .avgReset s
  | .start => runCmdOpAt P .start s
  | .stop => runCmdOpAt P .stop s
  | .evtHalf => runCmdOpAt P .evtHalf s
  | .evtFull => runCmdOpAt P .evtFull s
  | .softReset => runCmdOpAt P .softReset s
  | .half => portEventAt P .A s
  | .full => portEventAt P .B s
  | .rd8 addr => .next (busReadAt P addr.toNat 1 s)
  | .rd16 addr => .next (busReadAt P addr.toNat 2 s)
  | .rd32 addr => .next (busReadAt P addr.toNat 4 s)
  | .wr8 addr data => busWriteAt P addr.toNat 1 data s
  | .wr16 addr data => busWriteAt P addr.toNat 2 data s
  | .wr32 addr data => busWriteAt P addr.toNat 4 data s

/-- One step of one agent at given parameters (00_scope.md R8, 10_state.md R65). -/
def stepAt (P : Config.Params) (s : State) : Host.Outcome State Fault Refusal := nextStepWith (execAt P) s

end Sys2Proof.Machine
end

