-- ==== Sys2Proof/Safety.lean ====
section
/-! DEFINITION. What counts as a safe run, and the invariants of the machine. -/

namespace Sys2Proof.Safety

open Sys2Proof Sys2Proof.Machine

/-- No overrun has happened (60_exceptions.md R510). -/
def noFault (s : State) : Bool := decide (s.fault = .none)

/-- A run has ended successfully (70_reset_and_hazards.md R610). -/
def ended (s : State) : Bool := s.inputs.isEmpty && !s.busy && noFault s

/-- An input is no command: neither a CMD word nor a 32-bit bus write to CMD (70_reset_and_hazards.md R607). -/
def notCommand : Input → Bool
  | .cmd _ => false
  | .bus desc _ => desc != 0x6000C
  | .evt _ | .cap _ _ | .commit => true

/-- The reserved bits of the read-write registers are 0 (45_host_commands.md R392), and ERRCODE holds a code of
60_exceptions.md R501. -/
structure RegistersOk (s : State) : Prop where
  decCfg : s.decCfg &&& decCfgMask = s.decCfg
  gain : s.gain &&& gainMask = s.gain
  fftCfg : s.fftCfg &&& fftCfgMask = s.fftCfg
  overlap : s.overlap &&& overlapMask = s.overlap
  errcode : s.errcode.toNat ≤ 12

/-- The latched configurations are ones the configuration commands accept at parameters P, the registers that show them agree,
RUNNING = 1 implies both are there and the selected channel exists, and BUSY = 1 implies RUNNING = 1
(10_state.md R45, R47, R50, R51, R56; 41_bitstream_handoff.md R254; 45_host_commands.md R375, R376). -/
structure ConfigOk (P : Config.Params) (s : State) : Prop where
  dc : ∀ dc, s.dc = some dc → ∃ w, decConfigOf P w = .ok dc
  fc : ∀ fc, s.fc = some fc → ∃ w ov, fftConfigOf P w ov = .ok fc
  halfBytes : s.halfBytes = (s.dc.map fun dc => BitVec.ofNat 32 dc.hbytes).getD 0
  nbins : s.nbins = (s.fc.map fun fc => BitVec.ofNat 32 fc.nb).getD 0
  wt : s.wt = (s.fc.map fun fc => windowTable fc.win fc.t).getD []
  running : s.running = true → ∃ dc fc, s.dc = some dc ∧ s.fc = some fc ∧ fc.chsel < dc.cout
  busy : s.busy = true → s.running = true

/-- A property of the live results and of the pending ones. -/
def ofResults (p : Results → Prop) (s : State) : Prop := p s.live ∧ ∀ f, s.inflight = some f → p f.pend

/-- RAM is in its canonical form (log 22). -/
structure MemoryOk (s : State) : Prop where
  pdm : pdmWf s.pdm = true
  ram : ofResults (fun r => ramWf r.ram = true) s

/-- AVG_WARM shows whether the averager has an update (10_state.md R34, R63). -/
def WarmOk (s : State) : Prop := ofResults (fun r => r.avgWarm = warm r.avgCount) s

/-- The frame buffer has T entries and holds fewer than T samples; while no FFT configuration is latched it is
absent (10_state.md R55, 42_overlap_save.md R287). -/
def FrameOk (s : State) : Prop :=
  ofResults (fun r => match s.fc with
    | none => r.fb = [] ∧ r.fill = 0
    | some fc => r.fb.length = fc.t ∧ r.fill < fc.t) s

/-- The filter memory of a channel has the sizes of 10_state.md R52 to R54, and HBPH is 0 between chunks
(40_decimation.md R211). -/
structure ChanOk (P : Config.Params) (dc : DecConfig) (m : ChanMem) : Prop where
  integ : m.integ.length = P.kCic dc.rp
  combd : m.combd.length = P.kCic dc.rp
  lines : ∀ line ∈ m.combd, line.length = P.mCic dc.rp
  fird : m.fird.length = (P.firCoef dc.rp).length - 1
  cascade : m.hb.isSome = dc.casc
  hb : ∀ h, m.hb = some h → h.hbd.length = P.hbCoef.length - 1 ∧ h.hbph = false

/-- Every output channel has its memory; while no decimator configuration is latched there is none
(10_state.md R52 to R54). -/
def FilterOk (P : Config.Params) (s : State) : Prop :=
  ofResults (fun r => match s.dc with
    | none => r.filt = []
    | some dc => r.filt.length = dc.cout ∧ ∀ m ∈ r.filt, ChanOk P dc m) s

/-- PCM_COUNT is 0 or the sample count of a chunk (10_state.md R46). -/
def PcmCountOk (s : State) : Prop :=
  ofResults (fun r => r.pcmCount = 0 ∨
    ∃ dc, s.dc = some dc ∧ r.pcmCount = BitVec.ofNat 32 (dc.cout * dc.nfin)) s

/-- A finite binary32 of absolute value at most 1, as WINDOW gives (43_window_fft.md R317). -/
def isUnit (v : F32) : Prop := f32IsFinite v = true ∧ |f32ToRat v| ≤ 1

/-- The averaged words of the bins are finite and without sign, so none is a NaN or an infinity, and below a power of
two that is at most 4·T·(1 + EPS_FFT), the bound T·(1 + EPS_FFT)·√2 with room for the rounding, which never passes a
power of two; every other AVG word is +0.0 (44_averager.md R350, R352). -/
def AvgOk (P : Config.Params) (s : State) : Prop :=
  ofResults (fun r => ∀ k < 4096,
    let w := readWord r.ram (avgBase + 4 * k)
    match s.fc with
    | none => w = 0
    | some fc =>
      if k < fc.nb then
        f32IsFinite w = true ∧ f32Sign w = false ∧
        ∃ e : Nat, ((f32ToRat w : Rat) : ℝ) ≤ 2 ^ e ∧ (2 : ℝ) ^ e ≤ 4 * fc.t * (1 + P.epsFft)
      else w = 0) s

end Sys2Proof.Safety
end

