-- ==== Sys2Proof/Certificates/Slice0/Obligations.lean ====
section
/-! DEFINITION. The statements for the provers. Where a statement gives the next state as an update of s, every field
not named in the update is unchanged: the equation is the frame. The field `resp` holds the response a bus transaction
gets (log 6); a command is a 32-bit write to CMD, which gets an OK response (45_host_commands.md R391). -/

namespace Sys2Proof.Rules

open Sys2Proof Sys2Proof.Machine

/-- The next state is t with an OK response, whose data, of a write, the spec leaves open
(45_host_commands.md R391). -/
def okNext (o : Host.Outcome State Fault Refusal) (t : State) : Prop :=
  ∃ d, o = .next { t with resp := some ⟨false, d⟩ }

/-- A command that only reports: ERRCODE is the code, and nothing else changes (45_host_commands.md R371, R391). -/
def reports (code : BitVec 8) (s t : State) : Prop := ∃ d, t = { s with errcode := code, resp := some ⟨false, d⟩ }

/-- What CFG_DEC makes of s at parameters P: the checks in order, then the latch (45_host_commands.md R370, R372,
R371; 30_encoding.md R137). -/
def cfgDec (P : Config.Params) (s t : State) : Prop :=
  let code := field s.decCfg 0 4
  let cin := field s.decCfg 4 4
  let cout := field s.decCfg 8 4
  let nout := field s.decCfg 16 12
  let r := [16, 24, 32, 48, 64, 80, 128, 160].getD code 0
  let rp := if code = 7 then 80 else r
  let hb := cin * rp * nout / 8
  let nfin := if code = 7 then nout / 2 else nout
  if s.inflight ≠ none ∨ s.running = true then reports 11 s t
  else if 7 < code then reports 1 s t
  else if cin < 1 ∨ P.cMax < cin ∨ cout < 1 ∨ cin < cout then reports 2 s t
  else if code = 7 ∧ P.hbPresent = false then reports 3 s t
  else if nout = 0 ∨ (code = 7 ∧ nout % 2 = 1) ∨ 4096 < hb ∨ 2048 < cout * nfin ∨
      (bitAt s.decCfg 13 = true ∧ hb % 2 = 1) then reports 4 s t
  else
    t.dc = some { code := code, r := r, rp := rp, casc := decide (code = 7), cin := cin, cout := cout,
                  bord := bitAt s.decCfg 12, endn := bitAt s.decCfg 13, nout := nout, nfin := nfin, hbytes := hb } ∧
    (t.live.filt.length = cout ∧ ∀ m ∈ t.live.filt,
      m.integ = List.replicate (P.kCic rp) 0 ∧
      m.combd = List.replicate (P.kCic rp) (List.replicate (P.mCic rp) 0) ∧
      m.fird = List.replicate ((P.firCoef rp).length - 1) 0 ∧
      m.hb = if code = 7 then some ⟨List.replicate (P.hbCoef.length - 1) 0, false⟩ else none) ∧
    (∀ a, t.byteAt a = if 0x1000 ≤ a ∧ a < 0x2000 then 0 else s.byteAt a) ∧
    (∃ d, t.resp = some ⟨false, d⟩) ∧
    t = { s with
      dc := t.dc, halfBytes := BitVec.ofNat 32 hb, errcode := 0, resp := t.resp,
      live := { s.live with filt := t.live.filt, ram := t.live.ram, pcmCount := 0, chunkCount := 0 } }

/-- What CFG_FFT makes of s at parameters P (45_host_commands.md R370, R373, R371; 30_encoding.md R138, R139). -/
def cfgFft (P : Config.Params) (s t : State) : Prop :=
  let lt := field s.fftCfg 0 4
  let wcode := field s.fftCfg 4 3
  let kcode := field s.fftCfg 8 2
  let T := 2 ^ lt
  let ovl := s.overlap.toNat % 65536
  let rret := (ovl * T + 32768) / 65536
  let win := [WindowKind.rectangular, .hamming, .hann, .blackmanHarris, .tukey25, .tukey75].getD wcode .rectangular
  if s.inflight ≠ none ∨ s.running = true then reports 11 s t
  else if lt < 1 ∨ P.log2tMax < lt then reports 5 s t
  else if 5 < wcode then reports 7 s t
  else if 2 < kcode then reports 8 s t
  else if T ≤ rret then reports 6 s t
  else
    t.fc = some { lt := lt, t := T, nb := T / 2 + 1, win := win,
                  outk := [OutKind.complex, .magnitude, .phase].getD kcode .complex,
                  chsel := field s.fftCfg 10 4, ovl := ovl, rret := rret } ∧
    t.wt = (List.range T).map (fun n => windowEntry win n (T - 1)) ∧
    t.live.fb = List.replicate T 0 ∧
    (∀ a, t.byteAt a = if 0x4000 ≤ a ∧ a < 0x10000 then 0 else s.byteAt a) ∧
    (∃ d, t.resp = some ⟨false, d⟩) ∧
    t = { s with
      fc := t.fc, wt := t.wt, nbins := BitVec.ofNat 32 (T / 2 + 1), errcode := 0, resp := t.resp,
      live := { s.live with
        fb := t.live.fb, fill := 0, ram := t.live.ram, avgCount := 0, frameCount := 0, avgWarm := false } }

/-- The chunk a region holds: its bytes in address order (41_bitstream_handoff.md R254, 20_memory.md R97). -/
def regionBytes (dc : DecConfig) (h : BufHalf) (s : State) : List Byte :=
  (List.range dc.hbytes).map fun j => s.byteAt (0x2000 + (if h = .A then 0 else dc.hbytes) + j)

/-- The in-flight chunk ACCEPT makes of region h (41_bitstream_handoff.md R254, 40_decimation.md R209). -/
def accepted (dc : DecConfig) (fc : FftConfig) (h : BufHalf) (s : State) : InFlight :=
  ⟨h, processChunk machineParams dc fc s.wt (regionBytes dc h s) (s.gain.setWidth 8).toInt s.live⟩

/-- The widths the window takes at an offset (20_memory.md R91). -/
def permitted (a n : Nat) : Prop :=
  (a < 0x1000 ∧ n = 4) ∨ (0x1000 ≤ a ∧ a < 0x2000 ∧ (n = 2 ∨ n = 4)) ∨ (0x2000 ≤ a ∧ a < 0x4000) ∨
    (0x4000 ≤ a ∧ n = 4)

/-- The host reads, each with its width in bytes. -/
def reads (a : Offset) : List (Nat × Instr) := [(1, .rd8 a), (2, .rd16 a), (4, .rd32 a)]

/-- The host writes, each with its width in bytes. -/
def writes (a : Offset) (v : Word) : List (Nat × Instr) := [(1, .wr8 a v), (2, .wr16 a v), (4, .wr32 a v)]

/-- Bytes [j, j + n) of PDM_BUF meet the in-flight chunk's region (41_bitstream_handoff.md R258). -/
def meetsInFlight (s : State) (j n : Nat) : Prop :=
  ∃ f dc i, s.inflight = some f ∧ s.dc = some dc ∧ j ≤ i ∧ i < j + n ∧
    (if f.breg = .A then i < dc.hbytes else dc.hbytes ≤ i ∧ i < 2 * dc.hbytes)

/-- PARAMS: LOG2T_MAX in bits 3:0, C_MAX in 7:4, HB_PRESENT in 8 (10_state.md R48). -/
def paramsValue (P : Config.Params) : Word :=
  BitVec.ofNat 32 (P.log2tMax + 2 ^ 4 * P.cMax + 2 ^ 8 * (if P.hbPresent then 1 else 0))

/-- The integer nearest to e, ties away from zero, brought into the range of an s16 (00_scope.md R15). -/
def roundedSample (e : Rat) : Int :=
  min 32767 (max (-32768) ((if e < 0 then -1 else if e = 0 then 0 else 1) * ⌊|e| + 1 / 2⌋))

/-- The codes a command can write (60_exceptions.md R502). -/
def codes : CmdOp → List (BitVec 8)
  | .nop | .softReset => [0]
  | .cfgDec => [0, 11, 1, 2, 3, 4]
  | .cfgFft => [0, 11, 5, 7, 8, 6]
  | .avgReset | .stop | .evtHalf | .evtFull => [0, 11]
  | .start => [0, 11, 9, 10]

end Sys2Proof.Rules

open Sys2Proof Sys2Proof.Machine Sys2Proof.Safety Sys2Proof.Rules

/-! ### Commands -/

/-- 45_host_commands.md R380. -/
def Obligations.NopWritesErrcodeZeroOnly : Prop :=
  ∀ s : State, okNext (exec .nop s) { s with errcode := 0 }

/-- 45_host_commands.md R381, 30_encoding.md R133: a reserved CMD word, written over the bus or as a step. -/
def Obligations.ReservedCommandWordIsBadCommand : Prop :=
  ∀ (s : State) (w : Word) (rest : List Input), w.toNat / 2 ^ 8 ≠ 0 ∨ 9 ≤ w.toNat % 2 ^ 8 →
    okNext (exec (.wr32 0x00C w) s) { s with errcode := 12 } ∧
    (s.fault = .none → s.inputs = .cmd w :: rest → okNext (step s) { s with inputs := rest, errcode := 12 })

/-- 45_host_commands.md R372: the completion, the result, the frame and every error of CFG_DEC. -/
def Obligations.CfgDecChecksThenLatches : Prop :=
  (∀ s : State, ∃ t, exec .cfgDec s = .next t ∧ cfgDec machineParams s t) ∧
    ∀ (P : Config.Params) (s : State), cfgDec P s (cfgDecAt P s)

/-- 45_host_commands.md R373: the completion, the result, the frame and every error of CFG_FFT. -/
def Obligations.CfgFftChecksThenLatches : Prop :=
  (∀ s : State, ∃ t, exec .cfgFft s = .next t ∧ cfgFft machineParams s t) ∧
    ∀ (P : Config.Params) (s : State), cfgFft P s (cfgFftAt P s)

/-- 45_host_commands.md R374, 44_averager.md R353. -/
def Obligations.AvgResetEmptiesTheAverager : Prop :=
  ∀ s : State,
    (s.inflight ≠ none → okNext (exec .avgReset s) { s with errcode := 11 }) ∧
    (s.inflight = none → ∃ ram,
      let t := { s with errcode := 0, live := { s.live with ram := ram, avgCount := 0, avgWarm := false } }
      okNext (exec .avgReset s) t ∧
      ∀ a, t.byteAt a = if 0x4000 ≤ a ∧ a < 0x8000 then 0 else s.byteAt a)

/-- 45_host_commands.md R375. -/
def Obligations.StartChecksThenRuns : Prop :=
  ∀ s : State,
    (s.inflight ≠ none ∨ s.running = true →
      okNext (exec .start s) { s with errcode := 11 }) ∧
    (s.inflight = none → s.running = false → s.dc = none ∨ s.fc = none →
      okNext (exec .start s) { s with errcode := 9 }) ∧
    (∀ dc fc, s.inflight = none → s.running = false → s.dc = some dc → s.fc = some fc → dc.cout ≤ fc.chsel →
      okNext (exec .start s) { s with errcode := 10 }) ∧
    (∀ dc fc, s.inflight = none → s.running = false → s.dc = some dc → s.fc = some fc → fc.chsel < dc.cout →
      okNext (exec .start s) { s with running := true, errcode := 0 })

/-- 45_host_commands.md R376. -/
def Obligations.StopClearsRunning : Prop :=
  ∀ s : State,
    (s.inflight = none → okNext (exec .stop s) { s with running := false, errcode := 0 }) ∧
    (s.inflight ≠ none → okNext (exec .stop s) { s with errcode := 11 })

/-- 45_host_commands.md R377, R378: a host-injected event is refused while busy or stopped, and otherwise accepts its
region; the live results keep their values. A latched configuration has H ≤ 4096 (R372; ConfigOk). -/
def Obligations.HostEventsAcceptTheirRegion : Prop :=
  ∀ (s : State) (h : BufHalf),
    let i : Instr := if h = .A then .evtHalf else .evtFull
    (s.inflight ≠ none ∨ s.running = false → okNext (exec i s) { s with errcode := 11 }) ∧
    ∀ dc fc, s.inflight = none → s.running = true → s.dc = some dc → s.fc = some fc → dc.hbytes ≤ 4096 →
      okNext (exec i s) { s with inflight := some (accepted dc fc h s), errcode := 0 }

/-- 45_host_commands.md R379, 70_reset_and_hazards.md R601. That the agents' inputs still to come and the count of free
choices stay is the model's choice (log 26). -/
def Obligations.SoftResetKeepsOnlyPdmBuf : Prop :=
  ∀ s : State, okNext (exec .softReset s)
    { State.reset with pdm := s.pdm, fault := s.fault, draws := s.draws, inputs := s.inputs }

/-- 60_exceptions.md R502: the codes each command and each reserved word can write, and that nothing else writes
ERRCODE. -/
def Obligations.CommandsWriteOnlyTheirCodes : Prop :=
  (∀ (op : CmdOp) (s t : State), exec op.toInstr s = .next t → t.errcode ∈ codes op) ∧
    (∀ (w : Word) (s t : State), (∀ i, decodeCmd w ≠ .ok i) → exec (.wr32 0x00C w) s = .next t → t.errcode = 12) ∧
    (∀ (i : Instr) (s t : State), exec i s = .next t → i.form ≠ .cmd → (∀ v, i ≠ .wr32 0x00C v) →
      t.errcode = s.errcode) ∧
    ∀ (s t : State) (i : Input) (rest : List Input), s.inputs = i :: rest → step s = .next t →
      (i = .commit ∨ (∃ off b, i = .cap off b)) → t.errcode = s.errcode

/-- 30_encoding.md R131, R132. -/
def Obligations.CmdWordsAreExactlyTheNineOpcodes : Prop :=
  ∀ (w : Word) (i : Instr), decodeCmd w = .ok i ↔
    ∃ k : Nat, w = BitVec.ofNat 32 k ∧
      [Instr.nop, .cfgDec, .cfgFft, .avgReset, .start, .stop, .evtHalf, .evtFull, .softReset][k]? = some i

/-! ### Events and the chunk cycle -/

/-- 41_bitstream_handoff.md R253: the three outcomes of a port event. A latched configuration has H ≤ 4096
(45_host_commands.md R372; ConfigOk). -/
def Obligations.PortEventsFollowTheOutcomeTable : Prop :=
  ∀ (s : State) (h : BufHalf),
    let i : Instr := if h = .A then .half else .full
    (s.inflight = none → s.running = false → exec i s = .next s) ∧
    (∀ dc fc, s.inflight = none → s.running = true → s.dc = some dc → s.fc = some fc → dc.hbytes ≤ 4096 →
      exec i s = .next { s with inflight := some (accepted dc fc h s) }) ∧
    (s.inflight ≠ none → exec i s = .next { s with fault := .overrun })

/-- 41_bitstream_handoff.md R255, 70_reset_and_hazards.md R608: a commit publishes the pending results; with no input
left the pipeline takes it by itself. That it does so in the very next step is the model's choice (log 2): R608 bounds no
delay. -/
def Obligations.CommitPublishesThePendingResults : Prop :=
  ∀ (s : State) (f : InFlight), s.fault = .none → s.inflight = some f →
    (∀ rest, s.inputs = .commit :: rest →
      step s = .next { s with inputs := rest, live := f.pend, inflight := none }) ∧
    (s.inputs = [] → step s = .next { s with live := f.pend, inflight := none })

/-- 41_bitstream_handoff.md R258, 60_exceptions.md R510: a host or capture write that meets the in-flight region is
not performed and sets FAULT, and nothing else changes. -/
def Obligations.WriteIntoInFlightRegionOverruns : Prop :=
  (∀ (s : State) (a : Offset) (v : Word) (n : Nat) (i : Instr), (n, i) ∈ writes a v →
    0x2000 ≤ a.toNat → a.toNat < 0x4000 → a.toNat % n = 0 → meetsInFlight s (a.toNat - 0x2000) n →
    exec i s = .next { s with fault := .overrun }) ∧
  ∀ (s : State) (off : BitVec 13) (b : Byte) (rest : List Input), s.fault = .none → s.inputs = .cap off b :: rest →
    meetsInFlight s off.toNat 1 → step s = .next { s with inputs := rest, fault := .overrun }

/-- 41_bitstream_handoff.md R254, 10_state.md R42, R43, R46, 42_overlap_save.md R285, R288: what an accepted chunk counts,
and that what it feeds is its own samples of channel FC.CHSEL: the frame buffer, FILL, AVG_COUNT, FRAME_COUNT, AVG and
SPEC are those of that FEED. -/
def Obligations.ChunkCountsItselfItsSamplesAndItsFrames : Prop :=
  ∀ (P : Config.Params) (dc : DecConfig) (fc : FftConfig) (wt : List F32) (bs : List Byte) (gdb : Int) (r : Results)
    (w : Word), decConfigOf P w = .ok dc → fc.chsel < dc.cout → fc.rret < fc.t → r.fill < fc.t →
    r.filt.length = dc.cout → (∀ m ∈ r.filt, m.hb.isSome = dc.casc ∧ ∀ h, m.hb = some h → h.hbph = false) →
    let r' := processChunk P dc fc wt bs gdb r
    let fed := feed P fc wt ((decimateChunk P dc r.filt bs gdb).2.getD fc.chsel []) r
    (r'.fb = fed.fb ∧ r'.fill = fed.fill ∧ r'.avgCount = fed.avgCount ∧ r'.frameCount = fed.frameCount ∧
      (ramWf r.ram = true → ∀ a, 0x4000 ≤ a → ramByte r'.ram a = ramByte fed.ram a)) ∧
    r'.chunkCount = r.chunkCount + 1 ∧
    r'.pcmCount = BitVec.ofNat 32 (dc.cout * dc.nfin) ∧
    r'.filt = (decimateChunk P dc r.filt bs gdb).1 ∧
    (r'.avgWarm = true ↔ r'.avgCount ≠ 0) ∧
    r'.frameCount = r.frameCount + BitVec.ofNat 32 (if r.fill + dc.nfin < fc.t then 0
      else 1 + (r.fill + dc.nfin - fc.t) / (fc.t - fc.rret))

/-! ### Bus transactions -/

/-- 10_state.md R33 to R48, 20_memory.md R98, R105: what a read of each control register answers, in any state for
those that are no result word, and while no chunk is in flight for the counters that are. With the values of
00_scope.md R9, PARAMS reads 0x0000014C. -/
def Obligations.ControlReadsAnswerTheirRegister : Prop :=
  ∀ s : State,
    let answers (a : Offset) (v : Word) : Prop := exec (.rd32 a) s = .next { s with resp := some ⟨false, v⟩ }
    (answers 0x000 0x50444D01 ∧ answers 0x008 (s.errcode.setWidth 32) ∧ answers 0x00C 0 ∧
      answers 0x010 s.decCfg ∧ answers 0x014 s.gain ∧ answers 0x018 s.fftCfg ∧ answers 0x01C s.overlap ∧
      answers 0x020 s.fsHz ∧ answers 0x030 s.halfBytes ∧ answers 0x038 s.nbins ∧
      answers 0x03C (paramsValue machineParams) ∧
      ∀ a : Offset, 0x040 ≤ a.toNat → a.toNat < 0x1000 → a.toNat % 4 = 0 → answers a 0) ∧
    (machineParams.cMax = 4 → machineParams.log2tMax = 12 → machineParams.hbPresent = true →
      answers 0x03C 0x0000014C) ∧
    (s.inflight = none → answers 0x024 s.live.chunkCount ∧ answers 0x028 s.live.frameCount ∧
      answers 0x02C s.live.avgCount ∧ answers 0x034 s.live.pcmCount)

/-- 10_state.md R34, 20_memory.md R101, R105: the bits of STATUS. While a chunk is in flight AVG_WARM is the live or the
pending one and every other bit is live. -/
def Obligations.StatusReadShowsTheFlags : Prop :=
  ∀ s : State, ∃ (v : Word) (draws : Nat),
    exec (.rd32 0x004) s = .next { s with resp := some ⟨false, v⟩, draws := draws } ∧
    v.getLsbD 0 = s.dc.isSome ∧ v.getLsbD 1 = s.fc.isSome ∧ v.getLsbD 2 = s.running ∧
    v.getLsbD 3 = s.inflight.isSome ∧ (∀ k, 5 ≤ k → v.getLsbD k = false) ∧
    (s.inflight = none → v.getLsbD 4 = s.live.avgWarm ∧ draws = s.draws) ∧
    ∀ f, s.inflight = some f → (v.getLsbD 4 = s.live.avgWarm ∨ v.getLsbD 4 = f.pend.avgWarm) ∧ draws = s.draws + 1

/-- 45_host_commands.md R390, 20_memory.md R92: a permitted read of RAM answers the bytes it covers, the first least
significant; PDM_BUF is read so in any state, the result RAMs while no chunk is in flight. -/
def Obligations.RamReadsAnswerTheirBytes : Prop :=
  ∀ (s : State) (a : Offset) (n : Nat) (i : Instr), (n, i) ∈ reads a → 0x1000 ≤ a.toNat → a.toNat % n = 0 →
    permitted a.toNat n → s.inflight = none ∨ (0x2000 ≤ a.toNat ∧ a.toNat < 0x4000) →
    exec i s = .next { s with resp := some ⟨false,
      BitVec.ofNat 32 (∑ k ∈ Finset.range n, (s.byteAt (a.toNat + k)).toNat * 2 ^ (8 * k))⟩ }

/-- 20_memory.md R105: a result word read while a chunk is in flight is the live value or the pending one. -/
def Obligations.BusyReadsOfResultWordsAreOldOrNew : Prop :=
  ∀ (s : State) (f : InFlight) (a : Offset) (n : Nat) (i : Instr), (n, i) ∈ reads a → s.inflight = some f →
    a.toNat % n = 0 → permitted a.toNat n →
    (a.toNat ∈ [0x004, 0x024, 0x028, 0x02C, 0x034] ∨ (0x1000 ≤ a.toNat ∧ a.toNat < 0x2000) ∨ 0x4000 ≤ a.toNat) →
    ∃ r, (r = s.live ∨ r = f.pend) ∧
      exec i s = .next { s with draws := s.draws + 1, resp := some ⟨false, readData machineParams s r a.toNat n⟩ } ∧
      (0x1000 ≤ a.toNat → readData machineParams s r a.toNat n =
        BitVec.ofNat 32 (∑ k ∈ Finset.range n, (ramByte r.ram (a.toNat + k)).toNat * 2 ^ (8 * k))) ∧
      (a.toNat = 0x024 → readData machineParams s r a.toNat n = r.chunkCount) ∧
      (a.toNat = 0x028 → readData machineParams s r a.toNat n = r.frameCount) ∧
      (a.toNat = 0x02C → readData machineParams s r a.toNat n = r.avgCount) ∧
      (a.toNat = 0x034 → readData machineParams s r a.toNat n = r.pcmCount) ∧
      (a.toNat = 0x004 → (readData machineParams s r a.toNat n).getLsbD 4 = r.avgWarm ∧
        (readData machineParams s r a.toNat n).getLsbD 3 = true ∧
        (readData machineParams s r a.toNat n).getLsbD 2 = s.running ∧
        (readData machineParams s r a.toNat n).getLsbD 1 = s.fc.isSome ∧
        (readData machineParams s r a.toNat n).getLsbD 0 = s.dc.isSome ∧
        ∀ k, 5 ≤ k → (readData machineParams s r a.toNat n).getLsbD k = false)

/-- 20_memory.md R99, 45_host_commands.md R390: a read always answers, and changes nothing but the answer and the
model's count of free choices. -/
def Obligations.ReadsHaveNoSideEffect : Prop :=
  ∀ (s : State) (a : Offset) (n : Nat) (i : Instr), (n, i) ∈ reads a →
    ∃ resp draws, exec i s = .next { s with resp := some resp, draws := draws }

/-- 60_exceptions.md R504, 20_memory.md R95, R96: a misaligned access, a width the region does not take, and SIZE = 0b11
get an error response and change nothing; a refused read gets data 0. -/
def Obligations.RefusedTransactionsChangeNothing : Prop :=
  (∀ (s : State) (a : Offset) (v : Word) (n : Nat) (i : Instr), (n, i) ∈ reads a ∨ (n, i) ∈ writes a v →
    a.toNat % n ≠ 0 ∨ ¬ permitted a.toNat n →
    ∃ d, exec i s = .next { s with resp := some ⟨true, d⟩ } ∧ ((n, i) ∈ reads a → d = 0)) ∧
  ∀ (s : State) (desc : BitVec 19) (v : Word) (rest : List Input), s.fault = .none → s.inputs = .bus desc v :: rest →
    desc.toNat / 2 ^ 16 % 4 = 3 →
    ∃ d, step s = .next { s with inputs := rest, resp := some ⟨true, d⟩ } ∧ (desc.toNat < 2 ^ 18 → d = 0)

/-- 45_host_commands.md R392: each read-write register stores the writable bits, and reads them back. -/
def Obligations.RegisterWritesStoreTheWritableBits : Prop :=
  ∀ (s : State) (v : Word) (a : Offset) (m : Word) (t : State),
    (a, m, t) ∈ [(0x010, 0x0FFF3FFF, { s with decCfg := v &&& 0x0FFF3FFF }),
      (0x014, 0x000000FF, { s with gain := v &&& 0x000000FF }),
      (0x018, 0x00003F7F, { s with fftCfg := v &&& 0x00003F7F }),
      (0x01C, 0x0000FFFF, { s with overlap := v &&& 0x0000FFFF }),
      (0x020, 0xFFFFFFFF, { s with fsHz := v &&& 0xFFFFFFFF })] →
    okNext (exec (.wr32 a v) s) t ∧ exec (.rd32 a) t = .next { t with resp := some ⟨false, v &&& m⟩ }

/-- 20_memory.md R96, R98: a permitted write to a read-only register, a reserved offset or a read-only RAM gets an OK
response and is ignored. -/
def Obligations.WritesToReadOnlyLocationsAreIgnored : Prop :=
  ∀ (s : State) (a : Offset) (v : Word) (n : Nat) (i : Instr), (n, i) ∈ writes a v → a.toNat % n = 0 →
    permitted a.toNat n →
    (a.toNat ∈ [0x000, 0x004, 0x008, 0x024, 0x028, 0x02C, 0x030, 0x034, 0x038, 0x03C] ∨
      (0x040 ≤ a.toNat ∧ a.toNat < 0x2000) ∨ 0x4000 ≤ a.toNat) →
    okNext (exec i s) s

/-- 45_host_commands.md R391, 20_memory.md R92, 41_bitstream_handoff.md R250, R258: a host or capture write to PDM_BUF
that does not meet the in-flight region stores its bytes, the least significant first, and no other byte changes. -/
def Obligations.PdmWritesStoreTheirBytes : Prop :=
  (∀ (s : State) (a : Offset) (v : Word) (n : Nat) (i : Instr), (n, i) ∈ writes a v →
    0x2000 ≤ a.toNat → a.toNat < 0x4000 → a.toNat % n = 0 → ¬ meetsInFlight s (a.toNat - 0x2000) n →
    ∃ pdm, okNext (exec i s) { s with pdm := pdm } ∧
      ∀ b, State.byteAt { s with pdm := pdm } b = if a.toNat ≤ b ∧ b < a.toNat + n then
        BitVec.ofNat 8 (v.toNat / 2 ^ (8 * (b - a.toNat))) else s.byteAt b) ∧
  ∀ (s : State) (off : BitVec 13) (b : Byte) (rest : List Input), s.fault = .none → s.inputs = .cap off b :: rest →
    ¬ meetsInFlight s off.toNat 1 →
    ∃ t, step s = .next t ∧
      (∀ a, t.byteAt a = if a = 0x2000 + off.toNat then b else s.byteAt a) ∧
      t = { s with inputs := rest, pdm := t.pdm }

/-- 10_state.md R36, 45_host_commands.md R370: a 32-bit write to CMD is the command its word encodes, and a command on
the bus and one given as a word run alike. -/
def Obligations.CmdWriteIsTheCommand : Prop :=
  ∀ (s : State) (w : Word) (i : Instr) (rest : List Input), decodeCmd w = .ok i →
    exec (.wr32 0x00C w) s = exec i s ∧
    (s.fault = .none → s.inputs = .bus 0x6000C w :: rest → step s = exec i { s with inputs := rest }) ∧
    (s.fault = .none → s.inputs = .cmd w :: rest → step s = exec i { s with inputs := rest })

/-! ### Steps, decoding, reset -/

/-- 00_scope.md R8, 30_encoding.md R130: with no fault, a step takes the next input off the list and runs the
instruction its bits decode to. -/
def Obligations.StepRunsTheDecodedInstruction : Prop :=
  ∀ (s : State) (i : Input) (rest : List Input) (ins : Instr), s.fault = .none → s.inputs = i :: rest →
    decodeInput i = some (.ok ins) → step s = exec ins { s with inputs := rest }

/-- 30_encoding.md R134, 41_bitstream_handoff.md R260: EVT 0b00 and 0b11 change nothing; 20_memory.md R103: with no input
left and no chunk in flight nothing happens (log 2); 60_exceptions.md R510: no step is taken past an overrun (log 7). -/
def Obligations.StepsWithoutAnEventChangeNothing : Prop :=
  (∀ (s : State) (rest : List Input), s.fault = .none →
    (s.inputs = .evt 0b00 :: rest → step s = .next { s with inputs := rest }) ∧
    (s.inputs = .evt 0b11 :: rest → step s = .next { s with inputs := rest }) ∧
    (s.inputs = [] → s.inflight = none → step s = .next s)) ∧
  ∀ s : State, s.fault = .overrun → step s = .fault .overrun

/-- 30_encoding.md R131 to R135: decoding an encoded well-formed instruction gives it back, and what the decoder
answers is well-formed and of the form it was given. -/
def Obligations.DecodeInvertsEncode : Prop :=
  (∀ i : Instr, i.wellFormed = true → decode i.form (encode i) = .ok i) ∧
    ∀ (f : Form) (bs : List Byte) (i : Instr), decode f bs = .ok i → i.wellFormed = true ∧ i.form = f

/-- 30_encoding.md R132, R134, R135, R142 (95_test_vectors.md V-ENC-1, V-ENC-9, V-ENC-10). -/
def Obligations.SomeWordsDecodeAsTheSpecSays : Prop :=
  decodeCmd 0x00000002 = .ok .cfgFft ∧ decodeEvt 0b10 = .ok .full ∧
    decodeBus 0x20004 0 = .ok (.rd32 0x0004) ∧ decodeBus 0x6000C 0x00000004 = .ok (.wr32 0x000C 0x00000004) ∧
    decodeBus 0x11002 0 = .ok (.rd16 0x1002) ∧ decodeBus 0x42005 0xFFFFFF5A = .ok (.wr8 0x2005 0x5A)

/-- 70_reset_and_hazards.md R600: the power-on state. Each byte of PDM_BUF is a free value (log 4). What R600 calls absent
is held as none or [], and FILL as 0, the model's form (log 23). -/
def Obligations.ResetIsThePowerOnState : Prop :=
  let s := State.reset
  (∀ a : Offset, a.toNat < 0x1000 → a.toNat % 4 = 0 → exec (.rd32 a) s = .next { s with resp := some ⟨false,
      if a = 0x000 then 0x50444D01 else if a = 0x03C then paramsValue machineParams else 0⟩ }) ∧
    (∀ a, 0x1000 ≤ a → a < 0x10000 → s.byteAt a =
      if 0x2000 ≤ a ∧ a < 0x4000 then Config.powerOnByte (a - 0x2000) else 0) ∧
    s.dc = none ∧ s.fc = none ∧ s.live.filt = [] ∧ s.live.fb = [] ∧ s.live.fill = 0 ∧ s.wt = [] ∧
    s.inflight = none ∧ s.fault = .none

/-! ### Invariants -/

/-- The reset state meets every invariant. -/
def Obligations.ResetMeetsTheInvariants : Prop :=
  RegistersOk State.reset ∧ ConfigOk machineParams State.reset ∧ MemoryOk State.reset ∧ WarmOk State.reset ∧
    FrameOk State.reset ∧ FilterOk machineParams State.reset ∧ PcmCountOk State.reset ∧ ∀ P, AvgOk P State.reset

/-- 60_exceptions.md R500, R506: from every state with legal configurations and no overrun a step answers a next
state, whatever the input and the data. -/
def Obligations.StepAnswersWhileNoFault : Prop :=
  ∀ s : State, ConfigOk machineParams s → s.fault = .none → ∃ t, step s = .next t

/-- 45_host_commands.md R392, 60_exceptions.md R501. -/
def Obligations.StepKeepsReservedBitsZero : Prop :=
  ∀ s t : State, RegistersOk s → step s = .next t → RegistersOk t

/-- 10_state.md R45, R47, R50, R51, 41_bitstream_handoff.md R254. -/
def Obligations.StepKeepsConfigurationsLegal : Prop :=
  ∀ s t : State, ConfigOk machineParams s → step s = .next t → ConfigOk machineParams t

/-- The RAM keeps its canonical form (20_memory.md R91; log 22). -/
def Obligations.StepKeepsMemoryCanonical : Prop :=
  ∀ s t : State, ConfigOk machineParams s → MemoryOk s → step s = .next t → MemoryOk t

/-- 10_state.md R34, R63. -/
def Obligations.StepKeepsAvgWarmTrue : Prop :=
  ∀ s t : State, WarmOk s → step s = .next t → WarmOk t

/-- 10_state.md R55, 42_overlap_save.md R287. -/
def Obligations.StepKeepsFrameBufferBounds : Prop :=
  ∀ s t : State, ConfigOk machineParams s → FrameOk s → step s = .next t → FrameOk t

/-- 10_state.md R52 to R54, 40_decimation.md R211. -/
def Obligations.StepKeepsFilterMemoryShape : Prop :=
  ∀ s t : State, ConfigOk machineParams s → FilterOk machineParams s → step s = .next t → FilterOk machineParams t

/-- 10_state.md R46. -/
def Obligations.StepKeepsPcmCount : Prop :=
  ∀ s t : State, ConfigOk machineParams s → PcmCountOk s → step s = .next t → PcmCountOk t

/-- 44_averager.md R352, 43_window_fft.md R321: for EPS_FFT up to 2^40, in every instance of the block every averaged word
stays finite, without sign and bounded, so no update gives a NaN or an infinity; 44_averager.md R350, R353: every
other AVG word is +0.0. The machine's step is stepAt machineParams. -/
def Obligations.StepKeepsAveragesFinite : Prop :=
  ∀ (P : Config.Params) (s t : State), ParamsOk P → P.epsFft ≤ 2 ^ 40 → ConfigOk P s → MemoryOk s → FrameOk s →
    AvgOk P s → stepAt P s = .next t → AvgOk P t

/-- 70_reset_and_hazards.md R607, 20_memory.md R106: with no command in between, two idle states with the same
CHUNK_COUNT, fewer than 2^32 steps apart, have the same results, and so has every state between them. -/
def Obligations.EqualChunkCountsMeanAnUntornSnapshot : Prop :=
  ∀ (k : Nat) (s t : State), k < 2 ^ 32 → s.inflight = none → (∀ i ∈ s.inputs.take k, notCommand i = true) →
    Host.Core.run Sys2Proof.core k s = .next t → t.inflight = none → t.live.chunkCount = s.live.chunkCount →
    t.live = s.live ∧
      ∀ j ≤ k, ∃ u : State, Host.Core.run Sys2Proof.core j s = .next u ∧ u.inflight = none ∧ u.live = s.live

/-! ### Decimation -/

/-- 40_decimation.md R201 to R205, R210, R216, R219: which bits of the region a channel's samples are made of, group
after group, and how many samples they give. -/
def Obligations.ChannelSamplesComeFromTheirBits : Prop :=
  ∀ (P : Config.Params) (w : Word) (dc : DecConfig), decConfigOf P w = .ok dc →
    dc.rp * dc.nout = dc.r * dc.nfin ∧
    (∀ (bs : List Byte) (c : Nat) (gdb : Int) (m : ChanMem), bs.length = dc.hbytes → c < dc.cin →
      m.hb.isSome = dc.casc → (∀ h, m.hb = some h → h.hbph = false) →
      let e := endianPrep dc.endn bs
      let bits := bitsOf dc.bord (chBytes dc e c)
      (∀ j < dc.hbytes, e[j]? = bs[if dc.endn then (if j % 2 = 0 then j + 1 else j - 1) else j]?) ∧
      bits.length = dc.rp * dc.nout ∧
      (∀ i < dc.rp * dc.nout, bits[i]? =
        e[c + dc.cin * (i / 8)]?.map fun b => b.getLsbD (if dc.bord then i % 8 else 7 - i % 8)) ∧
      ∃ (mem : Nat → ChanMem) (p : Nat → S16), mem 0 = m ∧
        (∀ n < dc.nout, (mem (n + 1), p n) =
          primarySample P dc.rp gdb (mem n) ((List.range dc.rp).map fun i => bits.getD (n * dc.rp + i) false)) ∧
        let ps := (List.range dc.nout).map p
        let out := decimateChannel P dc gdb e c m
        out.2.length = dc.nfin ∧
        (dc.casc = false → out = (mem dc.nout, ps)) ∧
        ∀ h, m.hb = some h →
          out = ({ mem dc.nout with hb := some (halfband P.hbCoef h ps).1 }, (halfband P.hbCoef h ps).2)) ∧
    ∀ (filt : List ChanMem) (bs : List Byte) (gdb : Int) (c : Nat),
      let one := fun m => decimateChannel P dc gdb (endianPrep dc.endn bs) c m
      (decimateChunk P dc filt bs gdb).1[c]? = filt[c]?.map (fun m => (one m).1) ∧
      (decimateChunk P dc filt bs gdb).2[c]? = filt[c]?.map (fun m => (one m).2)

/-- 40_decimation.md R218: bytes of the unused input channels change nothing. -/
def Obligations.UnusedChannelsAreReadByNothing : Prop :=
  ∀ (P : Config.Params) (dc : DecConfig) (filt : List ChanMem) (gdb : Int) (bs bs' : List Byte),
    dc.cout ≤ dc.cin → filt.length ≤ dc.cout →
    (∀ j, j % dc.cin < dc.cout → (endianPrep dc.endn bs)[j]? = (endianPrep dc.endn bs')[j]?) →
    decimateChunk P dc filt bs gdb = decimateChunk P dc filt bs' gdb

/-- 40_decimation.md R215, 20_memory.md R92: where the samples of a chunk stand in the pending PCM_OUT. -/
def Obligations.PcmOutIsInterleavedByChannel : Prop :=
  ∀ (P : Config.Params) (dc : DecConfig) (fc : FftConfig) (wt : List F32) (bs : List Byte) (gdb : Int) (r : Results),
    ramWf r.ram = true → dc.cout * dc.nfin ≤ 2048 →
    let r' := processChunk P dc fc wt bs gdb r
    (∀ n c, n < dc.nfin → c < dc.cout →
      readHalf r'.ram (0x1000 + 2 * (n * dc.cout + c)) = ((decimateChunk P dc r.filt bs gdb).2.getD c []).getD n 0) ∧
    (∀ i, dc.cout * dc.nfin ≤ i → i < 2048 → readHalf r'.ram (0x1000 + 2 * i) = readHalf r.ram (0x1000 + 2 * i)) ∧
    r'.pcmCount = BitVec.ofNat 32 (dc.cout * dc.nfin)

/-- 40_decimation.md R208, 00_scope.md R15: gain, rounding with ties away from zero, saturation. -/
def Obligations.ScaleRoundsThenSaturates : Prop :=
  ∀ (P : Config.Params) (v : Rat) (gdb : Int),
    (scale P v gdb).toInt = roundedSample (32768 * P.gainLin gdb * v)

/-- 40_decimation.md R206, R207, R210, R211, R220: the integrators, combs and FIR of a primary sample and the half-band
over a chunk's primary samples, by their equations. I t k is INTEG[k + 1] after t bits, X k the value the combs from
k on see, cn the CIC output; newest first, the FIR and the half-band see cn and the samples before their delay lines.
With K = 1, M = 1, L = 1 a primary sample depends on its own group of bits only. -/
def Obligations.FiltersFollowTheirEquations : Prop :=
  (∀ (P : Config.Params) (rp : Nat) (gdb : Int) (m : ChanMem) (bits : List Bool) (I : Nat → Nat → Int) (X : Nat → Int),
    let K := P.kCic rp
    let M := P.mCic rp
    let L := (P.firCoef rp).length
    1 ≤ K → 1 ≤ M → 1 ≤ L → m.integ.length = K → m.combd.length = K → (∀ line ∈ m.combd, line.length = M) →
    m.fird.length = L - 1 →
    (∀ k < K, I 0 k = m.integ.getD k 0) →
    (∀ t < bits.length, ∀ k < K, I (t + 1) k =
      I t k + if k = 0 then (if bits.getD t false then 1 else -1) else I (t + 1) (k - 1)) →
    X 0 = I bits.length (K - 1) →
    (∀ k < K, X (k + 1) = X k - (m.combd.getD k []).getD (M - 1) 0) →
    let cn : Rat := (X K : Rat) / ((rp : Rat) * M) ^ K
    let v : Rat := ∑ j ∈ Finset.range L, (P.firCoef rp).getD j 0 * (cn :: m.fird).getD j 0
    primarySample P rp gdb m bits =
      ({ m with
        integ := (List.range K).map (I bits.length)
        combd := (List.range K).map fun k => X k :: (m.combd.getD k []).dropLast
        fird := (cn :: m.fird).take (L - 1) }, scale P v gdb)) ∧
  (∀ (g : List Rat) (h : HbMem) (p : List S16), g ≠ [] → h.hbd.length = g.length - 1 → h.hbph = false →
    p.length % 2 = 0 →
    let y : Nat → Rat := fun n => ∑ j ∈ Finset.range g.length,
      g.getD j 0 * ((((p.take (n + 1)).reverse ++ h.hbd).getD j 0).toInt : Rat)
    (halfband g h p).2.map (·.toInt) = (List.range (p.length / 2)).map (fun i => roundedSample (y (2 * i + 1))) ∧
    (halfband g h p).1 = ⟨(p.reverse ++ h.hbd).take (g.length - 1), false⟩) ∧
  ∀ (P : Config.Params) (rp : Nat) (gdb : Int) (m : ChanMem) (x : Int) (bits : List Bool),
    P.kCic rp = 1 → P.mCic rp = 1 → P.firCoef rp = [1] → m.integ = [x] → m.combd = [[x]] →
    let d : Int := (bits.map fun b => if b then (1 : Int) else -1).sum
    primarySample P rp gdb m bits =
      ({ m with integ := [x + d], combd := [[x + d]], fird := [] }, scale P ((d : Rat) / rp) gdb)

/-! ### Frame buffer, windows, spectrum, averager -/

/-- 42_overlap_save.md R281, R287. -/
def Obligations.RetainedCountIsRoundedAndBelowT : Prop :=
  ∀ (P : Config.Params) (w ov : Word) (fc : FftConfig), fftConfigOf P w ov = .ok fc →
    fc.rret ≤ fc.t - 1 ∧ 1 ≤ fc.t - fc.rret ∧
    (fc.rret : Int) = ⌊((fc.ovl : Rat) / 65536 * fc.t + 1 / 2)⌋

/-- 42_overlap_save.md R284: EMIT_SHIFT reads the old buffer throughout. -/
def Obligations.EmitShiftMovesTheTrailingSamples : Prop :=
  ∀ (fc : FftConfig) (fb : List S16), fb.length = fc.t → fc.rret < fc.t →
    (shiftFrame fc fb).length = fc.t ∧
    (∀ i < fc.rret, (shiftFrame fc fb)[i]? = fb[fc.t - fc.rret + i]?) ∧
    ∀ i, fc.rret ≤ i → (shiftFrame fc fb)[i]? = fb[i]?

/-- 42_overlap_save.md R285: how many transforms a feed runs, and the fill it leaves. -/
def Obligations.FeedRunsTheStatedNumberOfCycles : Prop :=
  ∀ (P : Config.Params) (fc : FftConfig) (wt : List F32) (q : List S16) (r : Results),
    fc.rret < fc.t → r.fill < fc.t →
    let r' := feed P fc wt q r
    let n := r.fill + q.length
    r'.frameCount = r.frameCount +
      BitVec.ofNat 32 (if n < fc.t then 0 else 1 + (n - fc.t) / (fc.t - fc.rret)) ∧
    r'.fill = if n < fc.t then n else fc.rret + (n - fc.t) % (fc.t - fc.rret)

/-- 42_overlap_save.md R289: the stream is what the buffer already holds and the samples fed; the frames a feed
transforms are the windows of T samples of it that start every T − RRET samples, and what comes after the last start
is what the buffer then holds. -/
def Obligations.FramesAreTheOverlappingWindows : Prop :=
  ∀ (P : Config.Params) (fc : FftConfig) (wt : List F32) (q : List S16) (r : Results),
    fc.rret < fc.t → r.fill < fc.t → r.fb.length = fc.t →
    let stream := r.fb.take r.fill ++ q
    let n := nCycles fc r.fill q.length
    let frames := (List.range n).map fun m => (stream.drop (m * (fc.t - fc.rret))).take fc.t
    let r' := feed P fc wt q r
    { r' with fb := [], fill := 0 } =
      { frames.foldl (fun acc frame => transformCycle P fc wt frame acc) r with fb := [], fill := 0 } ∧
    r'.fb.length = fc.t ∧ r'.fb.take r'.fill = stream.drop (n * (fc.t - fc.rret))

/-- 43_window_fft.md R310, R317, R323, R324, 44_averager.md R351: what a transform cycle writes, word by word; RFFT_T
sees WT[n] times the normalised sample n. -/
def Obligations.TransformCycleWritesSpecAndAverage : Prop :=
  ∀ (P : Config.Params) (fc : FftConfig) (wt : List F32) (frame : List S16) (r : Results),
    ramWf r.ram = true → fc.nb ≤ 2049 → wt.length = fc.t → frame.length = fc.t →
    let r' := transformCycle P fc wt frame r
    let y := (List.range fc.t).map fun n =>
      f32Mul (wt.getD n 0) (f32Mul (f32OfInt (frame.getD n 0).toInt) 0x38000000)
    let M : Nat → F32 := fun k => f32Sqrt (f32Add (f32Mul (P.rfft fc.t y k).1 (P.rfft fc.t y k).1)
      (f32Mul (P.rfft fc.t y k).2 (P.rfft fc.t y k).2))
    r'.frameCount = r.frameCount + 1 ∧
    r'.avgCount.toNat = min (r.avgCount.toNat + 1) (2 ^ 32 - 1) ∧
    (∀ k < fc.nb, fc.outk = .complex → readWord r'.ram (0x8000 + 8 * k) = (P.rfft fc.t y k).1 ∧
      readWord r'.ram (0x8000 + 8 * k + 4) = (P.rfft fc.t y k).2) ∧
    (∀ k < fc.nb, fc.outk = .magnitude → readWord r'.ram (0x8000 + 4 * k) = M k) ∧
    (∀ k < fc.nb, fc.outk = .phase →
      readWord r'.ram (0x8000 + 4 * k) = P.atan2 (P.rfft fc.t y k).2 (P.rfft fc.t y k).1) ∧
    (∀ k < fc.nb, readWord r'.ram (0x4000 + 4 * k) =
      f32Add (readWord r.ram (0x4000 + 4 * k)) (f32Div (f32Sub (M k) (readWord r.ram (0x4000 + 4 * k)))
        (f32OfInt r'.avgCount.toNat))) ∧
    (∀ a, a < 0x4000 ∨ (0x4000 + 4 * fc.nb ≤ a ∧ a < 0x8000) ∨
        0x8000 + (if fc.outk = .complex then 8 else 4) * fc.nb ≤ a → ramByte r'.ram a = ramByte r.ram a)

/-- 44_averager.md R355: N updates with the same magnitude from Empty give that magnitude exactly. -/
def Obligations.ConstantSpectrumAveragesToItself : Prop :=
  ∀ (m : F32) (n : Nat), f32IsFinite m = true → f32Sign m = false → 1 ≤ n → n < 2 ^ 32 →
    (List.range n).foldl (fun avg j => avgStep (f32OfInt ((j : Int) + 1)) avg m) 0 = m

/-- 43_window_fft.md R325: every table is symmetric, its endpoints are the formula's to 1e-5, and the rectangular window
is the identity. -/
def Obligations.WindowTablesMeetTheirProperties : Prop :=
  (∀ (win : WindowKind) (d n : Nat), n ≤ d → windowEntry win (d - n) d = windowEntry win n d) ∧
  (∀ (win : WindowKind) (d : Nat), 1 ≤ d → ∀ w0 : Rat,
    w0 = (match win with
      | .rectangular => 1
      | .hamming => 8 / 100
      | .blackmanHarris => 6 / 100000
      | .hann | .tukey25 | .tukey75 => 0) →
    |f32ToRat (windowEntry win 0 d) - w0| ≤ 1 / 100000 ∧ |f32ToRat (windowEntry win d d) - w0| ≤ 1 / 100000) ∧
  ∀ (n d : Nat) (x : F32), f32IsFinite x = true → f32Mul (windowEntry .rectangular n d) x = x

/-- 43_window_fft.md R311 to R316: every table entry is the real function's value to within 10^−7, which covers the half
unit in the last place of RNE32. That the entry is RNE32 of the real function itself rests on the model's fixed point
(log 17). -/
def Obligations.WindowEntriesApproximateTheFormulas : Prop :=
  ∀ (d n : Nat), 1 ≤ d → d ≤ 4095 → n ≤ d →
    let th : ℝ := 2 * Real.pi * n / d
    let u : ℝ := (n : ℝ) / d
    let close (win : WindowKind) (w : ℝ) : Prop := |((f32ToRat (windowEntry win n d) : Rat) : ℝ) - w| ≤ 1 / 10 ^ 7
    let tk (al : ℝ) : ℝ :=
      if u < al / 2 then (1 + Real.cos (Real.pi * (2 * u / al - 1))) / 2
      else if 1 - al / 2 < u then (1 + Real.cos (Real.pi * (2 * u / al - 2 / al + 1))) / 2
      else 1
    close .rectangular 1 ∧ close .hamming (0.54 - 0.46 * Real.cos th) ∧ close .hann (0.5 - 0.5 * Real.cos th) ∧
    close .blackmanHarris
      (0.35875 - 0.48829 * Real.cos th + 0.14128 * Real.cos (2 * th) - 0.01168 * Real.cos (3 * th)) ∧
    close .tukey25 (tk 0.25) ∧ close .tukey75 (tk 0.75)

/-- 43_window_fft.md R310: NORMALIZE is exact. -/
def Obligations.NormalizeIsExact : Prop :=
  ∀ v : S16, f32IsFinite (normalize v) = true ∧ f32ToRat (normalize v) = (v.toInt : Rat) / 32768

/-- 00_scope.md R14: the rounding of a rational is the nearest binary32, and an even one when two are as near. -/
def Obligations.RoundingIsToNearestEven : Prop :=
  ∀ (q : Rat) (y : F32), f32IsFinite (f32OfRat q) = true → f32IsFinite y = true →
    |f32ToRat (f32OfRat q) - q| ≤ |f32ToRat y - q| ∧
    (f32ToRat y ≠ f32ToRat (f32OfRat q) → |f32ToRat y - q| = |f32ToRat (f32OfRat q) - q| →
      (f32OfRat q).toNat % 2 = 0)

/-- 00_scope.md R14: each operation on finite values is the rounding of its exact result, where that is not zero; an
exact zero result has the sign IEEE 754 gives it (log 16); the conversion of an integer is the rounding of it;
the square root is the binary32 nearest to the real root, and an even one when two are as near. -/
def Obligations.ArithmeticRoundsTheExactResult : Prop :=
  (∀ x y : F32, f32IsFinite x = true → f32IsFinite y = true →
    let zero (neg : Bool) : F32 := if neg then 0x80000000 else 0x00000000
    f32Add x y = (if f32ToRat x + f32ToRat y = 0 then zero (f32Sign x && f32Sign y)
      else f32OfRat (f32ToRat x + f32ToRat y)) ∧
    f32Sub x y = (if f32ToRat x - f32ToRat y = 0 then zero (f32Sign x && !f32Sign y)
      else f32OfRat (f32ToRat x - f32ToRat y)) ∧
    f32Mul x y = (if f32ToRat x * f32ToRat y = 0 then zero (f32Sign x != f32Sign y)
      else f32OfRat (f32ToRat x * f32ToRat y)) ∧
    (f32ToRat y ≠ 0 → f32Div x y = if f32ToRat x = 0 then zero (f32Sign x != f32Sign y)
      else f32OfRat (f32ToRat x / f32ToRat y)) ∧
    (f32ToRat x ≠ 0 → f32OfRat (f32ToRat x) = x)) ∧
  (∀ i : Int, f32OfInt i = f32OfRat i) ∧
  ∀ x : F32, f32IsFinite x = true →
    (f32ToRat x = 0 → f32Sqrt x = x) ∧
    (0 < f32ToRat x → f32IsFinite (f32Sqrt x) = true ∧ f32Sign (f32Sqrt x) = false ∧
      ∀ y : F32, f32IsFinite y = true →
        let root := Real.sqrt ((f32ToRat x : Rat) : ℝ)
        let near := |((f32ToRat (f32Sqrt x) : Rat) : ℝ) - root|
        near ≤ |((f32ToRat y : Rat) : ℝ) - root| ∧
        (f32ToRat y ≠ f32ToRat (f32Sqrt x) → |((f32ToRat y : Rat) : ℝ) - root| = near →
          (f32Sqrt x).toNat % 2 = 0))

/-- 43_window_fft.md R317, R320, R321: every frame WINDOW gives is finite with |y[n]| ≤ 1; on frames of such values, with
EPS_FFT ≤ 2^40, |re| and |im| are at most T · (1 + EPS_FFT), and MAG is finite and not negative. -/
def Obligations.MagnitudesStayFinite : Prop :=
  (∀ (win : WindowKind) (t : Nat) (frame : List S16), 2 ≤ t → ∀ v ∈ windowed (windowTable win t) frame, isUnit v) ∧
  ∀ (P : Config.Params) (lt : Nat) (y : List F32) (k : Nat), FftAccurateAt P (2 ^ lt) y k →
    0 ≤ P.epsFft → P.epsFft ≤ 2 ^ 40 → 1 ≤ lt → lt ≤ 12 → y.length = 2 ^ lt → (∀ v ∈ y, isUnit v) →
    let z := P.rfft (2 ^ lt) y k
    |((f32ToRat z.1 : Rat) : ℝ)| ≤ 2 ^ lt * (1 + P.epsFft) ∧ |((f32ToRat z.2 : Rat) : ℝ)| ≤ 2 ^ lt * (1 + P.epsFft) ∧
    f32IsFinite (mag z) = true ∧ f32Sign (mag z) = false

/-- 43_window_fft.md R318: the machine's RFFT_T is finite and within its EPS_FFT of the DFT on every frame WINDOW can
give it, and so ±0 on an all-zero frame. -/
def Obligations.MachineTransformIsAccurate : Prop :=
  FftAccurate machineParams ∧
    ∀ (win : WindowKind) (lt : Nat) (frame : List S16) (k : Nat), 1 ≤ lt → lt ≤ machineParams.log2tMax →
      frame.length = 2 ^ lt → k ≤ 2 ^ lt / 2 →
      let y := windowed (windowTable win (2 ^ lt)) frame
      y.all f32IsZero = true →
      f32IsZero (machineParams.rfft (2 ^ lt) y k).1 = true ∧ f32IsZero (machineParams.rfft (2 ^ lt) y k).2 = true

/-- 00_scope.md R9, 43_window_fft.md R322: the parameters of the machine, which are free, meet their constraints
(logs 10 to 15). -/
def Obligations.FreeParametersMeetTheirConstraints : Prop :=
  let P := machineParams
  (1 ≤ P.cMax ∧ P.cMax ≤ 15 ∧ 1 ≤ P.log2tMax ∧ P.log2tMax ≤ 12) ∧
  (∀ r, 1 ≤ P.kCic r ∧ 1 ≤ P.mCic r ∧ P.firCoef r ≠ []) ∧
  (0 ≤ P.epsFft ∧ 0 ≤ P.epsAtan ∧ PhaseAccurate P) ∧
  (P.hbCoef.length % 2 = 1 ∧ P.hbCoef.reverse = P.hbCoef) ∧
  (P.gainLin 0 = 1 ∧ (∀ d, 0 < P.gainLin d) ∧ ∀ d e, d ≤ e → P.gainLin d ≤ P.gainLin e) ∧
  ∀ im re : F32,
    (f32IsZero im = true → f32IsZero re = true → P.atan2 im re = 0) ∧
    (f32IsZero im = true → f32Positive re = true → P.atan2 im re = if f32Sign im then 0x80000000 else 0) ∧
    (f32IsZero im = true → f32Negative re = true →
      P.atan2 im re = if f32Sign im then 0xC0490FDB else 0x40490FDB) ∧
    f32IsFinite (P.atan2 im re) = true ∧ (P.atan2 im re).toNat % 2 ^ 31 ≤ 0x40490FDB
end

