-- ==== Sys2Proof/Laws/Chunk.lean ====
section
/-! SUPPORT. What the operations of the chunk cycle leave alone, and the lengths they keep. -/

namespace Sys2Proof.Machine

/-! ### Transform cycle and averager -/

@[simp] theorem avgUpdate_filt (ms : List F32) (r : Results) : (avgUpdate ms r).filt = r.filt := rfl
@[simp] theorem avgUpdate_fb (ms : List F32) (r : Results) : (avgUpdate ms r).fb = r.fb := rfl
@[simp] theorem avgUpdate_fill (ms : List F32) (r : Results) : (avgUpdate ms r).fill = r.fill := rfl
@[simp] theorem avgUpdate_avgCount (ms : List F32) (r : Results) : (avgUpdate ms r).avgCount = satInc r.avgCount := rfl

section
variable (P : Config.Params) (fc : FftConfig) (wt : List F32) (frame : List S16) (r : Results)

@[simp] theorem transformCycle_filt : (transformCycle P fc wt frame r).filt = r.filt := rfl
@[simp] theorem transformCycle_fb : (transformCycle P fc wt frame r).fb = r.fb := rfl
@[simp] theorem transformCycle_fill : (transformCycle P fc wt frame r).fill = r.fill := rfl
@[simp] theorem transformCycle_chunkCount : (transformCycle P fc wt frame r).chunkCount = r.chunkCount := rfl
@[simp] theorem transformCycle_pcmCount : (transformCycle P fc wt frame r).pcmCount = r.pcmCount := rfl
@[simp] theorem transformCycle_avgWarm : (transformCycle P fc wt frame r).avgWarm = r.avgWarm := rfl
@[simp] theorem transformCycle_avgCount : (transformCycle P fc wt frame r).avgCount = satInc r.avgCount := rfl
@[simp] theorem transformCycle_frameCount : (transformCycle P fc wt frame r).frameCount = wrapInc r.frameCount := rfl

end

/-! ### Frame buffer -/

theorem shiftFrame_length {fc : FftConfig} {fb : List S16} (hl : fb.length = fc.t) (hr : fc.rret < fc.t) :
    (shiftFrame fc fb).length = fc.t := by
  simp [shiftFrame, hl]
  omega

/-- Everything one sample can do to the frame buffer: complete a frame or only be stored. -/
theorem feedOne_cases (P : Config.Params) (fc : FftConfig) (wt : List F32) (r : Results) (q : S16) :
    (r.fill + 1 = fc.t ∧ feedOne P fc wt r q =
      { transformCycle P fc wt ((r.fb.set r.fill q).take fc.t) { r with fb := r.fb.set r.fill q } with
        fb := shiftFrame fc (r.fb.set r.fill q), fill := fc.rret }) ∨
    (r.fill + 1 ≠ fc.t ∧ feedOne P fc wt r q = { r with fb := r.fb.set r.fill q, fill := r.fill + 1 }) := by
  by_cases h : r.fill + 1 = fc.t
  · exact .inl ⟨h, by simp [feedOne, h]⟩
  · exact .inr ⟨h, by simp [feedOne, h]⟩

section
variable (P : Config.Params) (fc : FftConfig) (wt : List F32)

@[simp] theorem feed_nil (r : Results) : feed P fc wt [] r = r := rfl

@[simp] theorem feed_cons (q : S16) (qs : List S16) (r : Results) :
    feed P fc wt (q :: qs) r = feed P fc wt qs (feedOne P fc wt r q) := rfl

/-- A property of the results that one sample keeps is kept by a feed. -/
theorem feed_induction {p : Results → Prop} (h : ∀ r q, p r → p (feedOne P fc wt r q)) (qs : List S16) :
    ∀ r, p r → p (feed P fc wt qs r) := by
  induction qs with
  | nil => exact fun r hr => hr
  | cons q qs ih => exact fun r hr => ih _ (h r q hr)

@[simp] theorem feedOne_filt (r : Results) (q : S16) : (feedOne P fc wt r q).filt = r.filt := by
  rcases feedOne_cases P fc wt r q with ⟨_, h⟩ | ⟨_, h⟩ <;> simp [h]

@[simp] theorem feedOne_chunkCount (r : Results) (q : S16) : (feedOne P fc wt r q).chunkCount = r.chunkCount := by
  rcases feedOne_cases P fc wt r q with ⟨_, h⟩ | ⟨_, h⟩ <;> simp [h]

@[simp] theorem feedOne_pcmCount (r : Results) (q : S16) : (feedOne P fc wt r q).pcmCount = r.pcmCount := by
  rcases feedOne_cases P fc wt r q with ⟨_, h⟩ | ⟨_, h⟩ <;> simp [h]

@[simp] theorem feed_filt (qs : List S16) (r : Results) : (feed P fc wt qs r).filt = r.filt :=
  feed_induction P fc wt (p := fun x => x.filt = r.filt) (fun x q hx => by simp [hx]) qs r rfl

@[simp] theorem feed_chunkCount (qs : List S16) (r : Results) : (feed P fc wt qs r).chunkCount = r.chunkCount :=
  feed_induction P fc wt (p := fun x => x.chunkCount = r.chunkCount) (fun x q hx => by simp [hx]) qs r rfl

@[simp] theorem feed_pcmCount (qs : List S16) (r : Results) : (feed P fc wt qs r).pcmCount = r.pcmCount :=
  feed_induction P fc wt (p := fun x => x.pcmCount = r.pcmCount) (fun x q hx => by simp [hx]) qs r rfl

end

/-! ### Decimation -/

theorem integrate_length (xs : List Int) (d : Int) : (integrate xs d).length = xs.length := by
  induction xs generalizing d with
  | nil => rfl
  | cons x xs ih => simp [integrate, ih]

theorem comb_length (lines : List (List Int)) (x : Int) : (comb lines x).1.length = lines.length := by
  induction lines generalizing x with
  | nil => rfl
  | cons l ls ih => simp [comb, ih]

@[simp] theorem primarySample_hb (P : Config.Params) (rp : Nat) (gdb : Int) (m : ChanMem) (bits : List Bool) :
    (primarySample P rp gdb m bits).1.hb = m.hb := rfl

theorem primarySamples_hb (P : Config.Params) (rp : Nat) (gdb : Int) (m : ChanMem) (gs : List (List Bool)) :
    (primarySamples P rp gdb m gs).1.hb = m.hb := by
  induction gs generalizing m with
  | nil => rfl
  | cons g gs ih => simp [primarySamples, ih]

theorem primarySamples_length (P : Config.Params) (rp : Nat) (gdb : Int) (m : ChanMem) (gs : List (List Bool)) :
    (primarySamples P rp gdb m gs).2.length = gs.length := by
  induction gs generalizing m with
  | nil => rfl
  | cons g gs ih => simp [primarySamples, ih]

theorem decimateFrom_length (P : Config.Params) (dc : DecConfig) (gdb : Int) (e : List Byte) (c : Nat)
    (ms : List ChanMem) : (decimateFrom P dc gdb e c ms).length = ms.length := by
  induction ms generalizing c with
  | nil => rfl
  | cons m ms ih => simp [decimateFrom, ih]

theorem decimateChunk_filt_length (P : Config.Params) (dc : DecConfig) (filt : List ChanMem) (bs : List Byte)
    (gdb : Int) : (decimateChunk P dc filt bs gdb).1.length = filt.length := by
  simp [decimateChunk, decimateFrom_length]

end Sys2Proof.Machine
end

