-- ==== Sys2Proof/Laws/Memory.lean ====
section
/-! SUPPORT. The laws of RAM: reading after writing, and the canonical form is kept. -/

namespace Sys2Proof.Machine

theorem memWf_iff (m : Memory) :
    memWf m = true ↔ m.Pairwise (fun c d => c.1 < d.1) ∧ ∀ c ∈ m, unlisted c.1 ≠ some c.2 := by
  simp [memWf]

@[simp] theorem memWf_nil : memWf [] = true := rfl

theorem memWf_tail {c : Host.Cell} {m : Memory} (h : memWf (c :: m) = true) : memWf m = true := by
  rw [memWf_iff] at *
  exact ⟨h.1.tail, fun d hd => h.2 d (List.mem_cons_of_mem _ hd)⟩

/-- An address below every listed one reads as unlisted. -/
theorem memGet_of_lt (m : Memory) (a : Nat) (h : ∀ c ∈ m, a < c.1) : memGet m a = unlisted a := by
  induction m with
  | nil => rfl
  | cons c m ih =>
    have hc := h c (List.mem_cons_self ..)
    simp only [memGet]
    rw [if_neg (by omega)]
    exact ih fun d hd => h d (List.mem_cons_of_mem _ hd)

/-- A write leaves every other address alone, whatever the list. -/
theorem memGet_memPut_ne (m : Memory) {a a' : Nat} (b : Byte) (h : a' ≠ a) :
    memGet (memPut m a b) a' = memGet m a' := by
  induction m with
  | nil =>
    unfold memPut
    split
    · rfl
    · simp [memGet, Ne.symm h]
  | cons c m ih =>
    obtain ⟨x, v⟩ := c
    simp only [memPut]
    split
    · simp only [memGet, ih]
    · split
      · next hx => subst hx; split <;> simp [memGet, Ne.symm h]
      · split <;> simp [memGet, Ne.symm h]

/-- A written byte that an unlisted address would not read as is read back, whatever the list. -/
theorem memGet_memPut_listed (m : Memory) {a : Nat} {b : Byte} (h : unlisted a ≠ some b) :
    memGet (memPut m a b) a = some b := by
  induction m with
  | nil => simp [memPut, memGet, h]
  | cons c m ih =>
    obtain ⟨x, v⟩ := c
    simp only [memPut]
    split
    · next hx => simp only [memGet]; rw [if_neg (by omega), ih]
    · split <;> simp [memGet]

/-- A written byte is read back from a canonical list. -/
theorem memGet_memPut_self (m : Memory) (a : Nat) (b : Byte) (hm : memWf m = true) :
    memGet (memPut m a b) a = some b := by
  by_cases hu : unlisted a = some b
  · induction m with
    | nil => simp [memPut, memGet, hu]
    | cons c m ih =>
      obtain ⟨x, v⟩ := c
      have hp := List.pairwise_cons.1 ((memWf_iff _).1 hm).1
      simp only [memPut]
      split
      · next hx => simp only [memGet]; rw [if_neg (by omega)]; exact ih (memWf_tail hm)
      · split
        · next hx =>
          subst hx
          rw [memGet_of_lt m x hp.1, hu]
        · next h1 h2 =>
          have hxa : a < x := by omega
          rw [memGet_of_lt _ a, hu]
          intro d hd
          rcases List.mem_cons.1 hd with rfl | hd
          · exact hxa
          · exact hxa.trans (hp.1 d hd)
  · exact memGet_memPut_listed m hu

theorem mem_memPut {m : Memory} {a : Nat} {b : Byte} {c : Host.Cell} (h : c ∈ memPut m a b) :
    c ∈ m ∨ (c = (a, b) ∧ unlisted a ≠ some b) := by
  induction m with
  | nil =>
    unfold memPut at h
    split at h
    · exact absurd h (by simp)
    · next hu => exact .inr ⟨by simpa using h, hu⟩
  | cons d m ih =>
    obtain ⟨x, v⟩ := d
    simp only [memPut] at h
    split at h
    · rcases List.mem_cons.1 h with rfl | h
      · exact .inl (List.mem_cons_self ..)
      · exact (ih h).imp_left (List.mem_cons_of_mem _)
    · split at h <;> split at h
      · exact .inl (List.mem_cons_of_mem _ h)
      · next hu =>
        rcases List.mem_cons.1 h with rfl | h
        · exact .inr ⟨rfl, hu⟩
        · exact .inl (List.mem_cons_of_mem _ h)
      · exact .inl h
      · next hu =>
        rcases List.mem_cons.1 h with rfl | h
        · exact .inr ⟨rfl, hu⟩
        · exact .inl h

/-- A write keeps the canonical form. -/
theorem memWf_memPut (m : Memory) (a : Nat) (b : Byte) (hm : memWf m = true) : memWf (memPut m a b) = true := by
  induction m with
  | nil =>
    unfold memPut
    split
    · rfl
    · next hu => simpa [memWf] using hu
  | cons d m ih =>
    obtain ⟨x, v⟩ := d
    have hw := (memWf_iff _).1 hm
    have hp := List.pairwise_cons.1 hw.1
    simp only [memPut]
    split
    · next hx =>
      have := (memWf_iff _).1 (ih (memWf_tail hm))
      refine (memWf_iff _).2 ⟨List.pairwise_cons.2 ⟨fun c hc => ?_, this.1⟩, fun c hc => ?_⟩
      · rcases mem_memPut hc with h | ⟨rfl, _⟩
        · exact hp.1 c h
        · exact hx
      · rcases List.mem_cons.1 hc with rfl | hc
        · exact hw.2 _ (List.mem_cons_self ..)
        · exact this.2 c hc
    · split
      · next hx =>
        subst hx
        split
        · exact memWf_tail hm
        · next hu =>
          refine (memWf_iff _).2 ⟨List.pairwise_cons.2 ⟨hp.1, hp.2⟩, fun c hc => ?_⟩
          rcases List.mem_cons.1 hc with rfl | hc
          · exact hu
          · exact hw.2 c (List.mem_cons_of_mem _ hc)
      · next h1 h2 =>
        split
        · exact hm
        · next hu =>
          refine (memWf_iff _).2 ⟨List.pairwise_cons.2 ⟨fun c hc => ?_, hw.1⟩, fun c hc => ?_⟩
          · have hxa : a < x := by omega
            rcases List.mem_cons.1 hc with rfl | hc
            · exact hxa
            · exact hxa.trans (hp.1 c hc)
          · rcases List.mem_cons.1 hc with rfl | hc
            · exact hu
            · exact hw.2 c hc

theorem memWf_memClear (m : Memory) (lo hi : Nat) (hm : memWf m = true) : memWf (memClear m lo hi) = true := by
  rw [memWf_iff] at *
  exact ⟨hm.1.filter _, fun c hc => hm.2 c (List.mem_of_mem_filter hc)⟩

/-- A cleared address reads as unlisted, any other as before, whatever the list. -/
theorem memGet_memClear (m : Memory) (lo hi a : Nat) :
    memGet (memClear m lo hi) a = if lo ≤ a ∧ a < hi then unlisted a else memGet m a := by
  induction m with
  | nil => simp [memClear, memGet]
  | cons c m ih =>
    obtain ⟨x, v⟩ := c
    by_cases hx : (decide (x < lo) || decide (hi ≤ x)) = true
    · have : memClear ((x, v) :: m) lo hi = (x, v) :: memClear m lo hi := List.filter_cons_of_pos hx
      rw [this]
      simp only [memGet, ih]
      have hx' : x < lo ∨ hi ≤ x := by simpa using hx
      by_cases hxa : x = a
      · subst hxa; simp only [if_true]; rw [if_neg (by omega)]
      · simp [hxa]
    · have : memClear ((x, v) :: m) lo hi = memClear m lo hi := List.filter_cons_of_neg hx
      rw [this, ih]
      have hx' : ¬(x < lo) ∧ ¬(hi ≤ x) := by simpa using hx
      simp only [memGet]
      by_cases hxa : x = a
      · subst hxa; rw [if_pos (by omega), if_pos (by omega)]
      · simp [hxa]

theorem memWithin_memPut (m : Memory) (lo hi a : Nat) (b : Byte) (hm : memWithin m lo hi = true)
    (ha : lo ≤ a ∧ a < hi) : memWithin (memPut m a b) lo hi = true := by
  simp only [memWithin, List.all_eq_true, Bool.and_eq_true, decide_eq_true_eq] at *
  intro c hc
  rcases mem_memPut hc with h | ⟨rfl, _⟩
  · exact hm c h
  · exact ha

theorem memWf_writeLE (m : Memory) (a n v : Nat) (hm : memWf m = true) : memWf (writeLE m a n v) = true := by
  induction n generalizing m a v with
  | zero => exact hm
  | succ n ih => exact ih _ _ _ (memWf_memPut m a _ hm)

theorem memWf_writeHalves (m : Memory) (a : Nat) (vs : List S16) (hm : memWf m = true) :
    memWf (writeHalves m a vs) = true := by
  induction vs generalizing m a with
  | nil => exact hm
  | cons v vs ih => exact ih _ _ (memWf_writeLE m a 2 _ hm)

theorem memWf_writeWords (m : Memory) (a : Nat) (vs : List F32) (hm : memWf m = true) :
    memWf (writeWords m a vs) = true := by
  induction vs generalizing m a with
  | nil => exact hm
  | cons v vs ih => exact ih _ _ (memWf_writeLE m a 4 _ hm)

/-- A multi-byte write leaves every byte outside it alone. -/
theorem memGet_writeLE_outside (m : Memory) (a n v a' : Nat) (h : a' < a ∨ a + n ≤ a') :
    memGet (writeLE m a n v) a' = memGet m a' := by
  induction n generalizing m a v with
  | zero => rfl
  | succ n ih =>
    simp only [writeLE]
    rw [ih _ _ _ (by omega), memGet_memPut_ne _ _ (by omega)]

/-- Byte i of a written value is read back from a canonical list. -/
theorem memGet_writeLE_inside (m : Memory) (a n v i : Nat) (hm : memWf m = true) (hi : i < n) :
    memGet (writeLE m a n v) (a + i) = some (BitVec.ofNat 8 (v / 2 ^ (8 * i))) := by
  induction n generalizing m a v i with
  | zero => omega
  | succ n ih =>
    simp only [writeLE]
    cases i with
    | zero =>
      rw [memGet_writeLE_outside _ _ _ _ _ (by omega)]
      simpa using memGet_memPut_self m a _ hm
    | succ i =>
      have := ih (memPut m a (BitVec.ofNat 8 v)) (a + 1) (v / 2 ^ 8) i (memWf_memPut m a _ hm) (by omega)
      rw [show a + (i + 1) = a + 1 + i by omega, this, Nat.div_div_eq_div_mul, ← pow_add]
      congr 3
      ring_nf

theorem memGet_writeHalves_outside (m : Memory) (a a' : Nat) (vs : List S16)
    (h : a' < a ∨ a + 2 * vs.length ≤ a') : memGet (writeHalves m a vs) a' = memGet m a' := by
  induction vs generalizing m a with
  | nil => rfl
  | cons v vs ih =>
    simp only [List.length_cons] at h
    simp only [writeHalves]
    rw [ih _ _ (by omega), memGet_writeLE_outside _ _ _ _ _ (by omega)]

theorem memGet_writeWords_outside (m : Memory) (a a' : Nat) (vs : List F32)
    (h : a' < a ∨ a + 4 * vs.length ≤ a') : memGet (writeWords m a vs) a' = memGet m a' := by
  induction vs generalizing m a with
  | nil => rfl
  | cons v vs ih =>
    simp only [List.length_cons] at h
    simp only [writeWords]
    rw [ih _ _ (by omega), memGet_writeLE_outside _ _ _ _ _ (by omega)]

/-- A little-endian read depends only on the bytes it covers. -/
theorem readLE_congr (f g : Nat → Byte) (a n : Nat) (h : ∀ i < n, f (a + i) = g (a + i)) :
    readLE f a n = readLE g a n := by
  induction n generalizing a with
  | zero => rfl
  | succ n ih =>
    simp only [readLE]
    have h0 := h 0 (by omega)
    rw [Nat.add_zero] at h0
    rw [h0, ih (a + 1) fun i hi => by
      have := h (i + 1) (by omega)
      rwa [show a + (i + 1) = a + 1 + i by omega] at this]

theorem readLE_lt (f : Nat → Byte) (a n : Nat) : readLE f a n < 2 ^ (8 * n) := by
  induction n generalizing a with
  | zero => simp [readLE]
  | succ n ih =>
    have := ih (a + 1)
    have hb := (f a).isLt
    simp only [readLE]
    rw [show 8 * (n + 1) = 8 * n + 8 by ring, pow_add]
    omega

/-- A written value of n bytes reads back modulo 2^(8·n). -/
theorem readLE_writeLE (m : Memory) (a n v : Nat) (hm : memWf m = true) :
    readLE (ramByte (writeLE m a n v)) a n = v % 2 ^ (8 * n) := by
  induction n generalizing m a v with
  | zero => simp [readLE, Nat.mod_one]
  | succ n ih =>
    simp only [readLE, writeLE]
    rw [ih _ _ _ (memWf_memPut m a _ hm)]
    have h0 : ramByte (writeLE (memPut m a (BitVec.ofNat 8 v)) (a + 1) n (v / 2 ^ 8)) a = BitVec.ofNat 8 v := by
      simp [ramByte, memGet_writeLE_outside _ _ _ _ _ (show a < a + 1 ∨ _ by omega), memGet_memPut_self m a _ hm]
    rw [h0, BitVec.toNat_ofNat, show 8 * (n + 1) = 8 + 8 * n by ring, pow_add, Nat.mod_mul]

/-- The reset memories are canonical. -/
theorem reset_pdmWf : pdmWf State.reset.pdm = true := rfl

theorem reset_ramWf : ramWf State.reset.live.ram = true := rfl

/-- An empty result RAM reads 0 from AVG on. -/
theorem ramByte_nil {a : Nat} (h : avgBase ≤ a) : ramByte [] a = 0 := by
  have hr : regionOf a ≠ .pdmBuf := by
    have h' : 0x4000 ≤ a := h
    rw [regionOf, if_neg (by simp only [pcmBase]; omega), if_neg (by simp only [pdmBase]; omega),
      if_neg (by simp only [avgBase]; omega)]
    split <;> decide
  simp [ramByte, memGet, unlisted, hr]

theorem readWord_nil {a : Nat} (h : avgBase ≤ a) : readWord [] a = 0 := by
  simp [readWord, readLE, ramByte_nil h, ramByte_nil (show avgBase ≤ a + 1 by omega),
    ramByte_nil (show avgBase ≤ a + 1 + 1 by omega), ramByte_nil (show avgBase ≤ a + 1 + 1 + 1 by omega)]

end Sys2Proof.Machine
end

