-- ==== Sys2Proof/Laws/State.lean ====
section
/-! SUPPORT. One lemma per field per named update of the state, so that no proof unfolds an update. -/

namespace Sys2Proof.Machine

section
variable (s : State)

@[simp] theorem State.respond_errcode (err : Bool) (data : Word) : (s.respond err data).errcode = s.errcode := rfl
@[simp] theorem State.respond_decCfg (err : Bool) (data : Word) : (s.respond err data).decCfg = s.decCfg := rfl
@[simp] theorem State.respond_gain (err : Bool) (data : Word) : (s.respond err data).gain = s.gain := rfl
@[simp] theorem State.respond_fftCfg (err : Bool) (data : Word) : (s.respond err data).fftCfg = s.fftCfg := rfl
@[simp] theorem State.respond_overlap (err : Bool) (data : Word) : (s.respond err data).overlap = s.overlap := rfl
@[simp] theorem State.respond_fsHz (err : Bool) (data : Word) : (s.respond err data).fsHz = s.fsHz := rfl
@[simp] theorem State.respond_halfBytes (err : Bool) (data : Word) : (s.respond err data).halfBytes = s.halfBytes := rfl
@[simp] theorem State.respond_nbins (err : Bool) (data : Word) : (s.respond err data).nbins = s.nbins := rfl
@[simp] theorem State.respond_running (err : Bool) (data : Word) : (s.respond err data).running = s.running := rfl
@[simp] theorem State.respond_dc (err : Bool) (data : Word) : (s.respond err data).dc = s.dc := rfl
@[simp] theorem State.respond_fc (err : Bool) (data : Word) : (s.respond err data).fc = s.fc := rfl
@[simp] theorem State.respond_wt (err : Bool) (data : Word) : (s.respond err data).wt = s.wt := rfl
@[simp] theorem State.respond_live (err : Bool) (data : Word) : (s.respond err data).live = s.live := rfl
@[simp] theorem State.respond_pdm (err : Bool) (data : Word) : (s.respond err data).pdm = s.pdm := rfl
@[simp] theorem State.respond_inflight (err : Bool) (data : Word) : (s.respond err data).inflight = s.inflight := rfl
@[simp] theorem State.respond_fault (err : Bool) (data : Word) : (s.respond err data).fault = s.fault := rfl
@[simp] theorem State.respond_resp (err : Bool) (data : Word) : (s.respond err data).resp = some ⟨err, data⟩ := rfl
@[simp] theorem State.respond_draws (err : Bool) (data : Word) : (s.respond err data).draws = s.draws := rfl
@[simp] theorem State.respond_inputs (err : Bool) (data : Word) : (s.respond err data).inputs = s.inputs := rfl
@[simp] theorem State.respond_busy (err : Bool) (data : Word) : (s.respond err data).busy = s.busy := rfl

@[simp] theorem State.endCmd_errcode (code : ErrCode) : (s.endCmd code).errcode = errValue code := rfl
@[simp] theorem State.endCmd_decCfg (code : ErrCode) : (s.endCmd code).decCfg = s.decCfg := rfl
@[simp] theorem State.endCmd_gain (code : ErrCode) : (s.endCmd code).gain = s.gain := rfl
@[simp] theorem State.endCmd_fftCfg (code : ErrCode) : (s.endCmd code).fftCfg = s.fftCfg := rfl
@[simp] theorem State.endCmd_overlap (code : ErrCode) : (s.endCmd code).overlap = s.overlap := rfl
@[simp] theorem State.endCmd_fsHz (code : ErrCode) : (s.endCmd code).fsHz = s.fsHz := rfl
@[simp] theorem State.endCmd_halfBytes (code : ErrCode) : (s.endCmd code).halfBytes = s.halfBytes := rfl
@[simp] theorem State.endCmd_nbins (code : ErrCode) : (s.endCmd code).nbins = s.nbins := rfl
@[simp] theorem State.endCmd_running (code : ErrCode) : (s.endCmd code).running = s.running := rfl
@[simp] theorem State.endCmd_dc (code : ErrCode) : (s.endCmd code).dc = s.dc := rfl
@[simp] theorem State.endCmd_fc (code : ErrCode) : (s.endCmd code).fc = s.fc := rfl
@[simp] theorem State.endCmd_wt (code : ErrCode) : (s.endCmd code).wt = s.wt := rfl
@[simp] theorem State.endCmd_live (code : ErrCode) : (s.endCmd code).live = s.live := rfl
@[simp] theorem State.endCmd_pdm (code : ErrCode) : (s.endCmd code).pdm = s.pdm := rfl
@[simp] theorem State.endCmd_inflight (code : ErrCode) : (s.endCmd code).inflight = s.inflight := rfl
@[simp] theorem State.endCmd_fault (code : ErrCode) : (s.endCmd code).fault = s.fault := rfl
@[simp] theorem State.endCmd_resp (code : ErrCode) : (s.endCmd code).resp = some ⟨false, 0⟩ := rfl
@[simp] theorem State.endCmd_draws (code : ErrCode) : (s.endCmd code).draws = s.draws := rfl
@[simp] theorem State.endCmd_inputs (code : ErrCode) : (s.endCmd code).inputs = s.inputs := rfl
@[simp] theorem State.endCmd_busy (code : ErrCode) : (s.endCmd code).busy = s.busy := rfl

@[simp] theorem State.refuseBus_errcode : (s.refuseBus).errcode = s.errcode := rfl
@[simp] theorem State.refuseBus_decCfg : (s.refuseBus).decCfg = s.decCfg := rfl
@[simp] theorem State.refuseBus_gain : (s.refuseBus).gain = s.gain := rfl
@[simp] theorem State.refuseBus_fftCfg : (s.refuseBus).fftCfg = s.fftCfg := rfl
@[simp] theorem State.refuseBus_overlap : (s.refuseBus).overlap = s.overlap := rfl
@[simp] theorem State.refuseBus_fsHz : (s.refuseBus).fsHz = s.fsHz := rfl
@[simp] theorem State.refuseBus_halfBytes : (s.refuseBus).halfBytes = s.halfBytes := rfl
@[simp] theorem State.refuseBus_nbins : (s.refuseBus).nbins = s.nbins := rfl
@[simp] theorem State.refuseBus_running : (s.refuseBus).running = s.running := rfl
@[simp] theorem State.refuseBus_dc : (s.refuseBus).dc = s.dc := rfl
@[simp] theorem State.refuseBus_fc : (s.refuseBus).fc = s.fc := rfl
@[simp] theorem State.refuseBus_wt : (s.refuseBus).wt = s.wt := rfl
@[simp] theorem State.refuseBus_live : (s.refuseBus).live = s.live := rfl
@[simp] theorem State.refuseBus_pdm : (s.refuseBus).pdm = s.pdm := rfl
@[simp] theorem State.refuseBus_inflight : (s.refuseBus).inflight = s.inflight := rfl
@[simp] theorem State.refuseBus_fault : (s.refuseBus).fault = s.fault := rfl
@[simp] theorem State.refuseBus_resp : (s.refuseBus).resp = some ⟨true, 0⟩ := rfl
@[simp] theorem State.refuseBus_draws : (s.refuseBus).draws = s.draws := rfl
@[simp] theorem State.refuseBus_inputs : (s.refuseBus).inputs = s.inputs := rfl
@[simp] theorem State.refuseBus_busy : (s.refuseBus).busy = s.busy := rfl

@[simp] theorem State.raiseOverrun_errcode : (s.raiseOverrun).errcode = s.errcode := rfl
@[simp] theorem State.raiseOverrun_decCfg : (s.raiseOverrun).decCfg = s.decCfg := rfl
@[simp] theorem State.raiseOverrun_gain : (s.raiseOverrun).gain = s.gain := rfl
@[simp] theorem State.raiseOverrun_fftCfg : (s.raiseOverrun).fftCfg = s.fftCfg := rfl
@[simp] theorem State.raiseOverrun_overlap : (s.raiseOverrun).overlap = s.overlap := rfl
@[simp] theorem State.raiseOverrun_fsHz : (s.raiseOverrun).fsHz = s.fsHz := rfl
@[simp] theorem State.raiseOverrun_halfBytes : (s.raiseOverrun).halfBytes = s.halfBytes := rfl
@[simp] theorem State.raiseOverrun_nbins : (s.raiseOverrun).nbins = s.nbins := rfl
@[simp] theorem State.raiseOverrun_running : (s.raiseOverrun).running = s.running := rfl
@[simp] theorem State.raiseOverrun_dc : (s.raiseOverrun).dc = s.dc := rfl
@[simp] theorem State.raiseOverrun_fc : (s.raiseOverrun).fc = s.fc := rfl
@[simp] theorem State.raiseOverrun_wt : (s.raiseOverrun).wt = s.wt := rfl
@[simp] theorem State.raiseOverrun_live : (s.raiseOverrun).live = s.live := rfl
@[simp] theorem State.raiseOverrun_pdm : (s.raiseOverrun).pdm = s.pdm := rfl
@[simp] theorem State.raiseOverrun_inflight : (s.raiseOverrun).inflight = s.inflight := rfl
@[simp] theorem State.raiseOverrun_fault : (s.raiseOverrun).fault = .overrun := rfl
@[simp] theorem State.raiseOverrun_resp : (s.raiseOverrun).resp = s.resp := rfl
@[simp] theorem State.raiseOverrun_draws : (s.raiseOverrun).draws = s.draws := rfl
@[simp] theorem State.raiseOverrun_inputs : (s.raiseOverrun).inputs = s.inputs := rfl
@[simp] theorem State.raiseOverrun_busy : (s.raiseOverrun).busy = s.busy := rfl

@[simp] theorem State.storePdm_errcode (j n v : Nat) : (s.storePdm j n v).errcode = s.errcode := rfl
@[simp] theorem State.storePdm_decCfg (j n v : Nat) : (s.storePdm j n v).decCfg = s.decCfg := rfl
@[simp] theorem State.storePdm_gain (j n v : Nat) : (s.storePdm j n v).gain = s.gain := rfl
@[simp] theorem State.storePdm_fftCfg (j n v : Nat) : (s.storePdm j n v).fftCfg = s.fftCfg := rfl
@[simp] theorem State.storePdm_overlap (j n v : Nat) : (s.storePdm j n v).overlap = s.overlap := rfl
@[simp] theorem State.storePdm_fsHz (j n v : Nat) : (s.storePdm j n v).fsHz = s.fsHz := rfl
@[simp] theorem State.storePdm_halfBytes (j n v : Nat) : (s.storePdm j n v).halfBytes = s.halfBytes := rfl
@[simp] theorem State.storePdm_nbins (j n v : Nat) : (s.storePdm j n v).nbins = s.nbins := rfl
@[simp] theorem State.storePdm_running (j n v : Nat) : (s.storePdm j n v).running = s.running := rfl
@[simp] theorem State.storePdm_dc (j n v : Nat) : (s.storePdm j n v).dc = s.dc := rfl
@[simp] theorem State.storePdm_fc (j n v : Nat) : (s.storePdm j n v).fc = s.fc := rfl
@[simp] theorem State.storePdm_wt (j n v : Nat) : (s.storePdm j n v).wt = s.wt := rfl
@[simp] theorem State.storePdm_live (j n v : Nat) : (s.storePdm j n v).live = s.live := rfl
@[simp] theorem State.storePdm_pdm (j n v : Nat) : (s.storePdm j n v).pdm = writeLE s.pdm (pdmBase + j) n v := rfl
@[simp] theorem State.storePdm_inflight (j n v : Nat) : (s.storePdm j n v).inflight = s.inflight := rfl
@[simp] theorem State.storePdm_fault (j n v : Nat) : (s.storePdm j n v).fault = s.fault := rfl
@[simp] theorem State.storePdm_resp (j n v : Nat) : (s.storePdm j n v).resp = s.resp := rfl
@[simp] theorem State.storePdm_draws (j n v : Nat) : (s.storePdm j n v).draws = s.draws := rfl
@[simp] theorem State.storePdm_inputs (j n v : Nat) : (s.storePdm j n v).inputs = s.inputs := rfl
@[simp] theorem State.storePdm_busy (j n v : Nat) : (s.storePdm j n v).busy = s.busy := rfl

@[simp] theorem State.withFetchWord_errcode (nbits w : Nat) : (s.withFetchWord nbits w).errcode = s.errcode := rfl
@[simp] theorem State.withFetchWord_decCfg (nbits w : Nat) : (s.withFetchWord nbits w).decCfg = s.decCfg := rfl
@[simp] theorem State.withFetchWord_gain (nbits w : Nat) : (s.withFetchWord nbits w).gain = s.gain := rfl
@[simp] theorem State.withFetchWord_fftCfg (nbits w : Nat) : (s.withFetchWord nbits w).fftCfg = s.fftCfg := rfl
@[simp] theorem State.withFetchWord_overlap (nbits w : Nat) : (s.withFetchWord nbits w).overlap = s.overlap := rfl
@[simp] theorem State.withFetchWord_fsHz (nbits w : Nat) : (s.withFetchWord nbits w).fsHz = s.fsHz := rfl
@[simp] theorem State.withFetchWord_halfBytes (nbits w : Nat) : (s.withFetchWord nbits w).halfBytes = s.halfBytes := rfl
@[simp] theorem State.withFetchWord_nbins (nbits w : Nat) : (s.withFetchWord nbits w).nbins = s.nbins := rfl
@[simp] theorem State.withFetchWord_running (nbits w : Nat) : (s.withFetchWord nbits w).running = s.running := rfl
@[simp] theorem State.withFetchWord_dc (nbits w : Nat) : (s.withFetchWord nbits w).dc = s.dc := rfl
@[simp] theorem State.withFetchWord_fc (nbits w : Nat) : (s.withFetchWord nbits w).fc = s.fc := rfl
@[simp] theorem State.withFetchWord_wt (nbits w : Nat) : (s.withFetchWord nbits w).wt = s.wt := rfl
@[simp] theorem State.withFetchWord_live (nbits w : Nat) : (s.withFetchWord nbits w).live = s.live := rfl
@[simp] theorem State.withFetchWord_pdm (nbits w : Nat) : (s.withFetchWord nbits w).pdm = s.pdm := rfl
@[simp] theorem State.withFetchWord_inflight (nbits w : Nat) : (s.withFetchWord nbits w).inflight = s.inflight := rfl
@[simp] theorem State.withFetchWord_fault (nbits w : Nat) : (s.withFetchWord nbits w).fault = s.fault := rfl
@[simp] theorem State.withFetchWord_resp (nbits w : Nat) : (s.withFetchWord nbits w).resp = s.resp := rfl
@[simp] theorem State.withFetchWord_draws (nbits w : Nat) : (s.withFetchWord nbits w).draws = s.draws := rfl
@[simp] theorem State.withFetchWord_inputs (nbits w : Nat) : (s.withFetchWord nbits w).inputs = inputOfBits nbits w :: s.inputs := rfl
@[simp] theorem State.withFetchWord_busy (nbits w : Nat) : (s.withFetchWord nbits w).busy = s.busy := rfl

@[simp] theorem latchDec_errcode (P : Config.Params) (dc : DecConfig) : (latchDec P dc s).errcode = s.errcode := rfl
@[simp] theorem latchDec_decCfg (P : Config.Params) (dc : DecConfig) : (latchDec P dc s).decCfg = s.decCfg := rfl
@[simp] theorem latchDec_gain (P : Config.Params) (dc : DecConfig) : (latchDec P dc s).gain = s.gain := rfl
@[simp] theorem latchDec_fftCfg (P : Config.Params) (dc : DecConfig) : (latchDec P dc s).fftCfg = s.fftCfg := rfl
@[simp] theorem latchDec_overlap (P : Config.Params) (dc : DecConfig) : (latchDec P dc s).overlap = s.overlap := rfl
@[simp] theorem latchDec_fsHz (P : Config.Params) (dc : DecConfig) : (latchDec P dc s).fsHz = s.fsHz := rfl
@[simp] theorem latchDec_halfBytes (P : Config.Params) (dc : DecConfig) : (latchDec P dc s).halfBytes = BitVec.ofNat 32 dc.hbytes := rfl
@[simp] theorem latchDec_nbins (P : Config.Params) (dc : DecConfig) : (latchDec P dc s).nbins = s.nbins := rfl
@[simp] theorem latchDec_running (P : Config.Params) (dc : DecConfig) : (latchDec P dc s).running = s.running := rfl
@[simp] theorem latchDec_dc (P : Config.Params) (dc : DecConfig) : (latchDec P dc s).dc = some dc := rfl
@[simp] theorem latchDec_fc (P : Config.Params) (dc : DecConfig) : (latchDec P dc s).fc = s.fc := rfl
@[simp] theorem latchDec_wt (P : Config.Params) (dc : DecConfig) : (latchDec P dc s).wt = s.wt := rfl
@[simp] theorem latchDec_live_chunkCount (P : Config.Params) (dc : DecConfig) : (latchDec P dc s).live.chunkCount = 0 := rfl
@[simp] theorem latchDec_live_frameCount (P : Config.Params) (dc : DecConfig) : (latchDec P dc s).live.frameCount = s.live.frameCount := rfl
@[simp] theorem latchDec_live_avgCount (P : Config.Params) (dc : DecConfig) : (latchDec P dc s).live.avgCount = s.live.avgCount := rfl
@[simp] theorem latchDec_live_pcmCount (P : Config.Params) (dc : DecConfig) : (latchDec P dc s).live.pcmCount = 0 := rfl
@[simp] theorem latchDec_live_avgWarm (P : Config.Params) (dc : DecConfig) : (latchDec P dc s).live.avgWarm = s.live.avgWarm := rfl
@[simp] theorem latchDec_live_ram (P : Config.Params) (dc : DecConfig) : (latchDec P dc s).live.ram = memClear s.live.ram pcmBase pdmBase := rfl
@[simp] theorem latchDec_live_filt (P : Config.Params) (dc : DecConfig) : (latchDec P dc s).live.filt = List.replicate dc.cout (zeroChan P dc) := rfl
@[simp] theorem latchDec_live_fb (P : Config.Params) (dc : DecConfig) : (latchDec P dc s).live.fb = s.live.fb := rfl
@[simp] theorem latchDec_live_fill (P : Config.Params) (dc : DecConfig) : (latchDec P dc s).live.fill = s.live.fill := rfl
@[simp] theorem latchDec_pdm (P : Config.Params) (dc : DecConfig) : (latchDec P dc s).pdm = s.pdm := rfl
@[simp] theorem latchDec_inflight (P : Config.Params) (dc : DecConfig) : (latchDec P dc s).inflight = s.inflight := rfl
@[simp] theorem latchDec_fault (P : Config.Params) (dc : DecConfig) : (latchDec P dc s).fault = s.fault := rfl
@[simp] theorem latchDec_resp (P : Config.Params) (dc : DecConfig) : (latchDec P dc s).resp = s.resp := rfl
@[simp] theorem latchDec_draws (P : Config.Params) (dc : DecConfig) : (latchDec P dc s).draws = s.draws := rfl
@[simp] theorem latchDec_inputs (P : Config.Params) (dc : DecConfig) : (latchDec P dc s).inputs = s.inputs := rfl

@[simp] theorem latchFft_errcode (fc : FftConfig) : (latchFft fc s).errcode = s.errcode := rfl
@[simp] theorem latchFft_decCfg (fc : FftConfig) : (latchFft fc s).decCfg = s.decCfg := rfl
@[simp] theorem latchFft_gain (fc : FftConfig) : (latchFft fc s).gain = s.gain := rfl
@[simp] theorem latchFft_fftCfg (fc : FftConfig) : (latchFft fc s).fftCfg = s.fftCfg := rfl
@[simp] theorem latchFft_overlap (fc : FftConfig) : (latchFft fc s).overlap = s.overlap := rfl
@[simp] theorem latchFft_fsHz (fc : FftConfig) : (latchFft fc s).fsHz = s.fsHz := rfl
@[simp] theorem latchFft_halfBytes (fc : FftConfig) : (latchFft fc s).halfBytes = s.halfBytes := rfl
@[simp] theorem latchFft_nbins (fc : FftConfig) : (latchFft fc s).nbins = BitVec.ofNat 32 fc.nb := rfl
@[simp] theorem latchFft_running (fc : FftConfig) : (latchFft fc s).running = s.running := rfl
@[simp] theorem latchFft_dc (fc : FftConfig) : (latchFft fc s).dc = s.dc := rfl
@[simp] theorem latchFft_fc (fc : FftConfig) : (latchFft fc s).fc = some fc := rfl
@[simp] theorem latchFft_wt (fc : FftConfig) : (latchFft fc s).wt = windowTable fc.win fc.t := rfl
@[simp] theorem latchFft_live_chunkCount (fc : FftConfig) : (latchFft fc s).live.chunkCount = s.live.chunkCount := rfl
@[simp] theorem latchFft_live_frameCount (fc : FftConfig) : (latchFft fc s).live.frameCount = 0 := rfl
@[simp] theorem latchFft_live_avgCount (fc : FftConfig) : (latchFft fc s).live.avgCount = 0 := rfl
@[simp] theorem latchFft_live_pcmCount (fc : FftConfig) : (latchFft fc s).live.pcmCount = s.live.pcmCount := rfl
@[simp] theorem latchFft_live_avgWarm (fc : FftConfig) : (latchFft fc s).live.avgWarm = false := rfl
@[simp] theorem latchFft_live_ram (fc : FftConfig) : (latchFft fc s).live.ram = memClear s.live.ram avgBase 0x10000 := rfl
@[simp] theorem latchFft_live_filt (fc : FftConfig) : (latchFft fc s).live.filt = s.live.filt := rfl
@[simp] theorem latchFft_live_fb (fc : FftConfig) : (latchFft fc s).live.fb = List.replicate fc.t 0 := rfl
@[simp] theorem latchFft_live_fill (fc : FftConfig) : (latchFft fc s).live.fill = 0 := rfl
@[simp] theorem latchFft_pdm (fc : FftConfig) : (latchFft fc s).pdm = s.pdm := rfl
@[simp] theorem latchFft_inflight (fc : FftConfig) : (latchFft fc s).inflight = s.inflight := rfl
@[simp] theorem latchFft_fault (fc : FftConfig) : (latchFft fc s).fault = s.fault := rfl
@[simp] theorem latchFft_resp (fc : FftConfig) : (latchFft fc s).resp = s.resp := rfl
@[simp] theorem latchFft_draws (fc : FftConfig) : (latchFft fc s).draws = s.draws := rfl
@[simp] theorem latchFft_inputs (fc : FftConfig) : (latchFft fc s).inputs = s.inputs := rfl

@[simp] theorem softReset_errcode : (softReset s).errcode = State.reset.errcode := rfl
@[simp] theorem softReset_decCfg : (softReset s).decCfg = State.reset.decCfg := rfl
@[simp] theorem softReset_gain : (softReset s).gain = State.reset.gain := rfl
@[simp] theorem softReset_fftCfg : (softReset s).fftCfg = State.reset.fftCfg := rfl
@[simp] theorem softReset_overlap : (softReset s).overlap = State.reset.overlap := rfl
@[simp] theorem softReset_fsHz : (softReset s).fsHz = State.reset.fsHz := rfl
@[simp] theorem softReset_halfBytes : (softReset s).halfBytes = State.reset.halfBytes := rfl
@[simp] theorem softReset_nbins : (softReset s).nbins = State.reset.nbins := rfl
@[simp] theorem softReset_running : (softReset s).running = State.reset.running := rfl
@[simp] theorem softReset_dc : (softReset s).dc = State.reset.dc := rfl
@[simp] theorem softReset_fc : (softReset s).fc = State.reset.fc := rfl
@[simp] theorem softReset_wt : (softReset s).wt = State.reset.wt := rfl
@[simp] theorem softReset_live : (softReset s).live = State.reset.live := rfl
@[simp] theorem softReset_pdm : (softReset s).pdm = s.pdm := rfl
@[simp] theorem softReset_inflight : (softReset s).inflight = State.reset.inflight := rfl
@[simp] theorem softReset_fault : (softReset s).fault = s.fault := rfl
@[simp] theorem softReset_resp : (softReset s).resp = s.resp := rfl
@[simp] theorem softReset_draws : (softReset s).draws = s.draws := rfl
@[simp] theorem softReset_inputs : (softReset s).inputs = s.inputs := rfl

end

@[simp] theorem avgClear_chunkCount (r : Results) : (avgClear r).chunkCount = r.chunkCount := rfl
@[simp] theorem avgClear_frameCount (r : Results) : (avgClear r).frameCount = r.frameCount := rfl
@[simp] theorem avgClear_avgCount (r : Results) : (avgClear r).avgCount = 0 := rfl
@[simp] theorem avgClear_pcmCount (r : Results) : (avgClear r).pcmCount = r.pcmCount := rfl
@[simp] theorem avgClear_avgWarm (r : Results) : (avgClear r).avgWarm = false := rfl
@[simp] theorem avgClear_ram (r : Results) : (avgClear r).ram = memClear r.ram avgBase specBase := rfl
@[simp] theorem avgClear_filt (r : Results) : (avgClear r).filt = r.filt := rfl
@[simp] theorem avgClear_fb (r : Results) : (avgClear r).fb = r.fb := rfl
@[simp] theorem avgClear_fill (r : Results) : (avgClear r).fill = r.fill := rfl

end Sys2Proof.Machine
end

