-- ==== Sys2Proof/Laws/Ops.lean ====
section
/-! SUPPORT. What each shared operation can do, said once. -/

namespace Sys2Proof.Machine

theorem busy_eq_false_iff (s : State) : s.busy = false ↔ s.inflight = none := by
  simp [State.busy]

theorem busy_eq_true_iff (s : State) : s.busy = true ↔ ∃ f, s.inflight = some f := by
  simp [State.busy, Option.isSome_iff_exists]

/-- A gated command is refused with E_STATE while BUSY = 1, and otherwise does its work. -/
theorem whenIdle_cases (s : State) (k : State → State) :
    (s.busy = true ∧ whenIdle s k = s.endCmd .state) ∨ (s.busy = false ∧ whenIdle s k = k s) := by
  unfold whenIdle
  cases h : s.busy
  · exact .inr ⟨rfl, rfl⟩
  · exact .inl ⟨rfl, rfl⟩

/-- A draw gives the live results when idle, and otherwise one of the two, using up one free choice. -/
theorem drawResults_cases (s : State) :
    (s.inflight = none ∧ drawResults s = (s.live, s)) ∨
    (∃ f, s.inflight = some f ∧ (drawResults s).2 = { s with draws := s.draws + 1 } ∧
      ((drawResults s).1 = f.pend ∨ (drawResults s).1 = s.live)) := by
  unfold drawResults
  cases h : s.inflight with
  | none => exact .inl ⟨rfl, rfl⟩
  | some f =>
    refine .inr ⟨f, rfl, rfl, ?_⟩
    cases Config.tornPick s.draws
    · exact .inr rfl
    · exact .inl rfl

/-- ACCEPT answers exactly when both configurations are there, and changes nothing but the in-flight chunk. -/
theorem accept_eq_some_iff (P : Config.Params) (h : BufHalf) (s t : State) :
    accept P h s = some t ↔ ∃ dc fc, s.dc = some dc ∧ s.fc = some fc ∧
      t = { s with inflight := some (InFlight.mk h
              (processChunk P dc fc s.wt (chunkBytes dc h s.pdm) (gainDb s.gain) s.live)) } := by
  unfold accept
  cases hd : s.dc with
  | none => simp
  | some dc =>
    cases hf : s.fc with
    | none => simp
    | some fc => simp [eq_comm]

/-- COMMIT publishes the pending results, or does nothing when no chunk is in flight. -/
theorem commit_cases (s : State) :
    (s.inflight = none ∧ commit s = s) ∨
    (∃ f, s.inflight = some f ∧ commit s = { s with live := f.pend, inflight := none }) := by
  unfold commit
  cases h : s.inflight with
  | none => exact .inl ⟨rfl, rfl⟩
  | some f => exact .inr ⟨f, rfl, rfl⟩

/-- What CFG_DEC can do. -/
theorem cfgDecAt_cases (P : Config.Params) (s : State) :
    (∃ e, cfgDecAt P s = s.endCmd e) ∨
    (s.inflight = none ∧ s.running = false ∧
      ∃ dc, decConfigOf P s.decCfg = .ok dc ∧ cfgDecAt P s = (latchDec P dc s).endCmd .ok) := by
  unfold cfgDecAt whenIdle
  cases hb : s.busy
  · cases hr : s.running
    · cases hd : decConfigOf P s.decCfg with
      | error e => exact .inl ⟨e, by simp [hr, hd]⟩
      | ok dc => exact .inr ⟨(busy_eq_false_iff s).1 hb, rfl, dc, rfl, by simp [hr, hd]⟩
    · exact .inl ⟨.state, by simp [hr]⟩
  · exact .inl ⟨.state, by simp⟩

/-- What CFG_FFT can do. -/
theorem cfgFftAt_cases (P : Config.Params) (s : State) :
    (∃ e, cfgFftAt P s = s.endCmd e) ∨
    (s.inflight = none ∧ s.running = false ∧
      ∃ fc, fftConfigOf P s.fftCfg s.overlap = .ok fc ∧ cfgFftAt P s = (latchFft fc s).endCmd .ok) := by
  unfold cfgFftAt whenIdle
  cases hb : s.busy
  · cases hr : s.running
    · cases hd : fftConfigOf P s.fftCfg s.overlap with
      | error e => exact .inl ⟨e, by simp [hr, hd]⟩
      | ok fc => exact .inr ⟨(busy_eq_false_iff s).1 hb, rfl, fc, rfl, by simp [hr, hd]⟩
    · exact .inl ⟨.state, by simp [hr]⟩
  · exact .inl ⟨.state, by simp⟩

/-- What a host-injected event can do when it answers a next state. -/
theorem hostEventAt_cases {P : Config.Params} {h : BufHalf} {s t : State}
    (hn : hostEventAt P h s = .next t) :
    t = s.endCmd .state ∨
    (s.inflight = none ∧ s.running = true ∧ ∃ u, accept P h s = some u ∧ t = u.endCmd .ok) := by
  unfold hostEventAt at hn
  split at hn
  · exact .inl (by injection hn with hn; exact hn.symm)
  · next hg =>
    have hg' : s.busy = false ∧ s.running = true := by simpa using hg
    split at hn
    · next u hu =>
      exact .inr ⟨(busy_eq_false_iff s).1 hg'.1, hg'.2, u, hu, by injection hn with hn; exact hn.symm⟩
    · cases hn

/-- What a port event can do when it answers a next state. -/
theorem portEventAt_cases {P : Config.Params} {h : BufHalf} {s t : State}
    (hn : portEventAt P h s = .next t) :
    (s.busy = true ∧ t = s.raiseOverrun) ∨
    (s.inflight = none ∧ s.running = true ∧ accept P h s = some t) ∨
    (s.inflight = none ∧ s.running = false ∧ t = s) := by
  unfold portEventAt at hn
  cases hb : s.busy
  · have hi := (busy_eq_false_iff s).1 hb
    cases hr : s.running
    · simp only [hb, hr] at hn
      exact .inr (.inr ⟨hi, rfl, by injection hn with hn; exact hn.symm⟩)
    · simp only [hb, hr, if_true] at hn
      refine .inr (.inl ⟨hi, rfl, ?_⟩)
      split at hn
      · next hc => cases hc
      · split at hn
        · next u hu => injection hn with hn; rw [hu, hn]
        · cases hn
  · simp only [hb, if_true] at hn
    exact .inl ⟨rfl, by injection hn with hn; exact hn.symm⟩

/-- What a bus read can do: an error response, or an OK response with the data of the results it sees. -/
theorem busReadAt_cases (P : Config.Params) (a n : Nat) (s : State) :
    (accessOk a n = false ∧ busReadAt P a n s = s.refuseBus) ∨
    (accessOk a n = true ∧ isResultWord a = true ∧
      busReadAt P a n s = (drawResults s).2.respond false (readData P s (drawResults s).1 a n)) ∨
    (accessOk a n = true ∧ isResultWord a = false ∧
      busReadAt P a n s = s.respond false (readData P s s.live a n)) := by
  unfold busReadAt
  cases accessOk a n <;> cases isResultWord a <;> simp

/-- What a bus write can do when it answers a next state. -/
theorem busWriteAt_cases {P : Config.Params} {a n : Nat} {v : Word} {s t : State}
    (hn : busWriteAt P a n v s = .next t) :
    t = s.refuseBus ∨
    (accessOk a n = true ∧ regionOf a = .control ∧ ctrlRegAt a = .cmd ∧ onCmdAt P v s = .next t) ∨
    (accessOk a n = true ∧ regionOf a = .control ∧ ctrlRegAt a ≠ .cmd ∧
      t = (ctrlWrite s v (ctrlRegAt a)).respond false 0) ∨
    (accessOk a n = true ∧ regionOf a = .pdmBuf ∧ hitsInFlight s (a - pdmBase) n = true ∧ t = s.raiseOverrun) ∨
    (accessOk a n = true ∧ regionOf a = .pdmBuf ∧ hitsInFlight s (a - pdmBase) n = false ∧
      t = (s.storePdm (a - pdmBase) n v.toNat).respond false 0) ∨
    (accessOk a n = true ∧ t = s.respond false 0) := by
  unfold busWriteAt at hn
  cases ha : accessOk a n
  · simp only [ha, if_true] at hn
    exact .inl (by injection hn with hn; exact hn.symm)
  · rw [if_neg (by simp [ha])] at hn
    cases hr : regionOf a <;> simp only [hr] at hn
    · split at hn
      · next hc => exact .inr (.inl ⟨rfl, rfl, hc, hn⟩)
      · next hc => exact .inr (.inr (.inl ⟨rfl, rfl, hc, by injection hn with hn; exact hn.symm⟩))
    · exact .inr (.inr (.inr (.inr (.inr ⟨rfl, by injection hn with hn; exact hn.symm⟩))))
    · split at hn
      · next hc => exact .inr (.inr (.inr (.inl ⟨rfl, rfl, hc, by injection hn with hn; exact hn.symm⟩)))
      · next hc =>
        exact .inr (.inr (.inr (.inr (.inl
          ⟨rfl, rfl, by simpa using hc, by injection hn with hn; exact hn.symm⟩))))
    · exact .inr (.inr (.inr (.inr (.inr ⟨rfl, by injection hn with hn; exact hn.symm⟩))))
    · exact .inr (.inr (.inr (.inr (.inr ⟨rfl, by injection hn with hn; exact hn.symm⟩))))

/-- ON_CMD runs a command or is BAD_COMMAND. -/
theorem onCmdAt_cases (P : Config.Params) (w : Word) (s : State) :
    (∃ op, decodeCmdOp w = .ok op ∧ onCmdAt P w s = runCmdOpAt P op s) ∨
    (∃ e, decodeCmdOp w = .error e ∧ onCmdAt P w s = .next (badCommand s)) := by
  unfold onCmdAt
  cases h : decodeCmdOp w with
  | error e => exact .inr ⟨e, rfl, rfl⟩
  | ok op => exact .inl ⟨op, rfl, rfl⟩

/-- The meaning of an opcode is the meaning of the instruction it names. -/
theorem runCmdOpAt_eq_execAt (P : Config.Params) (op : CmdOp) (s : State) :
    runCmdOpAt P op s = execAt P op.toInstr s := by
  cases op <;> rfl

/-- The machine's meanings are the parametric ones at its own parameters (10_state.md R65). -/
theorem exec_eq_execAt (i : Instr) (s : State) : exec i s = execAt machineParams i s := by
  cases i <;> rfl

/-- The machine's step is the parametric one at its own parameters (10_state.md R65). -/
theorem step_eq_stepAt (s : State) : step s = stepAt machineParams s :=
  congrArg (fun ex => nextStepWith ex s) (funext fun i => funext fun t => exec_eq_execAt i t)

/-- The machine's command opcodes run as exec says. -/
theorem runCmdOpAt_eq_exec (op : CmdOp) (s : State) : runCmdOpAt machineParams op s = exec op.toInstr s := by
  rw [exec_eq_execAt, runCmdOpAt_eq_execAt]

/-- Where a step that answers a next state comes from, whatever the instructions mean. -/
theorem nextStepWith_cases {ex : Meaning} {s t : State} (h : nextStepWith ex s = .next t) :
    s.fault = .none ∧
    ((s.inputs = [] ∧ t = commit s) ∨
      ∃ i rest, s.inputs = i :: rest ∧ runInputWith ex i { s with inputs := rest } = .next t) := by
  unfold nextStepWith at h
  split at h
  · cases h
  · next hf =>
    refine ⟨hf, ?_⟩
    split at h
    · next hi => exact .inl ⟨hi, by injection h with h; exact h.symm⟩
    · next i rest hi => exact .inr ⟨i, rest, hi, h⟩

/-- Where a step that answers a next state comes from. -/
theorem step_cases {s t : State} (h : step s = .next t) :
    s.fault = .none ∧
    ((s.inputs = [] ∧ t = commit s) ∨
      ∃ i rest, s.inputs = i :: rest ∧ runInputWith exec i { s with inputs := rest } = .next t) :=
  nextStepWith_cases h

/-- Decoded bits run as an instruction, or are rejected. -/
theorem runDecoded_cases {ex : Meaning} {d : Except Reject Instr} {s t : State} (h : runDecoded ex d s = .next t) :
    (∃ ins, d = .ok ins ∧ ex ins s = .next t) ∨ (∃ r, d = .error r ∧ t = runRejected r s) := by
  cases d with
  | ok ins => exact .inl ⟨ins, rfl, h⟩
  | error r => exact .inr ⟨r, rfl, by injection h with h; exact h.symm⟩

/-- What an input that answers a next state did: a capture write, a commit, an instruction, or rejected bits. -/
theorem runInputWith_cases {ex : Meaning} {i : Input} {s t : State} (h : runInputWith ex i s = .next t) :
    (∃ off b, i = .cap off b ∧ t = captureWrite off b s) ∨
    (i = .commit ∧ t = commit s) ∨
    (∃ ins, decodeInput i = some (.ok ins) ∧ ex ins s = .next t) ∨
    (∃ r, decodeInput i = some (.error r) ∧ t = runRejected r s) := by
  have encoded : ∀ d, decodeInput i = some d → runDecoded ex d s = .next t →
      (∃ ins, decodeInput i = some (.ok ins) ∧ ex ins s = .next t) ∨
      (∃ r, decodeInput i = some (.error r) ∧ t = runRejected r s) := fun d hd hr => by
    rcases runDecoded_cases hr with ⟨ins, rfl, hx⟩ | ⟨r, rfl, ht⟩
    · exact .inl ⟨ins, hd, hx⟩
    · exact .inr ⟨r, hd, ht⟩
  cases i with
  | cap off b => exact .inl ⟨off, b, rfl, by injection h with h; exact h.symm⟩
  | commit => exact .inr (.inl ⟨rfl, by injection h with h; exact h.symm⟩)
  | cmd w => exact .inr (.inr (encoded _ rfl h))
  | evt c => exact .inr (.inr (encoded _ rfl h))
  | bus d v => exact .inr (.inr (encoded _ rfl h))

end Sys2Proof.Machine
end

