-- ==== Sys2Proof/Laws/Parameters.lean ====
section
/-! SUPPORT. All that is known of the machine's parameters (00_scope.md R9). -/

namespace Sys2Proof.Machine

theorem machineParams_ok : ParamsOk machineParams := machineInstance.2

end Sys2Proof.Machine
end

