-- ==== Sys2Proof/Laws/PerInstr.lean ====
section
/-! SUPPORT. Laws stated once for every instruction. -/

/-- The encoded record of an instruction has the length of its interface's record, so the decoder never rejects
it for its length (30_encoding.md R130; log 21). -/
def Sys2Proof.Laws.RecordLength.Statement (i : Sys2Proof.Instr) : Prop :=
  (Sys2Proof.encode i).length = i.form.bytes

theorem Sys2Proof.Laws.leBytes_length : ∀ n v, (Sys2Proof.leBytes n v).length = n
  | 0, _ => rfl
  | n + 1, v => congrArg (· + 1) (leBytes_length n (v / 2 ^ 8))

theorem Sys2Proof.Laws.busRecord_length (k : Nat) (a : Sys2Proof.Offset) (d : Sys2Proof.Word) :
    (Sys2Proof.busRecord k a d).length = 7 := by
  simp [Sys2Proof.busRecord, Sys2Proof.Laws.leBytes_length]

theorem Sys2Proof.Laws.RecordLength.nop :
    Sys2Proof.Laws.RecordLength.Statement .nop :=
  Sys2Proof.Laws.leBytes_length _ _

theorem Sys2Proof.Laws.RecordLength.cfgDec :
    Sys2Proof.Laws.RecordLength.Statement .cfgDec :=
  Sys2Proof.Laws.leBytes_length _ _

theorem Sys2Proof.Laws.RecordLength.cfgFft :
    Sys2Proof.Laws.RecordLength.Statement .cfgFft :=
  Sys2Proof.Laws.leBytes_length _ _

theorem Sys2Proof.Laws.RecordLength.avgReset :
    Sys2Proof.Laws.RecordLength.Statement .avgReset :=
  Sys2Proof.Laws.leBytes_length _ _

theorem Sys2Proof.Laws.RecordLength.start :
    Sys2Proof.Laws.RecordLength.Statement .start :=
  Sys2Proof.Laws.leBytes_length _ _

theorem Sys2Proof.Laws.RecordLength.stop :
    Sys2Proof.Laws.RecordLength.Statement .stop :=
  Sys2Proof.Laws.leBytes_length _ _

theorem Sys2Proof.Laws.RecordLength.evtHalf :
    Sys2Proof.Laws.RecordLength.Statement .evtHalf :=
  Sys2Proof.Laws.leBytes_length _ _

theorem Sys2Proof.Laws.RecordLength.evtFull :
    Sys2Proof.Laws.RecordLength.Statement .evtFull :=
  Sys2Proof.Laws.leBytes_length _ _

theorem Sys2Proof.Laws.RecordLength.softReset :
    Sys2Proof.Laws.RecordLength.Statement .softReset :=
  Sys2Proof.Laws.leBytes_length _ _

theorem Sys2Proof.Laws.RecordLength.half :
    Sys2Proof.Laws.RecordLength.Statement .half :=
  Sys2Proof.Laws.leBytes_length _ _

theorem Sys2Proof.Laws.RecordLength.full :
    Sys2Proof.Laws.RecordLength.Statement .full :=
  Sys2Proof.Laws.leBytes_length _ _

theorem Sys2Proof.Laws.RecordLength.rd8 (a : Sys2Proof.Offset) :
    Sys2Proof.Laws.RecordLength.Statement (.rd8 a) :=
  Sys2Proof.Laws.busRecord_length _ _ _

theorem Sys2Proof.Laws.RecordLength.rd16 (a : Sys2Proof.Offset) :
    Sys2Proof.Laws.RecordLength.Statement (.rd16 a) :=
  Sys2Proof.Laws.busRecord_length _ _ _

theorem Sys2Proof.Laws.RecordLength.rd32 (a : Sys2Proof.Offset) :
    Sys2Proof.Laws.RecordLength.Statement (.rd32 a) :=
  Sys2Proof.Laws.busRecord_length _ _ _

theorem Sys2Proof.Laws.RecordLength.wr8 (a : Sys2Proof.Offset) (d : Sys2Proof.Word) :
    Sys2Proof.Laws.RecordLength.Statement (.wr8 a d) :=
  Sys2Proof.Laws.busRecord_length _ _ _

theorem Sys2Proof.Laws.RecordLength.wr16 (a : Sys2Proof.Offset) (d : Sys2Proof.Word) :
    Sys2Proof.Laws.RecordLength.Statement (.wr16 a d) :=
  Sys2Proof.Laws.busRecord_length _ _ _

theorem Sys2Proof.Laws.RecordLength.wr32 (a : Sys2Proof.Offset) (d : Sys2Proof.Word) :
    Sys2Proof.Laws.RecordLength.Statement (.wr32 a d) :=
  Sys2Proof.Laws.busRecord_length _ _ _
end

