-- ==== Sys2Proof/Tests/Slice0.lean ====
section
/-! SUPPORT. Tests. The expected results are the vectors of 95_test_vectors.md, named in each comment; the words are
written out from the encodings of 30_encoding.md. A theorem witness_X shows a state and operands that meet every
hypothesis of Obligations.X, a clause at a time, at the ends of its ranges. -/

namespace Sys2Proof.Tests

open Sys2Proof Sys2Proof.Machine Sys2Proof.Safety Sys2Proof.Rules

/-! ### Decoding and well-formedness -/

/-- V-ENC-1: OP in bits 7:0. -/
theorem test_decode_commands :
    [0x00000000, 0x00000001, 0x00000002, 0x00000003, 0x00000004, 0x00000005, 0x00000006, 0x00000007,
      0x00000008].map (decodeTableWord 32) =
    [Instr.nop, .cfgDec, .cfgFft, .avgReset, .start, .stop, .evtHalf, .evtFull, .softReset].map some := by decide

/-- V-ENC-2, V-ENC-3. -/
theorem test_decode_reserved_commands :
    decodeCmd 0x00000009 = .error .reservedOp ∧ decodeCmd 0x000000FF = .error .reservedOp ∧
    decodeCmd 0x00000103 = .error .mbzNotZero ∧ decodeCmd 0x80000000 = .error .mbzNotZero := by decide

/-- V-ENC-9. -/
theorem test_decode_events :
    [0b01, 0b10, 0b00, 0b11].map (decodeTableWord 8) = [some .half, some .full, none, none] := by decide

/-- R135: DIR in bit 18, SIZE in 17:16, ADDR in 15:0; V-ENC-11 is the last. -/
theorem test_decode_reads :
    [0b0000001000000000101, 0b0010001000000000010, 0b0100000000000000100, 0b0110000000000000100].map
        (decodeTableWord 24) =
      [some (Instr.rd8 0x1005), some (Instr.rd16 0x1002), some (Instr.rd32 0x0004), none] := by decide

/-- R135: a write of n bytes takes the low 8·n bits of WDATA. -/
theorem test_decode_writes :
    decodeBus 0b1000010000000000101 0xDDCCBBAA = .ok (.wr8 0x2005 0xAA) ∧
    decodeBus 0b1010010000000000110 0xDDCCBBAA = .ok (.wr16 0x2006 0xBBAA) ∧
    decodeBus 0b1100000000000001100 0xDDCCBBAA = .ok (.wr32 0x000C 0xDDCCBBAA) := by decide

theorem test_decode_refuses_bytes_of_no_form :
    decode .evt [0b100] = .error .notAWord ∧ decode .bus [0, 0, 0x08, 0, 0, 0, 0] = .error .notAWord ∧
    decode .cmd [0, 0, 0] = .error .notAWord := by decide

/-- The smoke test of WellFormed: a narrow write whose value does not fit is refused, one that does is not. -/
theorem test_wellFormed :
    (Instr.wr8 0x2000 0x100).wellFormed = false ∧ (Instr.wr16 0x2000 0x10000).wellFormed = false ∧
    (Instr.wr8 0x2000 0xFF).wellFormed = true ∧ (Instr.wr16 0x2000 0xFFFF).wellFormed = true := by decide

/-! ### States of the tests -/

/-- What `f` shows of the next state. -/
def shows {α : Type} (o : Host.Outcome State Fault Refusal) (f : State → α) : Option α :=
  match o with
  | .next t => some (f t)
  | .fault _ => none
  | .refused _ => none

/-- DC of DEC_CFG = 0x00020110: ratio 16, one channel, two samples, H = 4. -/
def dcMono : DecConfig :=
  { code := 0, r := 16, rp := 16, casc := false, cin := 1, cout := 1, bord := false, endn := false, nout := 2,
    nfin := 2, hbytes := 4 }

/-- FC of FFT_CFG = 0x00000101: T = 2, rectangular, magnitude. -/
def fcMono : FftConfig :=
  { lt := 1, t := 2, nb := 2, win := .rectangular, outk := .magnitude, chsel := 0, ovl := 0, rret := 0 }

/-- Both configurations latched, running, no chunk in flight. -/
def idle : State :=
  { State.reset with
    decCfg := 0x00020110, fftCfg := 0x00000101, dc := some dcMono, fc := some fcMono, halfBytes := 4, nbins := 2,
    wt := windowTable .rectangular 2, running := true,
    live := { Results.reset with filt := [zeroChan machineParams dcMono], fb := [0, 0] } }

/-- A chunk of region h in flight; its results count one chunk. -/
def busyWith (h : BufHalf) : State :=
  { idle with inflight := some ⟨h, { idle.live with chunkCount := 1, pcmCount := 2 }⟩ }

/-- The next step of an agent. -/
def withInput (i : Input) (s : State) : State := { s with inputs := [i] }

/-- The parameters of the reference instance REF, but for ATAN2 off the axes (95_test_vectors.md). -/
def refParams : Config.Params where
  cMax := 4
  log2tMax := 12
  hbPresent := true
  kCic := fun _ => 1
  mCic := fun _ => 1
  firCoef := fun _ => [1]
  hbCoef := [1 / 4, 1 / 2, 1 / 4]
  gainLin := fun d => if 0 ≤ d then 2 ^ (d / 6).toNat else 1 / 2 ^ (-(d / 6)).toNat
  rfft := fun t y k =>
    let at' (f : Nat → Int) : F32 := f32Round false ((y.zipIdx.map fun p => f (k * p.2) * f32Units p.1).sum) (2 ^ 149)
    let cos (j : Nat) : Int := if t = 4 then [1, 0, -1, 0].getD (j % 4) 0 else [1, -1].getD (j % 2) 0
    let sin (j : Nat) : Int := if t = 4 then [0, 1, 0, -1].getD (j % 4) 0 else 0
    (at' cos, at' fun j => -sin j)
  atan2 := axisPhase
  epsFft := 1
  epsAtan := 7

/-- REF configured from the three registers and started. -/
def configured (dec fft ovl : Word) : State :=
  let s := cfgFftAt refParams (cfgDecAt refParams { State.reset with decCfg := dec, fftCfg := fft, overlap := ovl })
  { s with running := true }

/-- A chunk of region h with the given bytes, accepted and committed. -/
def chunk (h : BufHalf) (off : Nat) (bs : List Byte) (s : State) : Option State :=
  (accept refParams h { s with pdm := writeLE s.pdm (pdmBase + off) bs.length (leNat bs) }).map commit

/-! ### Commands -/

/-- V-CMD-24. -/
theorem test_nop : shows (exec .nop { busyWith .A with errcode := 5 }) (·.errcode) = some 0 := by decide

def decCode (dec : Word) : Option (BitVec 8 × Word) :=
  shows (execAt refParams .cfgDec { State.reset with decCfg := dec }) fun t => (t.errcode, t.halfBytes)

/-- V-CMD-2 to V-CMD-6, V-CMD-8 to V-CMD-13, V-DEC-12. -/
theorem test_cfgDec :
    [0x00040119, 0x00040109, 0x00040100, 0x00040250, 0x00040210, 0x00000110, 0x00030117, 0x01000146, 0x02000110,
      0x08010440, 0x00012111, 0x00040117].map decCode =
    [(1, 0), (1, 0), (2, 0), (2, 0), (2, 0), (4, 0), (4, 0), (4, 0), (0, 1024), (4, 0), (4, 0), (0, 40)].map some := by
  decide

/-- V-CMD-7: HB_PRESENT = false is E_RESOURCE_EXHAUSTED, by a step from reset. -/
theorem test_cfgDec_without_halfband :
    shows (stepAt { refParams with hbPresent := false }
      { State.reset with decCfg := 0x00040117, inputs := [.cmd 0x00000001] }) (·.errcode) = some 3 := by decide

def fftCode (fft ovl : Word) : Option (BitVec 8) :=
  shows (execAt refParams .cfgFft { State.reset with fftCfg := fft, overlap := ovl }) (·.errcode)

/-- V-CMD-14 to V-CMD-19. -/
theorem test_cfgFft_codes :
    [(0x00000000, 0), (0x0000000D, 0), (0x00000062, 0), (0x00000302, 0), (0x00000361, 0xC000),
      (0x00000001, 0xC000)].map (fun p => fftCode p.1 p.2) = [5, 5, 7, 8, 7, 6].map some := by decide

/-- V-WIN-1, T = 4, Hann; P1's NBINS. -/
theorem test_cfgFft_latches :
    shows (execAt refParams .cfgFft { State.reset with fftCfg := 0x00000022 }) (fun t => (t.wt, t.nbins, t.live.fb)) =
      some ([0x00000000, 0x3f400000, 0x3f400000, 0x00000000], 3, [0, 0, 0, 0]) := by decide +kernel

/-- V-CMD-27, V-AVG-7. -/
theorem test_avgReset :
    shows (exec .avgReset { idle with live := { idle.live with avgCount := 3, avgWarm := true, ram := [(0x4000, 1)] } })
      (fun t => (t.errcode, t.live.avgCount, t.live.avgWarm, t.live.ram)) = some (0, 0, false, []) := by decide

/-- V-CMD-1, V-CMD-20, V-CMD-21, and START with both configurations. -/
theorem test_start :
    [State.reset, { idle with running := false, fc := some { fcMono with chsel := 1 } }, idle,
      { idle with running := false }].map (fun s => shows (exec .start s) fun t => (t.errcode, t.running)) =
    [(9, false), (10, false), (11, true), (0, true)].map some := by decide

/-- V-CMD-23, V-CMD-26. -/
theorem test_stop :
    [busyWith .A, State.reset, idle].map (fun s => shows (exec .stop s) fun t => (t.errcode, t.running)) =
    [(11, true), (0, false), (0, false)].map some := by decide

/-- V-CMD-22, R377: the in-flight region is A. -/
theorem test_evtHalf :
    [State.reset, idle].map (fun s => shows (exec .evtHalf s) fun t => (t.errcode, t.inflight.map (·.breg))) =
    [(11, none), (0, some .A)].map some := by decide

/-- V-CMD-23, R378: the in-flight region is B. -/
theorem test_evtFull :
    [busyWith .A, idle].map (fun s => shows (exec .evtFull s) fun t => (t.errcode, t.inflight.map (·.breg))) =
    [(11, some .A), (0, some .B)].map some := by decide

/-- V-CMD-25. -/
theorem test_softReset :
    shows (exec .softReset { busyWith .A with pdm := [(0x2000, 0x5A)], errcode := 4 })
      (fun t => (t.errcode, [t.busy, t.running, t.dc.isSome], t.pdm)) =
    some (0, [false, false, false], [(0x2000, 0x5A)]) := by decide

/-! ### Events, capture, commit -/

/-- V-EVT-1 to V-EVT-3. -/
theorem test_half :
    [State.reset, idle, busyWith .B].map (fun s => shows (exec .half s) fun t => (t.inflight.map (·.breg), t.fault)) =
    [(none, .none), (some .A, .none), (some .B, .overrun)].map some := by decide

theorem test_full :
    [State.reset, idle, busyWith .A].map (fun s => shows (exec .full s) fun t => (t.inflight.map (·.breg), t.fault)) =
    [(none, .none), (some .B, .none), (some .A, .overrun)].map some := by decide

/-- V-EVT-4, V-EVT-5, V-EVT-8. -/
theorem test_capture :
    [3, 4, 8].map (fun off => shows (step (withInput (.cap off 0) (busyWith .A))) fun t => (t.fault, t.pdm)) =
    [(.overrun, []), (.none, [(0x2004, 0)]), (.none, [(0x2008, 0)])].map some := by decide

/-- P1: the bytes FF FF FF F0 end as PCM_OUT [32767, 16384] and the same SPEC and AVG. -/
theorem test_chunk_of_program_P1 :
    (chunk .A 0 [0xFF, 0xFF, 0xFF, 0xF0] (configured 0x00020110 0x00000101 0)).map (fun t =>
      ([0x1000, 0x8000, 0x8004, 0x4000, 0x4004].map (readWord t.live.ram),
        [t.live.chunkCount, t.live.frameCount, t.live.avgCount, t.live.pcmCount], t.live.avgWarm, t.live.fill)) =
    some ([0x40007FFF, 0x3FBFFF00, 0x3EFFFC00, 0x3FBFFF00, 0x3EFFFC00], [1, 1, 1, 2], true, 0) := by
  decide +kernel

/-- P4: the byte swap, two channels, channel 1 selected, phase; the second chunk at 6 dB saturates. -/
theorem test_chunks_of_program_P4 :
    ((chunk .A 0 [0x0F, 0xFF, 0x00, 0xFF] (configured 0x00013220 0x00000601 0)).bind fun t =>
      (chunk .B 4 [0xFF, 0x01, 0x3F, 0x01] { t with gain := 6 }).map fun u =>
        (readWord t.live.ram 0x1000, [0x1000, 0x8000, 0x8004, 0x4000, 0x4004].map (readWord u.live.ram))) =
    some (0xC0007FFF, [0x7FFF8000, 0x00000000, 0x40490FDB, 0x3EFFFC00, 0x3FBFFF00]) := by decide +kernel

/-! ### Bus transactions -/

/-- V-BUS-1 to V-BUS-5, V-BUS-7. -/
theorem test_rd32 :
    [0x000, 0x03C, 0x002, 0x040, 0xFFC, 0x00C].map (fun a => shows (execAt refParams (.rd32 a) State.reset) (·.resp)) =
    [⟨false, 0x50444D01⟩, ⟨false, 0x0000014C⟩, ⟨true, 0⟩, ⟨false, 0⟩, ⟨false, 0⟩, ⟨false, 0⟩].map
      (fun r : BusResp => some (some r)) := by decide

/-- V-BUS-4, V-BUS-11, V-BUS-12, V-BUS-16. -/
theorem test_rd16 :
    let s := { State.reset with
      pdm := writeLE [] 0x2000 4 0x44332211
      live := { Results.reset with ram := writeHalves [] 0x1000 [32767, 16384] } }
    [0x004, 0x2002, 0x1002, 0x4000].map (fun a => shows (exec (.rd16 a) s) (·.resp)) =
    [⟨true, 0⟩, ⟨false, 0x4433⟩, ⟨false, 0x4000⟩, ⟨true, 0⟩].map (fun r : BusResp => some (some r)) := by decide

/-- V-BUS-11, V-BUS-14. -/
theorem test_rd8 :
    let s := { State.reset with pdm := writeLE [] 0x2000 4 0x44332211 }
    [0x2001, 0x1000].map (fun a => shows (exec (.rd8 a) s) (·.resp)) =
    [⟨false, 0x22⟩, ⟨true, 0⟩].map (fun r : BusResp => some (some r)) := by decide

/-- V-BUS-8 to V-BUS-10, V-BUS-17. -/
theorem test_wr32 :
    [0x010, 0x018, 0x014, 0x4000].map (fun a => shows (exec (.wr32 a 0xFFFFFFFF) State.reset)
      fun t => [t.decCfg, t.fftCfg, t.gain, readWord t.live.ram 0x4000]) =
    [[0x0FFF3FFF, 0, 0, 0], [0, 0x00003F7F, 0, 0], [0, 0, 0x000000FF, 0], [0, 0, 0, 0]].map some := by decide

/-- V-EVT-7, V-BUS-15, R92. -/
theorem test_wr16 :
    [(busyWith .B, 0x2006), (idle, 0x2006), (idle, 0x1000)].map (fun p => shows (exec (.wr16 p.2 0xBBAA) p.1)
      fun t => (t.fault, t.pdm)) =
    [(.overrun, []), (.none, [(0x2006, 0xAA), (0x2007, 0xBB)]), (.none, [])].map some := by decide

/-- V-RST-4, R96. -/
theorem test_wr8 :
    [0x2000, 0x004].map (fun a => shows (exec (.wr8 a 0x5A) State.reset) fun t => (t.pdm, t.resp)) =
    [([(0x2000, 0x5A)], some ⟨false, 0⟩), ([], some ⟨true, 0⟩)].map some := by decide

/-- V-EVT-11: AVG_WARM is a result word, the other bits are not. -/
theorem test_status_while_busy :
    [false, true].map (statusWord { busyWith .A with errcode := 3 }) = [0x0000000F, 0x0000001F] := by decide

/-! ### Operations -/

/-- V-DEC-1 to V-DEC-3. -/
theorem test_chunk_bytes_and_bits :
    endianPrep true [0x12, 0x34, 0x56, 0x78] = [0x34, 0x12, 0x78, 0x56] ∧
    chBytes { dcMono with cin := 2, nout := 1 } [0xA0, 0xB0, 0xA1, 0xB1] 1 = [0xB0, 0xB1] ∧
    byteBits false 0xC1 = [true, true, false, false, false, false, false, true] ∧
    byteBits true 0xC1 = [true, false, false, false, false, false, true, true] := by decide

/-- V-DEC-7 to V-DEC-11. -/
theorem test_scale :
    [((1 : Rat), 0), (-1, 0), (1 / 2, 0), (-1 / 2, 0), (1 / 2, 6), (1 / 2, -6), (1 / 8, -78), (-1 / 8, -78),
      (1 / 3, 0)].map (fun p => scale refParams p.1 p.2) =
    [32767, -32768, 16384, -16384, 32767, 8192, 1, -1, 10923] := by decide +kernel

/-- V-DEC-14, V-DEC-15. -/
theorem test_halfband :
    halfband refParams.hbCoef ⟨[0, 0], false⟩ [32767, 32767, 32767, 32767] =
      (⟨[32767, 32767], false⟩, [24575, 32767]) ∧
    halfband refParams.hbCoef ⟨[32767, 32767], false⟩ [0, 0, -32768, -32768] =
      (⟨[-32768, -32768], false⟩, [8192, -24576]) := by decide +kernel

/-- Hand-worked from R206 and R207: K = 2, M = 1, R = 4 over four ones from zero state; then two FIR taps. -/
theorem test_cic_of_order_two :
    let P := { refParams with kCic := fun _ => 2, firCoef := fun _ => [1, 2] }
    cic P 4 ⟨[0, 0], [[0], [0]], [3], none⟩ [true, true, true, true] =
      (⟨[4, 10], [[10], [10]], [3], none⟩, 5 / 8) ∧
    fir P 4 ⟨[], [], [3], none⟩ (5 / 8) = (⟨[], [], [5 / 8], none⟩, 53 / 8) := by decide +kernel

/-- V-OVL-1. -/
theorem test_retained :
    [(0x4000, 8), (0x1000, 8), (0x0FFF, 8), (0xBFFF, 2), (0xC000, 2), (0xFFDF, 1024), (0xFFE0, 1024), (0xFFF8, 4096)].map
      (fun p : Nat × Nat => retained p.1 p.2) = [2, 1, 0, 1, 2, 1023, 1024, 4096] := by decide

/-- V-OVL-4. -/
theorem test_shiftFrame :
    shiftFrame { fcMono with t := 4, rret := 2 } [1, 2, 3, 4] = [3, 4, 3, 4] ∧
    shiftFrame { fcMono with t := 4, rret := 3 } [1, 2, 3, 4] = [2, 3, 4, 4] := by decide

/-- V-WIN-1, T = 8. -/
theorem test_window_tables :
    windowTable .blackmanHarris 8 = [0x387ba882, 0x3d08c5c3, 0x3eaa6927, 0x3f63adbd, 0x3f63adbd, 0x3eaa6927, 0x3d08c5c3,
      0x387ba882] ∧
    windowTable .tukey75 8 = [0x00000000, 0x3ea27903, 0x3f5dd4a5, 0x3f800000, 0x3f800000, 0x3f5dd4a5, 0x3ea27903,
      0x00000000] := by decide +kernel

/-- V-WIN-2. -/
theorem test_windowed :
    windowed [0x00000000, 0x3f400000, 0x3f400000, 0x00000000] [16384, 16384, -16384, -16384] =
      [0x00000000, 0x3ec00000, 0xbec00000, 0x80000000] := by decide +kernel

/-- V-FFT-7 to V-FFT-10. -/
theorem test_mag :
    [(0x40400000, 0x40800000), (0xBEFFFC00, 0xBF000000), (0x9C800000, 0x00000000), (0x1A000000, 0x00000000)].map mag =
      [0x40A00000, 0x3f350389, 0x1C800000, 0x00000000] := by decide +kernel

/-- V-FFT-11 to V-FFT-13, as (im, re). -/
theorem test_phase_on_the_axes :
    [(0x00000000, 0xBF800000), (0x80000000, 0xBF800000), (0x00000000, 0x80000000), (0x80000000, 0x80000000),
      (0x00000000, 0x3F800000), (0x80000000, 0x3F800000)].map (fun p => refParams.atan2 p.1 p.2) =
      [0x40490fdb, 0xc0490fdb, 0x00000000, 0x00000000, 0x00000000, 0x80000000] := by decide +kernel

/-- V-AVG-3, V-AVG-5, V-AVG-6. -/
theorem test_average :
    avgStep (f32OfInt 3) 0x40000000 0x3f800000 = 0x3fd55555 ∧ f32OfInt 16777217 = f32OfInt 16777216 ∧
    avgStep (f32OfInt (2 ^ 32 - 1)) 0x3f800000 0x00000000 = 0x3f800000 ∧ satInc 0xFFFFFFFF = 0xFFFFFFFF := by
  decide +kernel

/-! ### Witnesses -/

theorem witness_ReservedCommandWordIsBadCommand :
    (∀ w ∈ [(0x00000009 : Word), 0x000000FF, 0x00000100, 0xFFFFFFFF], w.toNat / 2 ^ 8 ≠ 0 ∨ 9 ≤ w.toNat % 2 ^ 8) ∧
    (withInput (.cmd 0x00000009) idle).fault = .none ∧
    (withInput (.cmd 0x00000009) idle).inputs = .cmd 0x00000009 :: [] := ⟨by simp, rfl, rfl⟩

/-- A state for every branch of CFG_DEC: in flight, running, and each code (test_cfgDec has the codes 1 to 4 and 0). -/
theorem witness_CfgDecChecksThenLatches :
    ((busyWith .A).inflight ≠ none ∧ idle.running = true) ∧
    (cfgDecAt machineParams (busyWith .A)).errcode = 11 ∧ (cfgDecAt machineParams idle).errcode = 11 ∧
    decCode 0x00020110 = some (0, 4) ∧
    (cfgDecAt refParams { State.reset with decCfg := 0x00020110 }).dc = some dcMono := by decide

theorem witness_CfgFftChecksThenLatches :
    ((busyWith .A).inflight ≠ none ∧ idle.running = true) ∧
    (cfgFftAt machineParams (busyWith .A)).errcode = 11 ∧ (cfgFftAt machineParams idle).errcode = 11 ∧
    fftCode 0x00000101 0 = some 0 ∧
    (cfgFftAt refParams { State.reset with fftCfg := 0x00000101 }).fc = some fcMono := by decide

theorem witness_AvgResetEmptiesTheAverager : (busyWith .A).inflight ≠ none ∧ idle.inflight = none := by decide

/-- Each clause of START; the channel select one past the last channel, and the last channel. -/
theorem witness_StartChecksThenRuns :
    (busyWith .A).inflight ≠ none ∧ idle.running = true ∧
    (State.reset.inflight = none ∧ State.reset.running = false ∧ State.reset.dc = none) ∧
    (let s := { idle with running := false }
     s.inflight = none ∧ s.running = false ∧ s.dc = some dcMono ∧ s.fc = some fcMono ∧
      dcMono.cout ≤ { fcMono with chsel := 1 }.chsel ∧ fcMono.chsel < dcMono.cout) := by decide

theorem witness_StopClearsRunning : idle.inflight = none ∧ (busyWith .A).inflight ≠ none := by decide

theorem witness_HostEventsAcceptTheirRegion :
    (busyWith .B).inflight ≠ none ∧ State.reset.running = false ∧
    idle.inflight = none ∧ idle.running = true ∧ idle.dc = some dcMono ∧ idle.fc = some fcMono ∧
    dcMono.hbytes ≤ 4096 := by decide

theorem witness_CommandsWriteOnlyTheirCodes :
    (∃ t, exec CmdOp.start.toInstr State.reset = .next t) ∧
    (∃ t, (∀ i, decodeCmd 0x00000009 ≠ .ok i) ∧ exec (.wr32 0x00C 0x00000009) State.reset = .next t) ∧
    (∃ t, exec (.rd32 0x000) State.reset = .next t ∧ (Instr.rd32 0x000).form ≠ .cmd ∧
      ∀ v, Instr.rd32 0x000 ≠ .wr32 0x00C v) ∧
    (∃ t, exec (.wr32 0x008 0) State.reset = .next t ∧ ∀ v, Instr.wr32 0x008 0 ≠ .wr32 0x00C v) ∧
    (∃ t, (withInput .commit (busyWith .A)).inputs = .commit :: [] ∧ step (withInput .commit (busyWith .A)) = .next t) ∧
    ∃ t, step (withInput (.cap 3 0) (busyWith .A)) = .next t :=
  ⟨⟨_, rfl⟩, ⟨_, fun i h => (by cases h), rfl⟩, ⟨_, rfl, by decide, fun v h => by simp at h⟩, ⟨_, rfl, fun v h => by simp at h⟩, ⟨_, rfl, rfl⟩, ⟨_, rfl⟩⟩

theorem witness_PortEventsFollowTheOutcomeTable :
    (State.reset.inflight = none ∧ State.reset.running = false) ∧
    (idle.inflight = none ∧ idle.running = true ∧ idle.dc = some dcMono ∧ idle.fc = some fcMono ∧
      dcMono.hbytes ≤ 4096) ∧
    (busyWith .A).inflight ≠ none := by decide

theorem witness_CommitPublishesThePendingResults :
    (withInput .commit (busyWith .B)).fault = .none ∧ (withInput .commit (busyWith .B)).inflight.isSome = true ∧
    (withInput .commit (busyWith .B)).inputs = .commit :: [] ∧ (busyWith .B).inputs = [] := by decide

/-- The first and the last byte of each region (H = 4), by every width and by the capture port. -/
theorem witness_WriteIntoInFlightRegionOverruns :
    ((1, Instr.wr8 0x2000 0) ∈ writes 0x2000 0 ∧ meetsInFlight (busyWith .A) 0 1) ∧
    ((4, Instr.wr32 0x2000 0) ∈ writes 0x2000 0 ∧ meetsInFlight (busyWith .A) 0 4) ∧
    ((2, Instr.wr16 0x2006 0) ∈ writes 0x2006 0 ∧ meetsInFlight (busyWith .B) 6 2) ∧
    ((withInput (.cap 7 0) (busyWith .B)).fault = .none ∧
      meetsInFlight (withInput (.cap 7 0) (busyWith .B)) (7 : BitVec 13).toNat 1) :=
  ⟨⟨by decide, _, dcMono, 0, rfl, rfl, by decide⟩, ⟨by decide, _, dcMono, 3, rfl, rfl, by decide⟩,
    ⟨by decide, _, dcMono, 7, rfl, rfl, by decide⟩, by decide, _, dcMono, 7, rfl, rfl, by decide⟩

theorem busyWith_meets (h : BufHalf) (j n : Nat) :
    meetsInFlight (busyWith h) j n ↔ ∃ i, j ≤ i ∧ i < j + n ∧ (if h = .A then i < 4 else 4 ≤ i ∧ i < 8) := by
  constructor
  · rintro ⟨f, dc, i, hf, hd, h1, h2, h3⟩
    cases hf
    cases hd
    exact ⟨i, h1, h2, h3⟩
  · rintro ⟨i, h1, h2, h3⟩
    exact ⟨_, dcMono, i, rfl, rfl, h1, h2, h3⟩

theorem idle_meets_nothing (j n : Nat) : ¬ meetsInFlight idle j n := by
  rintro ⟨f, dc, i, hf, _⟩
  cases hf

/-- DC of DEC_CFG = 0x00020117: ratio 160 in cascade, two primary samples, one final sample. -/
def dcCascade : DecConfig :=
  { code := 7, r := 160, rp := 80, casc := true, cin := 1, cout := 1, bord := false, endn := false, nout := 2,
    nfin := 1, hbytes := 20 }

def chanCascade : ChanMem := { integ := [0], combd := [[0]], fird := [], hb := some ⟨[0, 0], false⟩ }

theorem decConfig_mono : decConfigOf refParams 0x00020110 = .ok dcMono := by decide

theorem decConfig_cascade : decConfigOf refParams 0x00020117 = .ok dcCascade := by decide

/-- One channel is legal for every C_MAX. -/
theorem decConfig_mono_of {P : Config.Params} (h : 1 ≤ P.cMax) : decConfigOf P 0x00020110 = .ok dcMono := by
  have hc : ¬ P.cMax < field 0x00020110 4 4 := by
    rw [show field 0x00020110 4 4 = 1 from by decide]
    omega
  simp only [decConfigOf, hc]
  rfl

/-- Length 2 is legal for every LOG2T_MAX. -/
theorem fftConfig_mono_of {P : Config.Params} (h : 1 ≤ P.log2tMax) : fftConfigOf P 0x00000101 0 = .ok fcMono := by
  have hc : ¬ P.log2tMax < field 0x00000101 0 4 := by
    rw [show field 0x00000101 0 4 = 1 from by decide]
    omega
  simp only [fftConfigOf, hc]
  rfl

/-- Without and with the half-band, with the frame buffer empty and one short of full, and RAM in its form. -/
theorem witness_ChunkCountsItselfItsSamplesAndItsFrames :
    (decConfigOf refParams 0x00020110 = .ok dcMono ∧ fcMono.chsel < dcMono.cout ∧ fcMono.rret < fcMono.t ∧
      idle.live.fill < fcMono.t ∧ idle.live.filt.length = dcMono.cout ∧
      ∀ m ∈ idle.live.filt, m.hb.isSome = dcMono.casc ∧ ∀ h, m.hb = some h → h.hbph = false) ∧
    (let r := { idle.live with filt := [chanCascade], fill := 1 }
     decConfigOf refParams 0x00020117 = .ok dcCascade ∧ r.fill < fcMono.t ∧ r.filt.length = dcCascade.cout ∧
      ∀ m ∈ r.filt, m.hb.isSome = dcCascade.casc ∧ ∀ h, m.hb = some h → h.hbph = false) ∧
    ramWf idle.live.ram = true := by
  refine ⟨⟨decConfig_mono, by decide, by decide, by decide, by decide, ?_⟩, ⟨decConfig_cascade, by decide, rfl, ?_⟩,
    by decide⟩
  · intro m hm
    simp only [idle, List.mem_singleton] at hm
    subst hm
    exact ⟨rfl, fun h hh => by cases hh⟩
  · intro m hm
    simp only [List.mem_singleton] at hm
    subst hm
    exact ⟨rfl, fun h hh => by cases hh; rfl⟩

theorem witness_ControlReadsAnswerTheirRegister :
    idle.inflight = none ∧ ∀ a ∈ [(0x040 : Offset), 0xFFC], 0x040 ≤ a.toNat ∧ a.toNat < 0x1000 ∧ a.toNat % 4 = 0 :=
  ⟨rfl, by simp⟩

theorem witness_StatusReadShowsTheFlags : idle.inflight = none ∧ (busyWith .A).inflight.isSome = true := by decide

/-- Both ends of each RAM, idle; both ends of PDM_BUF, busy. -/
theorem witness_RamReadsAnswerTheirBytes :
    (∀ p ∈ [((0x1000 : Offset), 4, Instr.rd32 0x1000), (0x1FFE, 2, .rd16 0x1FFE), (0x4000, 4, .rd32 0x4000),
        (0xFFFC, 4, .rd32 0xFFFC)],
      (p.2.1, p.2.2) ∈ reads p.1 ∧ 0x1000 ≤ p.1.toNat ∧ p.1.toNat % p.2.1 = 0 ∧ permitted p.1.toNat p.2.1) ∧
    idle.inflight = none ∧
    (∀ p ∈ [((0x2000 : Offset), 4, Instr.rd32 0x2000), (0x3FFF, 1, .rd8 0x3FFF)],
      (p.2.1, p.2.2) ∈ reads p.1 ∧ p.1.toNat % p.2.1 = 0 ∧ permitted p.1.toNat p.2.1 ∧
        0x2000 ≤ p.1.toNat ∧ p.1.toNat < 0x4000) := by
  unfold permitted
  decide

theorem witness_BusyReadsOfResultWordsAreOldOrNew :
    (busyWith .A).inflight.isSome = true ∧
    ∀ p ∈ [((0x004 : Offset), 4, Instr.rd32 0x004), (0x024, 4, .rd32 0x024), (0x028, 4, .rd32 0x028),
        (0x02C, 4, .rd32 0x02C), (0x034, 4, .rd32 0x034), (0x1000, 2, .rd16 0x1000), (0x1FFC, 4, .rd32 0x1FFC),
        (0x4000, 4, .rd32 0x4000), (0xFFFC, 4, .rd32 0xFFFC)],
      (p.2.1, p.2.2) ∈ reads p.1 ∧ p.1.toNat % p.2.1 = 0 ∧ permitted p.1.toNat p.2.1 ∧
        (p.1.toNat ∈ [0x004, 0x024, 0x028, 0x02C, 0x034] ∨ (0x1000 ≤ p.1.toNat ∧ p.1.toNat < 0x2000) ∨
          0x4000 ≤ p.1.toNat) := by
  unfold permitted
  decide

theorem witness_ReadsHaveNoSideEffect :
    ∀ p ∈ [(1, Instr.rd8 0x0000), (2, .rd16 0x0000), (4, .rd32 0x0000)], p ∈ reads 0x0000 := by decide

/-- A misaligned read, a width its region does not take (read and write), and SIZE = 0b11 both ways. -/
theorem witness_RefusedTransactionsChangeNothing :
    ((4, Instr.rd32 0x002) ∈ reads 0x002 ∧ (0x002 : Offset).toNat % 4 ≠ 0) ∧
    ((1, Instr.rd8 0x1000) ∈ reads 0x1000 ∧ ¬ permitted (0x1000 : Offset).toNat 1) ∧
    ((2, Instr.wr16 0xFFFE 0) ∈ writes 0xFFFE 0 ∧ ¬ permitted (0xFFFE : Offset).toNat 2) ∧
    (withInput (.bus 0x30004 0) idle).fault = .none ∧
    (withInput (.bus 0x30004 0) idle).inputs = .bus 0x30004 0 :: [] ∧
    (0x30004 : BitVec 19).toNat / 2 ^ 16 % 4 = 3 ∧ (0x70004 : BitVec 19).toNat / 2 ^ 16 % 4 = 3 := by
  unfold permitted
  decide

theorem witness_RegisterWritesStoreTheWritableBits :
    ((0x014 : Offset), (0x000000FF : Word), { idle with gain := 0x1FF &&& 0x000000FF }) ∈
      [(0x010, 0x0FFF3FFF, { idle with decCfg := 0x1FF &&& 0x0FFF3FFF }),
        (0x014, 0x000000FF, { idle with gain := 0x1FF &&& 0x000000FF })] := List.mem_cons_of_mem _ List.mem_cons_self

theorem witness_WritesToReadOnlyLocationsAreIgnored :
    ∀ p ∈ [((0x000 : Offset), 4, Instr.wr32 0x000 7), (0x03C, 4, .wr32 0x03C 7), (0x040, 4, .wr32 0x040 7),
        (0x0FFC, 4, .wr32 0x0FFC 7), (0x1000, 2, .wr16 0x1000 7), (0x1FFC, 4, .wr32 0x1FFC 7),
        (0x4000, 4, .wr32 0x4000 7), (0xFFFC, 4, .wr32 0xFFFC 7)],
      (p.2.1, p.2.2) ∈ writes p.1 7 ∧ p.1.toNat % p.2.1 = 0 ∧ permitted p.1.toNat p.2.1 ∧
        (p.1.toNat ∈ [0x000, 0x004, 0x008, 0x024, 0x028, 0x02C, 0x030, 0x034, 0x038, 0x03C] ∨
          (0x040 ≤ p.1.toNat ∧ p.1.toNat < 0x2000) ∨ 0x4000 ≤ p.1.toNat) := by
  unfold permitted
  decide

/-- The first and the last byte of PDM_BUF, idle; the first word past region A while A is in flight; and by the capture
port the byte just past region A, and the last byte of PDM_BUF. -/
theorem witness_PdmWritesStoreTheirBytes :
    (((4, Instr.wr32 0x2000 7) ∈ writes 0x2000 7 ∧ (0x2000 : Offset).toNat % 4 = 0 ∧ ¬ meetsInFlight idle 0 4) ∧
      ((1, Instr.wr8 0x3FFF 7) ∈ writes 0x3FFF 7 ∧ ¬ meetsInFlight idle 0x1FFF 1) ∧
      ((4, Instr.wr32 0x2004 7) ∈ writes 0x2004 7 ∧ (0x2004 : Offset).toNat % 4 = 0 ∧
        ¬ meetsInFlight (busyWith .A) 4 4)) ∧
    (withInput (.cap 4 0) (busyWith .A)).fault = .none ∧
    (withInput (.cap 4 0) (busyWith .A)).inputs = .cap 4 0 :: [] ∧
    ¬ meetsInFlight (withInput (.cap 4 0) (busyWith .A)) (4 : BitVec 13).toNat 1 ∧
    ¬ meetsInFlight (withInput (.cap 8191 0) (busyWith .B)) (8191 : BitVec 13).toNat 1 := by
  refine ⟨⟨⟨by decide, by decide, idle_meets_nothing _ _⟩, ⟨by decide, idle_meets_nothing _ _⟩, by decide, by decide,
    ?_⟩, by decide, rfl, fun h => ?_, fun h => ?_⟩
  · rw [busyWith_meets]
    rintro ⟨i, h1, h2, h3⟩
    simp at h3
    omega
  · obtain ⟨i, h1, h2, h3⟩ := (busyWith_meets .A 4 1).1 h
    simp at h3
    omega
  · obtain ⟨i, h1, h2, h3⟩ := (busyWith_meets .B 8191 1).1 h
    simp at h3
    omega

theorem witness_CmdWriteIsTheCommand :
    decodeCmd 0x00000008 = .ok .softReset ∧ (withInput (.bus 0x6000C 0x00000008) idle).fault = .none ∧
    (withInput (.bus 0x6000C 0x00000008) idle).inputs = .bus 0x6000C 0x00000008 :: [] ∧
    (withInput (.cmd 0x00000008) idle).inputs = .cmd 0x00000008 :: [] := by decide

theorem witness_StepRunsTheDecodedInstruction :
    (withInput (.evt 0b10) idle).fault = .none ∧ (withInput (.evt 0b10) idle).inputs = .evt 0b10 :: [] ∧
    decodeInput (.evt 0b10) = some (.ok .full) ∧ decodeInput (.cmd 0x00000004) = some (.ok .start) ∧
    decodeInput (.bus 0x6000C 0x00000004) = some (.ok (.wr32 0x000C 0x00000004)) := by decide

theorem witness_StepsWithoutAnEventChangeNothing :
    (withInput (.evt 0b00) (busyWith .A)).fault = .none ∧
    (withInput (.evt 0b00) (busyWith .A)).inputs = .evt 0b00 :: [] ∧
    (withInput (.evt 0b11) (busyWith .A)).inputs = .evt 0b11 :: [] ∧
    idle.fault = .none ∧ idle.inputs = [] ∧ idle.inflight = none ∧ (idle.raiseOverrun).fault = .overrun := by decide

theorem witness_DecodeInvertsEncode :
    (Instr.wr8 0xFFFF 0xFF).wellFormed = true ∧ (Instr.wr16 0xFFFE 0xFFFF).wellFormed = true ∧
    Instr.softReset.wellFormed = true ∧
    decode .bus [0x05, 0x20, 0x04, 0xFF, 0xFF, 0xFF, 0xFF] = .ok (.wr8 0x2005 0xFF) ∧ decode .evt [0b01] = .ok .half ∧
    decode .cmd [0x08, 0, 0, 0] = .ok .softReset := by decide

theorem witness_ResetIsThePowerOnState :
    ∀ a ∈ [(0x000 : Offset), 0x03C, 0xFFC], a.toNat < 0x1000 ∧ a.toNat % 4 = 0 := by simp

/-- A running block with region A in flight has legal configurations in every instance. -/
theorem busy_configOk {P : Config.Params} (h : ParamsOk P) : ConfigOk P (withInput .commit (busyWith .A)) where
  dc := fun dc hd => by cases hd; exact ⟨_, decConfig_mono_of h.cMax.1⟩
  fc := fun fc hf => by cases hf; exact ⟨0x00000101, 0, fftConfig_mono_of h.log2tMax.1⟩
  halfBytes := rfl
  nbins := rfl
  wt := rfl
  running := fun _ => ⟨dcMono, fcMono, rfl, rfl, by decide⟩
  busy := fun _ => rfl

theorem busy_memoryOk : MemoryOk (withInput .commit (busyWith .A)) :=
  ⟨by decide, by decide, fun f h => by cases h; decide⟩

theorem busy_frameOk : FrameOk (withInput .commit (busyWith .A)) :=
  ⟨⟨rfl, by decide⟩, fun f h => by cases h; exact ⟨rfl, by decide⟩⟩

/-- Its next step is a next state and it meets every invariant but AvgOk: the witness of the StepKeeps statements and of
StepAnswersWhileNoFault. -/
theorem witness_invariants :
    let s := withInput .commit (busyWith .A)
    (RegistersOk s ∧ ConfigOk machineParams s ∧ MemoryOk s ∧ WarmOk s ∧ FrameOk s ∧ FilterOk machineParams s ∧
      PcmCountOk s) ∧ s.fault = .none ∧ ∃ t, step s = .next t := by
  have hchan : ChanOk machineParams dcMono (zeroChan machineParams dcMono) := by
    constructor <;> simp [zeroChan, dcMono]
  refine ⟨⟨?_, busy_configOk machineParams_ok, busy_memoryOk, ?_, busy_frameOk, ?_, ?_⟩, rfl, _, rfl⟩
  · constructor <;> decide
  · exact ⟨by decide, fun f h => by cases h; decide⟩
  · refine ⟨⟨rfl, fun m hm => ?_⟩, fun f h => ?_⟩
    · cases List.mem_singleton.1 hm
      exact hchan
    · cases h
      refine ⟨rfl, fun m hm => ?_⟩
      cases List.mem_singleton.1 hm
      exact hchan
  · exact ⟨.inl rfl, fun f h => by cases h; exact .inr ⟨dcMono, rfl, rfl⟩⟩

/-- The same state in the instance with coarse tolerances, EPS_FFT = 1. -/
theorem witness_StepKeepsAveragesFinite :
    let s := withInput .commit (busyWith .A)
    ParamsOk coarseParams ∧ coarseParams.epsFft ≤ 2 ^ 40 ∧ ConfigOk coarseParams s ∧ MemoryOk s ∧ FrameOk s ∧
      AvgOk coarseParams s ∧ ∃ t, stepAt coarseParams s = .next t := by
  have zero : ∀ k < 4096, if k < fcMono.nb then
      f32IsFinite (readWord [] (avgBase + 4 * k)) = true ∧ f32Sign (readWord [] (avgBase + 4 * k)) = false ∧
        ∃ e : Nat, ((f32ToRat (readWord [] (avgBase + 4 * k)) : Rat) : ℝ) ≤ 2 ^ e ∧
          (2 : ℝ) ^ e ≤ 4 * fcMono.t * (1 + coarseParams.epsFft)
      else readWord [] (avgBase + 4 * k) = 0 := fun k hk => by
    rw [readWord_nil (Nat.le_add_right _ _)]
    split
    · refine ⟨by decide, by decide, 0, ?_, ?_⟩
      · rw [show f32ToRat 0 = 0 from f32ToRat_zero false]
        norm_num
      · norm_num [fcMono, coarseParams]
    · rfl
  exact ⟨coarseParams_ok, by norm_num [coarseParams], busy_configOk coarseParams_ok, busy_memoryOk, busy_frameOk,
    ⟨zero, fun f h => by cases h; exact zero⟩, _, rfl⟩

/-- Two reads of CHUNK_COUNT, between them a gain write, a reserved event and a HALF event ignored while stopped. -/
theorem witness_EqualChunkCountsMeanAnUntornSnapshot :
    let s := { idle with
      running := false
      inputs := [.bus 0x20024 0, .bus 0x60014 6, .evt 0b11, .evt 0b01, .bus 0x20024 0] }
    s.inflight = none ∧ (∀ i ∈ s.inputs.take 5, notCommand i = true) ∧
      ∃ t, Host.Core.run Sys2Proof.core 5 s = .next t ∧ t.inflight = none ∧ t.live.chunkCount = s.live.chunkCount :=
  ⟨rfl, by decide, _, rfl, rfl, rfl⟩

/-- The cascade and a plain configuration, with their regions of bytes. -/
theorem witness_ChannelSamplesComeFromTheirBits :
    (decConfigOf refParams 0x00020117 = .ok dcCascade ∧ (List.replicate 20 (0xF0 : Byte)).length = dcCascade.hbytes ∧
      0 < dcCascade.cin ∧ chanCascade.hb.isSome = dcCascade.casc ∧ ∀ h, chanCascade.hb = some h → h.hbph = false) ∧
    (decConfigOf refParams 0x00020110 = .ok dcMono ∧ ([0xFF, 0xFF, 0xFF, 0xF0] : List Byte).length = dcMono.hbytes ∧
      (zeroChan refParams dcMono).hb.isSome = dcMono.casc) :=
  ⟨⟨decConfig_cascade, by decide, by decide, rfl, fun h hh => by cases hh; rfl⟩, decConfig_mono, by decide, rfl⟩

/-- V-DEC-19: the bytes of channel 1 of 2 differ. -/
theorem witness_UnusedChannelsAreReadByNothing :
    let dc := { dcMono with cin := 2, nout := 1, nfin := 1 }
    dc.cout ≤ dc.cin ∧ [chanCascade].length ≤ dc.cout ∧
    ∀ j, j % dc.cin < dc.cout →
      (endianPrep dc.endn ([0xFF, 1, 0xFF, 2] : List Byte))[j]? = (endianPrep dc.endn [0xFF, 3, 0xFF, 4])[j]? := by
  refine ⟨by decide, by decide, fun j hj => ?_⟩
  match j with
  | 0 => rfl
  | 1 => exact absurd hj (by decide)
  | 2 => rfl
  | 3 => exact absurd hj (by decide)
  | _ + 4 => rfl

/-- A full PCM_OUT and an empty one. -/
theorem witness_PcmOutIsInterleavedByChannel :
    ramWf [] = true ∧ { dcMono with cout := 4, nfin := 512 }.cout * { dcMono with cout := 4, nfin := 512 }.nfin ≤ 2048 ∧
    dcMono.cout * dcMono.nfin ≤ 2048 := by decide

/-- K = 2, M = 1, L = 2 over four ones from zero state (test_cic_of_order_two); a half-band over two samples; and the
one-stage filter holding 24. -/
theorem witness_FiltersFollowTheirEquations :
    (let P := { refParams with kCic := fun _ => 2, firCoef := fun _ => [1, 2] }
     let m : ChanMem := ⟨[0, 0], [[0], [0]], [3], none⟩
     let I : Nat → Nat → Int := fun t k => if k = 0 then t else t * (t + 1) / 2
     let X : Nat → Int := fun _ => 10
     let bits := [true, true, true, true]
     (1 ≤ P.kCic 4 ∧ 1 ≤ P.mCic 4 ∧ 1 ≤ (P.firCoef 4).length) ∧
     (m.integ.length = P.kCic 4 ∧ m.combd.length = P.kCic 4 ∧ ∀ line ∈ m.combd, line.length = P.mCic 4) ∧
     m.fird.length = (P.firCoef 4).length - 1 ∧
     (∀ k < P.kCic 4, I 0 k = m.integ.getD k 0) ∧
     (∀ t < bits.length, ∀ k < P.kCic 4, I (t + 1) k =
       I t k + if k = 0 then (if bits.getD t false then 1 else -1) else I (t + 1) (k - 1)) ∧
     X 0 = I bits.length (P.kCic 4 - 1) ∧
     ∀ k < P.kCic 4, X (k + 1) = X k - (m.combd.getD k []).getD (P.mCic 4 - 1) 0) ∧
    (let h : HbMem := ⟨[100, 200], false⟩
     refParams.hbCoef ≠ [] ∧ h.hbd.length = refParams.hbCoef.length - 1 ∧ h.hbph = false ∧
       ([1, 2] : List S16).length % 2 = 0) ∧
    (let m : ChanMem := { chanCascade with integ := [24], combd := [[24]] }
     refParams.kCic 16 = 1 ∧ refParams.mCic 16 = 1 ∧ refParams.firCoef 16 = [1] ∧ m.integ = [24] ∧ m.combd = [[24]]) :=
  ⟨by decide, ⟨List.cons_ne_nil _ _, rfl, rfl, rfl⟩, rfl, rfl, rfl, rfl, rfl⟩

/-- The largest retained count of T = 2, and T = 4096 with the largest overlap it takes. -/
theorem witness_RetainedCountIsRoundedAndBelowT :
    (∃ fc, fftConfigOf refParams 0x00000001 0x0000BFFF = .ok fc) ∧
    ∃ fc, fftConfigOf refParams 0x0000000C 0x0000FFF7 = .ok fc := ⟨⟨_, rfl⟩, ⟨_, rfl⟩⟩

theorem witness_EmitShiftMovesTheTrailingSamples :
    ([1, 2, 3, 4] : List S16).length = { fcMono with t := 4, rret := 3 }.t ∧
    { fcMono with t := 4, rret := 3 }.rret < { fcMono with t := 4, rret := 3 }.t := by decide

theorem witness_FeedRunsTheStatedNumberOfCycles :
    { fcMono with t := 4, rret := 3 }.rret < { fcMono with t := 4, rret := 3 }.t ∧
    { idle.live with fill := 3 }.fill < { fcMono with t := 4, rret := 3 }.t := by decide

/-- An empty buffer, and one sample short of full with the largest retained count. -/
theorem witness_FramesAreTheOverlappingWindows :
    (fcMono.rret < fcMono.t ∧ idle.live.fill < fcMono.t ∧ idle.live.fb.length = fcMono.t) ∧
    (let r := { idle.live with fb := [1, 2, 3, 4], fill := 3 }
     let fc := { fcMono with t := 4, rret := 3 }
     fc.rret < fc.t ∧ r.fill < fc.t ∧ r.fb.length = fc.t) := by decide

theorem witness_TransformCycleWritesSpecAndAverage :
    ramWf [(0x4000, 1), (0xFFFF, 2)] = true ∧ (fcMono.nb ≤ 2049 ∧ { fcMono with nb := 2049 }.nb ≤ 2049) ∧
    (idle.wt.length = fcMono.t ∧ ([1, 2] : List S16).length = fcMono.t) ∧
    { fcMono with outk := .complex }.outk = .complex ∧ fcMono.outk = .magnitude ∧
    { fcMono with outk := .phase }.outk = .phase ∧ 2048 < { fcMono with nb := 2049 }.nb :=
  ⟨by decide, by decide, ⟨rfl, rfl⟩, rfl, rfl, rfl, by decide⟩

/-- V-AVG-2's value, the largest finite value and +0. -/
theorem witness_ConstantSpectrumAveragesToItself :
    [(0x3f350389 : F32), 0x7F7FFFFF, 0x00000000].all (fun m => f32IsFinite m && !f32Sign m) = true ∧
    1 ≤ 2 ^ 32 - 1 ∧ 2 ^ 32 - 1 < 2 ^ 32 := by decide

theorem witness_WindowTablesMeetTheirProperties :
    (0 ≤ 4095 ∧ 4095 ≤ 4095 ∧ 1 ≤ 1) ∧ f32IsFinite 0x7F7FFFFF = true := by decide

theorem witness_WindowEntriesApproximateTheFormulas :
    (1 ≤ 1 ∧ 1 ≤ 4095 ∧ 1 ≤ 1) ∧ 1 ≤ 4095 ∧ 4095 ≤ 4095 ∧ 0 ≤ 4095 := by decide

/-- 1/3, and 1 + 2^−24, half way between 1 and 1 + 2^−23. -/
theorem witness_RoundingIsToNearestEven :
    (f32IsFinite (f32OfRat (1 / 3)) = true ∧ f32IsFinite 0x3EAAAAAA = true) ∧
    (let q : Rat := 16777217 / 16777216
     f32IsFinite (f32OfRat q) = true ∧ f32ToRat 0x3F800001 ≠ f32ToRat (f32OfRat q) ∧
      f32ToRat 0x3F800001 - q = q - f32ToRat (f32OfRat q)) := by decide +kernel

/-- 3 and 1; the zeros 3 − 3, −0 + −0 and −0 · 3; the roots of −0, of 2 and of the least subnormal. -/
theorem witness_ArithmeticRoundsTheExactResult :
    (f32IsFinite 0x40400000 = true ∧ f32IsFinite 0x3F800000 = true ∧
      f32ToRat 0x40400000 + f32ToRat 0x3F800000 ≠ 0 ∧ f32ToRat 0x40400000 - f32ToRat 0x3F800000 ≠ 0 ∧
      f32ToRat 0x40400000 * f32ToRat 0x3F800000 ≠ 0 ∧ f32ToRat 0x40400000 ≠ 0) ∧
    (f32ToRat 0x40400000 - f32ToRat 0x40400000 = 0 ∧ f32IsFinite 0x80000000 = true ∧
      f32ToRat 0x80000000 + f32ToRat 0x80000000 = 0 ∧ f32ToRat 0x80000000 * f32ToRat 0x40400000 = 0) ∧
    f32ToRat 0x80000000 = 0 ∧ 0 < f32ToRat 0x40000000 ∧ f32IsFinite 0x00000001 = true ∧ 0 < f32ToRat 0x00000001 := by
  decide +kernel

/-- IEEE 754: −0 · 3 = −0, 3 − 3 = +0, −0 + −0 = −0, √2 = 0x3FB504F3, √−0 = −0. -/
theorem test_zero_signs_and_root :
    [f32Mul 0x80000000 0x40400000, f32Sub 0x40400000 0x40400000, f32Add 0x80000000 0x80000000, f32Sqrt 0x40000000,
      f32Sqrt 0x80000000] = [0x80000000, 0x00000000, 0x80000000, 0x3FB504F3, 0x80000000] := by decide +kernel

/-- The shortest window; and in the instance with coarse tolerances the last bin of the longest frame, all ones. -/
theorem witness_MagnitudesStayFinite :
    2 ≤ 2 ∧
    let y := List.replicate (2 ^ 12) (0x3F800000 : F32)
    FftAccurateAt coarseParams (2 ^ 12) y 2048 ∧ 0 ≤ coarseParams.epsFft ∧ coarseParams.epsFft ≤ 2 ^ 40 ∧
      y.length = 2 ^ 12 ∧ ∀ v ∈ y, isUnit v := by
  refine ⟨le_refl 2, coarseParams_fftAt _ _ _, coarseParams_ok.epsFft, by norm_num [coarseParams],
    List.length_replicate, fun v hv => ?_⟩
  cases List.eq_of_mem_replicate hv
  exact ⟨by decide, by decide +kernel⟩

theorem witness_FreeParametersMeetTheirConstraints :
    f32IsZero 0x80000000 = true ∧ f32Positive 0x3F800000 = true ∧ f32Negative 0xBF800000 = true ∧
    f32IsFinite 0x3F800000 = true ∧ f32IsZero 0x3F800000 = false ∧ (-128 : Int) ≤ 127 := by decide

/-- The shortest frame, for every LOG2T_MAX: its first and last bin, and an all-zero frame. -/
theorem witness_MachineTransformIsAccurate :
    1 ≤ machineParams.log2tMax ∧ ([0x7FFF, 0x8000] : List S16).length = 2 ^ 1 ∧ 0 ≤ 2 ^ 1 / 2 ∧ 1 ≤ 2 ^ 1 / 2 ∧
      (windowed (windowTable .rectangular (2 ^ 1)) [0, 0]).all f32IsZero = true :=
  ⟨machineParams_ok.log2tMax.1, rfl, by decide, by decide, by decide +kernel⟩

end Sys2Proof.Tests
end

section
/-! Binary32 rounding (00_scope.md R14) and the constraints on the parameters (R9): the facts about the bits and
values of a binary32, the rounding as a nearest value on the grid of its binade, and the operations through it. -/

namespace Sys2Proof.Machine

/-! ### The bits of a binary32 -/

/-- The magnitude in units of 2^−149 that 31 bits of exponent and fraction stand for. -/
def magOfBits (b : Nat) : Nat :=
  if b / 2 ^ 23 = 0 then b else (2 ^ 23 + b % 2 ^ 23) * 2 ^ (b / 2 ^ 23 - 1)

/-- The word with a sign and 31 bits of exponent and fraction. -/
def ofSignBits (neg : Bool) (b : Nat) : F32 := BitVec.ofNat 32 ((if neg then 2 ^ 31 else 0) + b)

theorem f32Exp_eq (x : F32) : f32Exp x = x.toNat % 2 ^ 31 / 2 ^ 23 := by
  unfold f32Exp; omega

theorem f32Mag_eq_magOfBits (x : F32) : f32Mag x = magOfBits (x.toNat % 2 ^ 31) := by
  have hfrac : f32Frac x = x.toNat % 2 ^ 31 % 2 ^ 23 := by unfold f32Frac; omega
  rw [f32Mag, f32Exp_eq, hfrac, magOfBits]
  split
  · omega
  · rfl

theorem f32IsFinite_iff (x : F32) : f32IsFinite x = true ↔ x.toNat % 2 ^ 31 < 0x7F800000 := by
  rw [f32IsFinite, f32Exp_eq, bne_iff_ne]
  omega

theorem f32IsNan_of_finite {x : F32} (h : f32IsFinite x = true) : f32IsNan x = false := by
  simp_all [f32IsFinite, f32IsNan]

theorem f32IsInf_of_finite {x : F32} (h : f32IsFinite x = true) : f32IsInf x = false := by
  simp_all [f32IsFinite, f32IsInf]

theorem toNat_ofSignBits {neg : Bool} {b : Nat} (hb : b < 2 ^ 31) :
    (ofSignBits neg b).toNat = (if neg then 2 ^ 31 else 0) + b := by
  rw [ofSignBits, BitVec.toNat_ofNat]
  cases neg <;> simp <;> omega

theorem f32Sign_ofSignBits {neg : Bool} {b : Nat} (hb : b < 2 ^ 31) : f32Sign (ofSignBits neg b) = neg := by
  rw [f32Sign, toNat_ofSignBits hb]
  cases neg
  · simpa using hb
  · simp

theorem toNat_ofSignBits_mod {neg : Bool} {b : Nat} (hb : b < 2 ^ 31) :
    (ofSignBits neg b).toNat % 2 ^ 31 = b := by
  rw [toNat_ofSignBits hb]
  cases neg <;> simp <;> omega

theorem ofSignBits_self (x : F32) : ofSignBits (f32Sign x) (x.toNat % 2 ^ 31) = x := by
  apply BitVec.eq_of_toNat_eq
  rw [toNat_ofSignBits (by omega), f32Sign]
  simp only [decide_eq_true_eq]
  split <;> omega

theorem magOfBits_normal {k m : Nat} (hm : m ≤ 2 ^ 24) (hk : k = 0 ∨ 2 ^ 23 ≤ m) :
    magOfBits (k * 2 ^ 23 + m) = m * 2 ^ k := by
  have hsmall : m < 2 ^ 23 ∨ (2 ^ 23 ≤ m ∧ m < 2 ^ 24) ∨ m = 2 ^ 24 := by omega
  rcases hsmall with h | ⟨h, h'⟩ | rfl
  · obtain rfl : k = 0 := by omega
    rw [zero_mul, zero_add, magOfBits, if_pos (Nat.div_eq_of_lt h), pow_zero, mul_one]
  · have he : (k * 2 ^ 23 + m) / 2 ^ 23 = k + 1 := by omega
    have hf : 2 ^ 23 + (k * 2 ^ 23 + m) % 2 ^ 23 = m := by omega
    rw [magOfBits, he, hf]; simp
  · have he : (k * 2 ^ 23 + 2 ^ 24) / 2 ^ 23 = k + 2 := by omega
    have hf : (k * 2 ^ 23 + 2 ^ 24) % 2 ^ 23 = 0 := by omega
    rw [magOfBits, he, hf]
    simp only [Nat.add_eq_zero_iff]
    rw [if_neg (by omega), show k + 2 - 1 = k + 1 by omega, pow_succ]; ring

theorem exists_significand (b : Nat) :
    ∃ e m, b = e * 2 ^ 23 + m ∧ m < 2 ^ 24 ∧ (e = 0 ∨ 2 ^ 23 ≤ m) ∧ magOfBits b = m * 2 ^ e := by
  have hm : b - (b / 2 ^ 23 - 1) * 2 ^ 23 < 2 ^ 24 := by omega
  have hb : b = (b / 2 ^ 23 - 1) * 2 ^ 23 + (b - (b / 2 ^ 23 - 1) * 2 ^ 23) := by omega
  have hk : b / 2 ^ 23 - 1 = 0 ∨ 2 ^ 23 ≤ b - (b / 2 ^ 23 - 1) * 2 ^ 23 := by omega
  exact ⟨_, _, hb, hm, hk, (congrArg magOfBits hb).trans (magOfBits_normal hm.le hk)⟩

theorem f32Pi_eq (neg : Bool) : f32Pi neg = if neg then 0xC0490FDB else 0x40490FDB := by
  cases neg <;> rfl

/-! ### The value of a finite binary32 -/

theorem f32ToRat_eq (x : F32) : f32ToRat x = f32Units x / 2 ^ 149 := by
  rw [f32ToRat, Rat.mkRat_eq_div]; norm_num

theorem natAbs_f32Units (x : F32) : (f32Units x).natAbs = magOfBits (x.toNat % 2 ^ 31) := by
  rw [← f32Mag_eq_magOfBits, f32Units]
  split <;> simp

theorem f32Units_ofSignBits {neg : Bool} {b : Nat} (hb : b < 2 ^ 31) :
    f32Units (ofSignBits neg b) = if neg then -(magOfBits b : Int) else magOfBits b := by
  rw [f32Units, f32Sign_ofSignBits hb, f32Mag_eq_magOfBits, toNat_ofSignBits_mod hb]

theorem f32Sign_of_units_ne_zero {x : F32} (h : f32Units x ≠ 0) : f32Sign x = decide (f32Units x < 0) := by
  unfold f32Units at h ⊢
  split at h
  next hs => rw [hs]; simp; omega
  next hs => simp [hs]

theorem f32ToRat_eq_zero_iff (x : F32) : f32ToRat x = 0 ↔ f32Units x = 0 := by
  rw [f32ToRat_eq]; simp

theorem f32IsZero_iff (x : F32) : f32IsZero x = true ↔ f32ToRat x = 0 := by
  have hbits : magOfBits (x.toNat % 2 ^ 31) = 0 ↔ x.toNat % 2 ^ 31 = 0 := by
    unfold magOfBits
    split
    · rfl
    · exact ⟨fun h => by simp at h, fun h => by omega⟩
  rw [f32ToRat_eq_zero_iff, ← Int.natAbs_eq_zero, natAbs_f32Units, hbits, f32IsZero, beq_iff_eq]

theorem f32Units_pos {x : F32} (hpos : 0 < f32ToRat x) : 0 < f32Units x := by
  rw [f32ToRat_eq] at hpos
  exact_mod_cast (div_pos_iff_of_pos_right (by positivity)).mp hpos

theorem f32Sign_of_pos {x : F32} (hpos : 0 < f32ToRat x) : f32Sign x = false := by
  have hunits := f32Units_pos hpos
  rw [f32Sign_of_units_ne_zero hunits.ne']
  exact decide_eq_false hunits.not_gt

theorem f32Units_of_pos {x : F32} (hpos : 0 < f32ToRat x) : f32Units x = f32Mag x := by
  rw [f32Units, f32Sign_of_pos hpos]; rfl

theorem f32Neg_eq (x : F32) : f32Neg x = ofSignBits (!f32Sign x) (x.toNat % 2 ^ 31) := by
  rw [f32Neg, ofSignBits, Nat.add_comm]
  cases f32Sign x <;> rfl

theorem f32Sign_f32Neg (x : F32) : f32Sign (f32Neg x) = !f32Sign x := by
  rw [f32Neg_eq, f32Sign_ofSignBits (by omega)]

theorem f32IsFinite_f32Neg (x : F32) : f32IsFinite (f32Neg x) = f32IsFinite x := by
  rw [Bool.eq_iff_iff, f32IsFinite_iff, f32IsFinite_iff, f32Neg_eq, toNat_ofSignBits_mod (by omega)]

theorem f32ToRat_f32Neg (x : F32) : f32ToRat (f32Neg x) = -f32ToRat x := by
  have hunits : f32Units (f32Neg x) = -f32Units x := by
    rw [f32Neg_eq, f32Units_ofSignBits (by omega), ← f32Mag_eq_magOfBits, f32Units]
    cases f32Sign x <;> simp
  rw [f32ToRat_eq, f32ToRat_eq, hunits]
  push_cast
  ring

/-! ### Division to the nearest, and what is nearest -/

theorem rneDiv_spec (n : Nat) {d : Nat} (hd : 0 < d) :
    2 * (rneDiv n d * d) ≤ 2 * n + d ∧ 2 * n ≤ 2 * (rneDiv n d * d) + d ∧
    (2 * (rneDiv n d * d) = 2 * n + d ∨ 2 * n = 2 * (rneDiv n d * d) + d → rneDiv n d % 2 = 0) := by
  have hn := Nat.div_add_mod' n d
  have hr := Nat.mod_lt n hd
  have hsucc : (n / d + 1) * d = n / d * d + d := by ring
  unfold rneDiv
  dsimp only
  split_ifs
  · omega
  · rw [hsucc]; omega
  · omega
  · rw [hsucc]; omega

section
variable {K : Type*} [Field K] [LinearOrder K]

/-- `v` is no nearer to `a` than `w` is, and `P` holds if it is another value that is as near. -/
def NoNearer (a w : K) (P : Prop) (v : K) : Prop :=
  |w - a| ≤ |v - a| ∧ (v ≠ w → |v - a| = |w - a| → P)

theorem NoNearer.mul_left [IsStrictOrderedRing K] {a w v c : K} {P : Prop} (hc : c ≠ 0) (h : NoNearer a w P v) :
    NoNearer (c * a) (c * w) P (c * v) := by
  have hpos : 0 < |c| := abs_pos.mpr hc
  obtain ⟨hle, htie⟩ := h
  simp only [NoNearer, ← mul_sub, abs_mul]
  exact ⟨mul_le_mul_of_nonneg_left hle hpos.le,
    fun hne he => htie (fun hvw => hne (by rw [hvw])) (mul_left_cancel₀ hpos.ne' he)⟩

theorem NoNearer.of_lt {a w v : K} {P : Prop} (h : |w - a| < |v - a|) : NoNearer a w P v :=
  ⟨h.le, fun _ he => absurd he h.ne'⟩

variable [IsStrictOrderedRing K]

/-- `m · 2^k` is the rounding of the magnitude `a`, both in units of 2^−149, to a 24-bit significand with ties to
even: the spacing 2^k is that of the binary32 values from the binade of `a` on. -/
structure IsRounding (a : K) (k m : Nat) : Prop where
  nonneg : 0 ≤ a
  normal : k = 0 ∨ 2 ^ 23 * 2 ^ k ≤ a
  significand : m ≤ 2 ^ 24
  near : |(m : K) * 2 ^ k - a| ≤ 2 ^ k / 2
  even_of_tie : |(m : K) * 2 ^ k - a| = 2 ^ k / 2 → m % 2 = 0

namespace IsRounding
variable {a : K} {k m : Nat}

theorem significand_normal (h : IsRounding a k m) : k = 0 ∨ 2 ^ 23 ≤ m := by
  refine h.normal.imp_right fun ha => ?_
  have hnear := (abs_le.mp h.near).1
  have hp : (0 : K) < 2 ^ k := by positivity
  have hlt : (2 ^ 23 - 1 : K) * 2 ^ k < m * 2 ^ k := by linarith
  have hlt' : (2 ^ 23 - 1 : K) < m := lt_of_mul_lt_mul_right hlt hp.le
  have hsucc : (2 ^ 23 : K) < m + 1 := by linarith
  have hsuccNat : 2 ^ 23 < m + 1 := by exact_mod_cast hsucc
  omega

theorem magOfBits_eq (h : IsRounding a k m) : magOfBits (k * 2 ^ 23 + m) = m * 2 ^ k :=
  magOfBits_normal h.significand h.significand_normal

/-- Two multiples of the spacing are at least the spacing apart, so the other one is half of it away or more. -/
theorem noNearer_multiple (h : IsRounding a k m) (j : Nat) :
    NoNearer a ((m : K) * 2 ^ k) (m % 2 = 0) (j * 2 ^ k) := by
  obtain rfl | hj := eq_or_ne j m
  · exact ⟨le_rfl, fun hne => absurd rfl hne⟩
  have hp : (0 : K) < 2 ^ k := by positivity
  have hone : (1 : K) ≤ |(j : K) - m| := by
    have hint : (1 : Int) ≤ |(j : Int) - m| := Int.one_le_abs (by omega)
    exact_mod_cast hint
  have hgap : (2 : K) ^ k ≤ |(j : K) * 2 ^ k - a| + |(m : K) * 2 ^ k - a| := by
    calc (2 : K) ^ k ≤ |(j : K) - m| * 2 ^ k := le_mul_of_one_le_left hp.le hone
      _ = |((j : K) * 2 ^ k - a) - (m * 2 ^ k - a)| := by
        rw [← abs_of_pos hp, ← abs_mul, abs_of_pos hp]; ring_nf
      _ ≤ _ := abs_sub _ _
  have hnear := h.near
  exact ⟨by linarith, fun _ he => h.even_of_tie (by linarith)⟩

/-- The binary32 values below the binade of `a` are farther than its first value, a multiple of the spacing. -/
theorem noNearer_magOfBits (h : IsRounding a k m) (b : Nat) :
    NoNearer a ((m : K) * 2 ^ k) (m % 2 = 0) (magOfBits b) := by
  obtain ⟨e, m', -, hm', -, hmag⟩ := exists_significand b
  rw [hmag]
  obtain hke | hek := le_or_gt k e
  · have hmul : m' * 2 ^ e = m' * 2 ^ (e - k) * 2 ^ k := by rw [mul_assoc, ← pow_add, Nat.sub_add_cancel hke]
    have hgrid := h.noNearer_multiple (m' * 2 ^ (e - k))
    rw [hmul]; exact_mod_cast hgrid
  · have ha : (2 ^ 23 : K) * 2 ^ k ≤ a := h.normal.resolve_left (by omega)
    have hlt : m' * 2 ^ e < 2 ^ 23 * 2 ^ k := by
      calc m' * 2 ^ e < 2 ^ 24 * 2 ^ e := by gcongr
        _ = 2 ^ 23 * 2 ^ (e + 1) := by rw [pow_succ]; ring
        _ ≤ 2 ^ 23 * 2 ^ k := by gcongr <;> omega
    have hlt' : ((m' * 2 ^ e : Nat) : K) < 2 ^ 23 * 2 ^ k := by exact_mod_cast hlt
    have hfirst := (h.noNearer_multiple (2 ^ 23)).1
    push_cast at hfirst
    refine NoNearer.of_lt (hfirst.trans_lt ?_)
    rw [abs_of_nonpos (by linarith), abs_of_nonpos (by linarith)]
    linarith

/-- A negative value is farther than 0, which is a multiple of the spacing. -/
theorem noNearer_of_natAbs (h : IsRounding a k m) (w : Int) (b : Nat) (hw : w.natAbs = magOfBits b) :
    NoNearer a ((m : K) * 2 ^ k) (m % 2 = 0) w := by
  obtain hpos | hneg := le_or_gt 0 w
  · have hwb : (w : K) = (magOfBits b : Nat) := by
      rw [← hw, ← Int.cast_natCast, Int.natAbs_of_nonneg hpos]
    exact hwb ▸ h.noNearer_magOfBits b
  · have hw0 : (w : K) < 0 := by exact_mod_cast hneg
    have hzero := (h.noNearer_multiple 0).1
    have ha := h.nonneg
    simp only [Nat.cast_zero, zero_mul, zero_sub, abs_neg, abs_of_nonneg ha] at hzero
    refine NoNearer.of_lt (hzero.trans_lt ?_)
    rw [abs_of_nonpos (by linarith)]
    linarith

end IsRounding

/-! ### The rounding of a fraction -/

/-- The exponent k of the spacing at n/d. -/
def rneExp (n d : Nat) : Nat := (n * 2 ^ 149 / d).log2 - 23

/-- The significand of n/d, its carry included. -/
def rneSig (n d : Nat) : Nat := rneDiv (n * 2 ^ 149) (d * 2 ^ rneExp n d)

theorem rneBits_eq (n d : Nat) : rneBits n d = min (rneExp n d * 2 ^ 23 + rneSig n d) 0x7F800000 := rfl

theorem rneSig_le (n : Nat) {d : Nat} (hd : 0 < d) : rneSig n d ≤ 2 ^ 24 := by
  have hu : n * 2 ^ 149 / d < 2 ^ (24 + rneExp n d) :=
    Nat.lt_log2_self.trans_le (Nat.pow_le_pow_right two_pos (by unfold rneExp; omega))
  have hn : n * 2 ^ 149 < 2 ^ 24 * (d * 2 ^ rneExp n d) := by
    calc n * 2 ^ 149 < 2 ^ (24 + rneExp n d) * d := (Nat.div_lt_iff_lt_mul hd).mp hu
      _ = 2 ^ 24 * (d * 2 ^ rneExp n d) := by rw [pow_add]; ring
  have hD : 0 < d * 2 ^ rneExp n d := by positivity
  obtain ⟨hle, -, -⟩ := rneDiv_spec (n * 2 ^ 149) hD
  have hlt : 2 * rneSig n d * (d * 2 ^ rneExp n d) < (2 * 2 ^ 24 + 1) * (d * 2 ^ rneExp n d) := by
    calc 2 * rneSig n d * (d * 2 ^ rneExp n d) = 2 * (rneSig n d * (d * 2 ^ rneExp n d)) := by ring
      _ ≤ 2 * (n * 2 ^ 149) + d * 2 ^ rneExp n d := hle
      _ < 2 * (2 ^ 24 * (d * 2 ^ rneExp n d)) + d * 2 ^ rneExp n d := by gcongr
      _ = _ := by ring
  have := lt_of_mul_lt_mul_right hlt hD.le
  omega

theorem rneExp_normal (n d : Nat) : rneExp n d = 0 ∨ 2 ^ 23 * 2 ^ rneExp n d ≤ n * 2 ^ 149 / d := by
  obtain hk | hk := Nat.eq_zero_or_pos (rneExp n d)
  · exact .inl hk
  · have hlog : 23 + rneExp n d = (n * 2 ^ 149 / d).log2 := by unfold rneExp at hk ⊢; omega
    have hu : n * 2 ^ 149 / d ≠ 0 := by
      intro h0
      rw [h0, Nat.log2_zero] at hlog
      omega
    exact .inr (by rw [← pow_add, hlog]; exact Nat.log2_self_le hu)

theorem isRounding_rneSig (n : Nat) {d : Nat} (hd : 0 < d) :
    IsRounding ((n : K) / d * 2 ^ 149) (rneExp n d) (rneSig n d) := by
  have hdK : (0 : K) < d := by exact_mod_cast hd
  obtain ⟨hle, hge, htie⟩ := rneDiv_spec (n * 2 ^ 149) (show 0 < d * 2 ^ rneExp n d by positivity)
  have herr : ((rneSig n d : K) * 2 ^ rneExp n d - n / d * 2 ^ 149) * d =
      rneSig n d * (d * 2 ^ rneExp n d) - n * 2 ^ 149 := by field_simp
  have habs : |(rneSig n d : K) * 2 ^ rneExp n d - n / d * 2 ^ 149| * (d : K) =
      |(rneSig n d : K) * (d * 2 ^ rneExp n d) - n * 2 ^ 149| := by
    rw [← herr, abs_mul, abs_of_pos hdK]
  have hleK : 2 * ((rneSig n d : K) * (d * 2 ^ rneExp n d)) ≤ 2 * (n * 2 ^ 149) + d * 2 ^ rneExp n d := by
    exact_mod_cast hle
  have hgeK : 2 * ((n : K) * 2 ^ 149) ≤ 2 * (rneSig n d * (d * 2 ^ rneExp n d)) + d * 2 ^ rneExp n d := by
    exact_mod_cast hge
  refine ⟨by positivity, (rneExp_normal n d).imp_right fun h => ?_, rneSig_le n hd, ?_, fun he => htie ?_⟩
  · have hmul : 2 ^ 23 * 2 ^ rneExp n d * d ≤ n * 2 ^ 149 := (Nat.le_div_iff_mul_le hd).mp h
    have hmulK : (2 ^ 23 : K) * 2 ^ rneExp n d * d ≤ n * 2 ^ 149 := by exact_mod_cast hmul
    rw [div_mul_eq_mul_div, le_div_iff₀ hdK]
    exact hmulK
  · refine le_of_mul_le_mul_right ?_ hdK
    rw [habs, abs_le]
    constructor <;> linarith
  · rw [he] at habs
    rcases eq_or_eq_neg_of_abs_eq habs.symm with h | h
    · exact .inl (by exact_mod_cast (by linarith :
        2 * ((rneSig n d : K) * (d * 2 ^ rneExp n d)) = 2 * (n * 2 ^ 149) + d * 2 ^ rneExp n d))
    · exact .inr (by exact_mod_cast (by linarith :
        2 * ((n : K) * 2 ^ 149) = 2 * (rneSig n d * (d * 2 ^ rneExp n d)) + d * 2 ^ rneExp n d))

/-! ### Nearest binary32 -/

/-- `x` is a binary32 nearest to `q`, and an even one if another is as near (00_scope.md R14). The words of infinity
need no exception: their exponent and fraction read as a value of the grid like any other. -/
def IsNearestEven (x : F32) (q : K) : Prop :=
  ∀ y : F32, NoNearer q (f32ToRat x : K) (x.toNat % 2 = 0) (f32ToRat y : K)

theorem IsRounding.isNearestEven {q : K} {k m : Nat} {neg : Bool} (h : IsRounding (|q| * 2 ^ 149) k m)
    (hneg : |q| = if neg then -q else q) (hb : k * 2 ^ 23 + m < 2 ^ 31) :
    IsNearestEven (ofSignBits neg (k * 2 ^ 23 + m)) q := by
  intro y
  have heven : (ofSignBits neg (k * 2 ^ 23 + m)).toNat % 2 = 0 ↔ m % 2 = 0 := by
    rw [toNat_ofSignBits hb]
    cases neg <;> simp <;> omega
  have hw : (if neg then -f32Units y else f32Units y).natAbs = magOfBits (y.toNat % 2 ^ 31) := by
    cases neg <;> simp [natAbs_f32Units]
  have hscaled := (h.noNearer_of_natAbs _ _ hw).mul_left
    (c := if neg then -(2 ^ 149)⁻¹ else (2 ^ 149)⁻¹) (by cases neg <;> simp)
  rw [f32ToRat_eq, f32ToRat_eq, f32Units_ofSignBits hb, h.magOfBits_eq, heven]
  rw [hneg] at hscaled
  convert hscaled using 1 <;> cases neg <;>
    simp only [Bool.false_eq_true, if_true, if_false] <;> push_cast <;> field_simp

end

theorem f32Round_of_ne_zero {num : Int} (zneg : Bool) (den : Nat) (h : num ≠ 0) :
    f32Round zneg num den = ofSignBits (decide (num < 0)) (rneBits num.natAbs den) := by
  rw [f32Round, if_neg h, ofSignBits]
  simp only [decide_eq_true_eq]

theorem rneBits_lt (n d : Nat) : rneBits n d < 2 ^ 31 := by rw [rneBits_eq]; omega

/-- A finite rounding is not clamped to infinity. -/
theorem rneBits_of_finite {neg : Bool} {n d : Nat} (h : f32IsFinite (ofSignBits neg (rneBits n d)) = true) :
    rneBits n d = rneExp n d * 2 ^ 23 + rneSig n d := by
  rw [f32IsFinite_iff, toNat_ofSignBits_mod (rneBits_lt n d), rneBits_eq] at h
  rw [rneBits_eq]
  omega

theorem isNearestEven_f32OfRat {q : Rat} (hfin : f32IsFinite (f32OfRat q) = true) :
    IsNearestEven (f32OfRat q) q := by
  obtain rfl | hq := eq_or_ne q 0
  · intro y
    have h0 : f32ToRat (f32OfRat 0) = 0 := f32ToRat_zero false
    exact ⟨by simp [h0], fun _ _ => rfl⟩
  have hround : f32OfRat q = ofSignBits (decide (q.num < 0)) (rneBits q.num.natAbs q.den) :=
    f32Round_of_ne_zero _ _ (Rat.num_ne_zero.mpr hq)
  rw [hround] at hfin ⊢
  have hlt := rneBits_lt q.num.natAbs q.den
  rw [rneBits_of_finite hfin] at hlt ⊢
  have habs : |q| = (q.num.natAbs : Rat) / q.den := by
    rw [← Rat.num_div_den |q|, Rat.num_abs_eq_abs_num, Rat.den_abs_eq_den, Int.abs_eq_natAbs, Int.cast_natCast]
  have h := isRounding_rneSig (K := Rat) q.num.natAbs q.den_pos
  rw [← habs] at h
  refine h.isNearestEven ?_ hlt
  simp only [decide_eq_true_eq, Rat.num_neg]
  split
  next hn => exact abs_of_neg hn
  next hn => exact abs_of_nonneg (not_lt.mp hn)

/-! ### The rounding depends on the fraction only -/

theorem rneDiv_mul_left {c : Nat} (hc : 0 < c) (n d : Nat) : rneDiv (c * n) (c * d) = rneDiv n d := by
  unfold rneDiv
  simp only [Nat.mul_div_mul_left n d hc, Nat.mul_mod_mul_left, Nat.mul_left_comm 2 c, Nat.mul_lt_mul_left hc]

theorem rneDiv_mul_self (m : Nat) {d : Nat} (hd : 0 < d) : rneDiv (m * d) d = m := by
  unfold rneDiv
  simp only [Nat.mul_div_cancel m hd, Nat.mul_mod_left]
  rw [if_pos (by omega)]

theorem rneBits_mul_left {c : Nat} (hc : 0 < c) (n d : Nat) : rneBits (c * n) (c * d) = rneBits n d := by
  unfold rneBits
  simp only [Nat.mul_assoc c, Nat.mul_div_mul_left _ d hc, rneDiv_mul_left hc]

theorem f32Round_mul_left {c : Nat} (hc : 0 < c) (zneg : Bool) (num : Int) (den : Nat) :
    f32Round zneg (c * num) (c * den) = f32Round zneg num den := by
  obtain rfl | hnum := eq_or_ne num 0
  · rw [mul_zero, f32Round, f32Round, if_pos rfl, if_pos rfl]
  have hcZ : (0 : Int) < c := by exact_mod_cast hc
  rw [f32Round_of_ne_zero _ _ (mul_ne_zero hcZ.ne' hnum), f32Round_of_ne_zero _ _ hnum, Int.natAbs_mul,
    Int.natAbs_natCast, rneBits_mul_left hc]
  simp only [mul_neg_iff, hcZ, hcZ.not_gt, true_and, false_and, or_false]

theorem f32Round_eq {num : Int} {den : Nat} (zneg : Bool) (hden : 0 < den) :
    f32Round zneg num den =
      if (num : Rat) / den = 0 then f32Zero zneg else f32OfRat ((num : Rat) / den) := by
  have hdenQ : (den : Rat) ≠ 0 := by exact_mod_cast hden.ne'
  split
  next h0 =>
    have hnum : num = 0 := by simpa [hdenQ] using h0
    rw [f32Round, if_pos hnum]
  next h0 =>
    obtain ⟨c, hn, hd⟩ := Rat.exists_eq_mul_div_num_and_eq_mul_div_den num (d := den) (by omega)
    rw [Int.cast_natCast] at hn hd
    generalize (num : Rat) / den = q at h0 hn hd
    have hqden : (0 : Int) < q.den := by exact_mod_cast q.den_pos
    have hc : 0 < c := pos_of_mul_pos_left (hd ▸ Int.natCast_pos.mpr hden) hqden.le
    lift c to Nat using hc.le
    have hd' : den = c * q.den := by exact_mod_cast hd
    rw [hn, hd', f32Round_mul_left (by exact_mod_cast hc), f32OfRat,
      f32Round_of_ne_zero _ _ (Rat.num_ne_zero.mpr h0), f32Round_of_ne_zero _ _ (Rat.num_ne_zero.mpr h0)]

theorem f32OfInt_eq_f32OfRat (i : Int) : f32OfInt i = f32OfRat i := rfl

/-! ### A finite value is its own rounding -/

theorem rneExp_of_significand {e m : Nat} (hm : m < 2 ^ 24) (he : e = 0 ∨ 2 ^ 23 ≤ m) :
    rneExp (m * 2 ^ e) (2 ^ 149) = e := by
  rw [rneExp, Nat.mul_div_cancel _ (by positivity)]
  obtain rfl | he := he
  · have hlog : m.log2 < 24 := by
      obtain rfl | h0 := eq_or_ne m 0
      · simp
      · exact (Nat.log2_lt h0).mpr hm
    rw [pow_zero, mul_one]
    omega
  · have hlog : (m * 2 ^ e).log2 = 23 + e :=
      (Nat.log2_eq_iff (by positivity)).mpr
        ⟨by rw [pow_add]; gcongr, by rw [Nat.add_right_comm, pow_add]; gcongr⟩
    omega

theorem rneBits_magOfBits {b : Nat} (hb : b < 0x7F800000) : rneBits (magOfBits b) (2 ^ 149) = b := by
  obtain ⟨e, m, hbits, hm, he, hmag⟩ := exists_significand b
  have hexp : rneExp (m * 2 ^ e) (2 ^ 149) = e := rneExp_of_significand hm he
  have hsig : rneSig (m * 2 ^ e) (2 ^ 149) = m := by
    rw [rneSig, hexp, mul_assoc, mul_comm (2 ^ e)]
    exact rneDiv_mul_self m (by positivity)
  rw [hmag, rneBits_eq, hexp, hsig]
  omega

/-! ### The operations on finite values -/

theorem f32OfRat_f32ToRat {x : F32} (hfin : f32IsFinite x = true) (h0 : f32ToRat x ≠ 0) :
    f32OfRat (f32ToRat x) = x := by
  have hunits : f32Units x ≠ 0 := mt (f32ToRat_eq_zero_iff x).mpr h0
  have hround := f32Round_eq (num := f32Units x) (den := 2 ^ 149) false (by positivity)
  rw [show (f32Units x : Rat) / (2 ^ 149 : Nat) = f32ToRat x by rw [f32ToRat_eq]; push_cast; rfl, if_neg h0,
    f32Round_of_ne_zero _ _ hunits, natAbs_f32Units, rneBits_magOfBits ((f32IsFinite_iff x).mp hfin),
    ← f32Sign_of_units_ne_zero hunits, ofSignBits_self] at hround
  exact hround.symm

section
variable {x y : F32} (hx : f32IsFinite x = true) (hy : f32IsFinite y = true)
include hx hy

theorem f32Add_of_finite : f32Add x y =
    if f32ToRat x + f32ToRat y = 0 then f32Zero (f32Sign x && f32Sign y)
    else f32OfRat (f32ToRat x + f32ToRat y) := by
  have hsum : f32ToRat x + f32ToRat y = ((f32Units x + f32Units y : Int) : Rat) / (2 ^ 149 : Nat) := by
    rw [f32ToRat_eq, f32ToRat_eq]; push_cast; ring
  rw [f32Add, hsum, ← f32Round_eq _ (by positivity)]
  simp only [f32IsNan_of_finite, f32IsInf_of_finite, hx, hy, Bool.or_self, Bool.false_eq_true, if_false]

theorem f32Mul_of_finite : f32Mul x y =
    if f32ToRat x * f32ToRat y = 0 then f32Zero (f32Sign x != f32Sign y)
    else f32OfRat (f32ToRat x * f32ToRat y) := by
  have hprod : f32ToRat x * f32ToRat y = ((f32Units x * f32Units y : Int) : Rat) / (2 ^ 298 : Nat) := by
    rw [f32ToRat_eq, f32ToRat_eq, div_mul_div_comm, ← pow_add, Int.cast_mul, Nat.cast_pow, Nat.cast_ofNat]
  rw [f32Mul, hprod, ← f32Round_eq _ (by positivity)]
  simp only [f32IsNan_of_finite, f32IsInf_of_finite, hx, hy, Bool.or_self, Bool.false_eq_true, if_false]

theorem f32Div_of_finite (h0 : f32ToRat y ≠ 0) : f32Div x y =
    if f32ToRat x = 0 then f32Zero (f32Sign x != f32Sign y) else f32OfRat (f32ToRat x / f32ToRat y) := by
  have hzero : f32IsZero y = false := Bool.eq_false_iff.mpr (mt (f32IsZero_iff y).mp h0)
  have hmag : 0 < f32Mag y := by
    rw [f32Mag_eq_magOfBits, ← natAbs_f32Units]
    exact Int.natAbs_pos.mpr (mt (f32ToRat_eq_zero_iff y).mpr h0)
  have hmagQ : (f32Mag y : Rat) ≠ 0 := by exact_mod_cast hmag.ne'
  have hquot : f32ToRat x / f32ToRat y =
      ((if (f32Sign x != f32Sign y) = true then -(f32Mag x : Int) else (f32Mag x : Int) : Int) : Rat) /
        (f32Mag y : Nat) := by
    rw [f32ToRat_eq, f32ToRat_eq, f32Units, f32Units]
    cases f32Sign x <;> cases f32Sign y <;> simp <;> field_simp
  have hcond : f32ToRat x = 0 ↔ f32ToRat x / f32ToRat y = 0 := by simp [h0]
  simp only [hcond]
  rw [f32Div, hquot, ← f32Round_eq _ hmag]
  simp only [f32IsNan_of_finite, f32IsInf_of_finite, hx, hy, hzero, Bool.or_self, Bool.false_eq_true, if_false]

end

theorem f32Sub_of_finite {x y : F32} (hx : f32IsFinite x = true) (hy : f32IsFinite y = true) : f32Sub x y =
    if f32ToRat x - f32ToRat y = 0 then f32Zero (f32Sign x && !f32Sign y)
    else f32OfRat (f32ToRat x - f32ToRat y) := by
  rw [f32Sub, f32Add_of_finite hx ((f32IsFinite_f32Neg y).trans hy), f32ToRat_f32Neg, f32Sign_f32Neg,
    ← sub_eq_add_neg]

/-! ### The square root -/

theorem isqrtFrom_eq_sqrt {n : Nat} :
    ∀ {i r : Nat}, r * r ≤ n → n < (r + 2 ^ i) * (r + 2 ^ i) → isqrtFrom n i r = n.sqrt
  | 0, _, hle, hlt => Nat.eq_sqrt.mpr ⟨hle, hlt⟩
  | i + 1, r, hle, hlt => by
    have hpow : r + 2 ^ (i + 1) = r + 2 ^ i + 2 ^ i := by rw [pow_succ]; omega
    rw [isqrtFrom]
    split
    next h => exact isqrtFrom_eq_sqrt h (hpow ▸ hlt)
    next h => exact isqrtFrom_eq_sqrt hle (not_le.mp h)

theorem isqrt_eq_sqrt (n : Nat) : isqrt n = n.sqrt := by
  refine isqrtFrom_eq_sqrt (Nat.zero_le n) ?_
  rw [Nat.zero_add, ← pow_add]
  exact Nat.lt_log2_self.trans_le (Nat.pow_le_pow_right two_pos (by omega))

/-- What `f32Sqrt` rounds for the magnitude n · 2^−298, in half units of 2^−149: ⌊√n⌋ and a last bit that is set
when the root is not exact. -/
def stickyRoot (n : Nat) : Nat := 2 * n.sqrt + if n.sqrt * n.sqrt = n then 0 else 1

/-- Where the spacing is above the unit, every boundary between two roundings is an integer: the middle of a unit
interval rounds as each point within it does. -/
theorem IsRounding.of_unit_interval {K : Type*} [Field K] [LinearOrder K] [IsStrictOrderedRing K] {a : K} {r k m : Nat}
    (hk : k ≠ 0) (h : IsRounding ((r : K) + 1 / 2) k m) (hlow : (r : K) < a) (hhigh : a < r + 1) :
    IsRounding a k m := by
  obtain ⟨j, rfl⟩ : ∃ j, k = j + 1 := Nat.exists_eq_add_one_of_ne_zero hk
  have hspacing : (2 : K) ^ (j + 1) / 2 = 2 ^ j := by rw [pow_succ]; field_simp
  obtain ⟨hbelow, habove⟩ := abs_le.mp h.near
  rw [hspacing] at hbelow habove
  have hupper : (r : K) + 1 ≤ m * 2 ^ (j + 1) + 2 ^ j := by
    have hlt : (r : K) < m * 2 ^ (j + 1) + 2 ^ j := by linarith
    have hltNat : r < m * 2 ^ (j + 1) + 2 ^ j := by exact_mod_cast hlt
    exact_mod_cast hltNat
  have hlower : (m : K) * 2 ^ (j + 1) ≤ r + 2 ^ j := by
    have hlt : (m : K) * 2 ^ (j + 1) < r + 2 ^ j + 1 := by linarith
    have hltNat : m * 2 ^ (j + 1) < r + 2 ^ j + 1 := by exact_mod_cast hlt
    exact_mod_cast Nat.lt_succ_iff.mp hltNat
  have hbinade : (2 : K) ^ 23 * 2 ^ (j + 1) ≤ r := by
    have hlt : (2 : K) ^ 23 * 2 ^ (j + 1) < r + 1 := by linarith [h.normal.resolve_left hk]
    have hltNat : 2 ^ 23 * 2 ^ (j + 1) < r + 1 := by exact_mod_cast hlt
    exact_mod_cast Nat.lt_succ_iff.mp hltNat
  have hnear : |(m : K) * 2 ^ (j + 1) - a| < 2 ^ (j + 1) / 2 := by
    rw [hspacing, abs_lt]
    constructor <;> linarith
  exact ⟨r.cast_nonneg.trans hlow.le, .inr (hbinade.trans hlow.le), h.significand, hnear.le,
    fun he => absurd he hnear.ne⟩

theorem IsRounding.sqrt_of_stickyRoot {n k m : Nat} (hk : k ≠ 0)
    (h : IsRounding ((stickyRoot n : ℝ) / 2) k m) : IsRounding (Real.sqrt n) k m := by
  by_cases hexact : n.sqrt * n.sqrt = n
  · have hsqrt : Real.sqrt n = n.sqrt := by
      rw [Real.sqrt_eq_iff_mul_self_eq n.cast_nonneg n.sqrt.cast_nonneg]
      exact_mod_cast hexact.symm
    have hroot : (stickyRoot n : ℝ) / 2 = n.sqrt := by simp [stickyRoot, hexact]
    rwa [hroot, ← hsqrt] at h
  · have hmid : (stickyRoot n : ℝ) / 2 = n.sqrt + 1 / 2 := by
      rw [stickyRoot, if_neg hexact]; push_cast; ring
    have hfloor : (n.sqrt : ℝ) < Real.sqrt n := by
      refine Real.lt_sqrt_of_sq_lt ?_
      rw [pow_two]
      exact_mod_cast lt_of_le_of_ne (Nat.sqrt_le n) hexact
    rw [hmid] at h
    exact h.of_unit_interval hk hfloor Real.real_sqrt_lt_nat_sqrt_succ

theorem rneExp_stickyRoot (n : Nat) : rneExp (stickyRoot n) (2 ^ 150) = n.sqrt.log2 - 23 := by
  have hroot : stickyRoot n * 2 ^ 149 / 2 ^ 150 = n.sqrt := by
    unfold stickyRoot
    split <;> omega
  rw [rneExp, hroot]

theorem magOfBits_lt {b : Nat} (hb : b < 0x7F800000) : magOfBits b < 2 ^ 24 * 2 ^ 253 := by
  obtain ⟨e, m, hbits, hm, he, hmag⟩ := exists_significand b
  calc magOfBits b = m * 2 ^ e := hmag
    _ < 2 ^ 24 * 2 ^ e := by gcongr
    _ ≤ 2 ^ 24 * 2 ^ 253 := by gcongr <;> omega

/-- The integer whose root `f32Sqrt` takes, the value of x in units of 2^−298. -/
def radicand (x : F32) : Nat := f32Mag x * 2 ^ 149

theorem radicand_bounds {x : F32} (hx : f32IsFinite x = true) (hpos : 0 < f32ToRat x) :
    2 ^ 149 ≤ radicand x ∧ radicand x < (2 ^ 213) ^ 2 := by
  have hmag : 0 < f32Mag x := by
    have hunits := f32Units_pos hpos
    rw [f32Units_of_pos hpos] at hunits
    exact_mod_cast hunits
  have hlt : f32Mag x < 2 ^ 24 * 2 ^ 253 := by
    rw [f32Mag_eq_magOfBits]
    exact magOfBits_lt ((f32IsFinite_iff x).mp hx)
  constructor
  · exact Nat.le_mul_of_pos_left _ hmag
  · calc radicand x < 2 ^ 24 * 2 ^ 253 * 2 ^ 149 := Nat.mul_lt_mul_of_pos_right hlt (by positivity)
      _ = (2 ^ 213) ^ 2 := by norm_num

/-- The root of a finite value is in the normal range, with a spacing above the unit. -/
theorem rneExp_root_bounds {x : F32} (hx : f32IsFinite x = true) (hpos : 0 < f32ToRat x) :
    rneExp (stickyRoot (radicand x)) (2 ^ 150) ≠ 0 ∧ rneExp (stickyRoot (radicand x)) (2 ^ 150) < 190 := by
  obtain ⟨hlow, hhigh⟩ := radicand_bounds hx hpos
  have hroot : 2 ^ 74 ≤ (radicand x).sqrt := by
    rw [Nat.le_sqrt', ← pow_mul]
    exact (Nat.pow_le_pow_right two_pos (by norm_num)).trans hlow
  have hroot' : (radicand x).sqrt < 2 ^ 213 := Nat.sqrt_lt'.mpr hhigh
  have hne : (radicand x).sqrt ≠ 0 := by
    intro h0
    rw [h0] at hroot
    exact absurd hroot (by norm_num)
  have hlog : 74 ≤ (radicand x).sqrt.log2 := (Nat.le_log2 hne).mpr hroot
  have hlog' : (radicand x).sqrt.log2 < 213 := (Nat.log2_lt hne).mpr hroot'
  rw [rneExp_stickyRoot]
  omega

theorem rneBits_root {x : F32} (hx : f32IsFinite x = true) (hpos : 0 < f32ToRat x) :
    rneBits (stickyRoot (radicand x)) (2 ^ 150) =
        rneExp (stickyRoot (radicand x)) (2 ^ 150) * 2 ^ 23 + rneSig (stickyRoot (radicand x)) (2 ^ 150) ∧
      rneBits (stickyRoot (radicand x)) (2 ^ 150) < 0x7F800000 := by
  obtain ⟨-, hexp⟩ := rneExp_root_bounds hx hpos
  have hsig := rneSig_le (stickyRoot (radicand x)) (d := 2 ^ 150) (by positivity)
  rw [rneBits_eq]
  omega

theorem f32Sqrt_of_pos {x : F32} (hx : f32IsFinite x = true) (hpos : 0 < f32ToRat x) :
    f32Sqrt x = ofSignBits false (rneBits (stickyRoot (radicand x)) (2 ^ 150)) := by
  have hzero : f32IsZero x = false := Bool.eq_false_iff.mpr (mt (f32IsZero_iff x).mp hpos.ne')
  have hsticky : ((stickyRoot (radicand x) : Nat) : Int) ≠ 0 := by
    intro h0
    obtain ⟨hexp, -⟩ := rneExp_root_bounds hx hpos
    rw [Int.natCast_eq_zero.mp h0] at hexp
    exact hexp (by simp [rneExp])
  have hround : f32Sqrt x = f32Round false (stickyRoot (radicand x) : Nat) (2 ^ 150) := by
    rw [f32Sqrt]
    simp only [f32IsNan_of_finite hx, f32IsInf_of_finite hx, hzero, f32Sign_of_pos hpos, isqrt_eq_sqrt,
      Bool.false_eq_true, if_false]
    rfl
  rw [hround, f32Round_of_ne_zero _ _ hsticky, Int.natAbs_natCast, decide_eq_false (by omega)]

theorem sqrt_f32ToRat {x : F32} (hpos : 0 < f32ToRat x) :
    Real.sqrt (f32ToRat x : Rat) * 2 ^ 149 = Real.sqrt (radicand x) := by
  have hval : ((f32ToRat x : Rat) : ℝ) = radicand x / (2 ^ 149) ^ 2 := by
    rw [f32ToRat_eq, f32Units_of_pos hpos, radicand]
    push_cast
    field_simp
    norm_num
  rw [hval, Real.sqrt_div' _ (by positivity), Real.sqrt_sq (by positivity)]
  field_simp

theorem isNearestEven_f32Sqrt {x : F32} (hx : f32IsFinite x = true) (hpos : 0 < f32ToRat x) :
    IsNearestEven (f32Sqrt x) (Real.sqrt (f32ToRat x : Rat)) := by
  obtain ⟨hbits, hlt⟩ := rneBits_root hx hpos
  obtain ⟨hexp, -⟩ := rneExp_root_bounds hx hpos
  have hsticky : IsRounding ((stickyRoot (radicand x) : ℝ) / 2) (rneExp (stickyRoot (radicand x)) (2 ^ 150))
      (rneSig (stickyRoot (radicand x)) (2 ^ 150)) := by
    have h := isRounding_rneSig (K := ℝ) (stickyRoot (radicand x)) (d := 2 ^ 150) (by positivity)
    convert h using 1
    push_cast
    ring
  have hroot := hsticky.sqrt_of_stickyRoot hexp
  have habs : |Real.sqrt (f32ToRat x : Rat)| = Real.sqrt (f32ToRat x : Rat) := abs_of_nonneg (Real.sqrt_nonneg _)
  rw [← sqrt_f32ToRat hpos, ← habs] at hroot
  rw [f32Sqrt_of_pos hx hpos, hbits]
  exact hroot.isNearestEven habs (by omega)

/-! ### The settled obligations -/

/-- Settles O60: the machine's parameters are chosen among those that meet the constraints. -/
theorem freeParametersMeetTheirConstraints : Obligations.FreeParametersMeetTheirConstraints := by
  have ok := machineParams_ok
  refine ⟨⟨ok.cMax.1, ok.cMax.2, ok.log2tMax.1, ok.log2tMax.2⟩,
    fun r => ⟨(ok.cic r).1, (ok.cic r).2, ok.fir r⟩, ⟨ok.epsFft, ok.epsAtan, ok.phase⟩, ok.halfband,
    ⟨ok.gainOne, ok.gainPositive, ok.gainMonotone⟩, fun im re => ?_⟩
  obtain ⟨hzero, hpos, hneg, hrange⟩ := ok.phaseInRange im re
  exact ⟨hzero, hpos, fun hi hr => (hneg hi hr).trans (f32Pi_eq _),
    (f32IsFinite_iff _).mpr (hrange.trans_lt (by decide)), hrange⟩

/-- Settles O56: the rounding is nearest on the grid of its binade, and the values below that are farther. -/
theorem roundingIsToNearestEven : Obligations.RoundingIsToNearestEven := by
  intro q y hfin _
  exact isNearestEven_f32OfRat hfin y

/-- Settles O57: add, subtract, multiply and divide round one exact fraction; the square root rounds the sticky root,
which lies on the same side of every boundary as the real root. -/
theorem arithmeticRoundsTheExactResult : Obligations.ArithmeticRoundsTheExactResult := by
  refine ⟨fun x y hx hy => ⟨f32Add_of_finite hx hy, f32Sub_of_finite hx hy, f32Mul_of_finite hx hy,
    f32Div_of_finite hx hy, f32OfRat_f32ToRat hx⟩, f32OfInt_eq_f32OfRat,
    fun x hx => ⟨fun h0 => ?_, fun hpos => ⟨?_, ?_, fun y _ => ?_⟩⟩⟩
  · rw [f32Sqrt, f32IsNan_of_finite hx, (f32IsZero_iff x).mpr h0]
    rfl
  · obtain ⟨-, hlt⟩ := rneBits_root hx hpos
    rw [f32Sqrt_of_pos hx hpos, f32IsFinite_iff, toNat_ofSignBits_mod (by omega)]
    exact hlt
  · rw [f32Sqrt_of_pos hx hpos, f32Sign_ofSignBits (rneBits_lt _ _)]
  · obtain ⟨hnear, heven⟩ := isNearestEven_f32Sqrt hx hpos y
    exact ⟨hnear, fun hne => heven (by exact_mod_cast hne)⟩

end Sys2Proof.Machine
end

section
/-! What one step can do to the configurations and the results, and the invariants that follow from it
(10_state.md sections 2 to 7). -/

namespace Sys2Proof.Machine

open Safety

/-! ### What a step does to the configurations and the results -/

/-- The configurations, the registers that show them, and the results; every other field is at its reset value. -/
def State.datapath (s : State) : State :=
  { State.reset with
    halfBytes := s.halfBytes, nbins := s.nbins, running := s.running, dc := s.dc, fc := s.fc, wt := s.wt,
    live := s.live, inflight := s.inflight }

/-- The changes that commands, events and the commit make to the datapath. -/
inductive DatapathStep (P : Config.Params) (s : State) : State → Prop
  | keep : DatapathStep P s s
  | latchDec (dc : DecConfig) (idle : s.inflight = none) (stopped : s.running = false)
      (legal : decConfigOf P s.decCfg = .ok dc) : DatapathStep P s (latchDec P dc s)
  | latchFft (fc : FftConfig) (idle : s.inflight = none) (stopped : s.running = false)
      (legal : fftConfigOf P s.fftCfg s.overlap = .ok fc) : DatapathStep P s (latchFft fc s)
  | avgReset (idle : s.inflight = none) : DatapathStep P s { s with live := avgClear s.live }
  | start (idle : s.inflight = none) (checked : startCheck s = .ok) : DatapathStep P s { s with running := true }
  | stop (idle : s.inflight = none) : DatapathStep P s { s with running := false }
  | softReset : DatapathStep P s (softReset s)
  | accept (h : BufHalf) (dc : DecConfig) (fc : FftConfig) (idle : s.inflight = none) (runs : s.running = true)
      (hdc : s.dc = some dc) (hfc : s.fc = some fc) : DatapathStep P s
        { s with inflight := some ⟨h, processChunk P dc fc s.wt (chunkBytes dc h s.pdm) (gainDb s.gain) s.live⟩ }
  | commit (f : InFlight) (busy : s.inflight = some f) : DatapathStep P s { s with live := f.pend, inflight := none }

/-- The datapath of t is what a datapath step makes of s. -/
def ReachesDatapath (P : Config.Params) (s t : State) : Prop := ∃ u, DatapathStep P s u ∧ t.datapath = u.datapath

section
variable {P : Config.Params} {s t : State}

theorem ReachesDatapath.of_eq (h : t.datapath = s.datapath) : ReachesDatapath P s t := ⟨s, .keep, h⟩

theorem ctrlWrite_datapath (s : State) (v : Word) (r : CtrlReg) : (ctrlWrite s v r).datapath = s.datapath := by
  cases r <;> rfl

theorem drawResults_datapath (s : State) : (drawResults s).2.datapath = s.datapath := by
  rcases drawResults_cases s with ⟨-, h⟩ | ⟨f, -, h, -⟩
  · rw [h]
  · rw [h]; rfl

theorem accept_reachesDatapath {h : BufHalf} (idle : s.inflight = none) (runs : s.running = true)
    (ha : accept P h s = some t) : ReachesDatapath P s t := by
  obtain ⟨dc, fc, hdc, hfc, rfl⟩ := (accept_eq_some_iff P h s t).1 ha
  exact ⟨_, .accept h dc fc idle runs hdc hfc, rfl⟩

theorem commit_reachesDatapath (P : Config.Params) (s : State) : ReachesDatapath P s (commit s) := by
  rcases commit_cases s with ⟨-, h⟩ | ⟨f, busy, h⟩ <;> rw [h]
  · exact .of_eq rfl
  · exact ⟨_, .commit f busy, rfl⟩

/-- A gated command only reports, or does its work on an idle block. -/
theorem whenIdle_reachesDatapath {k : State → State} (h : s.inflight = none → ReachesDatapath P s (k s)) :
    ReachesDatapath P s (whenIdle s k) := by
  rcases whenIdle_cases s k with ⟨-, hk⟩ | ⟨hb, hk⟩ <;> rw [hk]
  · exact .of_eq rfl
  · exact h ((busy_eq_false_iff s).1 hb)

theorem hostEventAt_reachesDatapath {h : BufHalf} (hn : hostEventAt P h s = .next t) : ReachesDatapath P s t := by
  rcases hostEventAt_cases hn with rfl | ⟨idle, runs, u, hu, rfl⟩
  · exact .of_eq rfl
  · exact accept_reachesDatapath (t := u) idle runs hu

theorem portEventAt_reachesDatapath {h : BufHalf} (hn : portEventAt P h s = .next t) : ReachesDatapath P s t := by
  rcases portEventAt_cases hn with ⟨-, rfl⟩ | ⟨idle, runs, hu⟩ | ⟨-, -, rfl⟩
  · exact .of_eq rfl
  · exact accept_reachesDatapath idle runs hu
  · exact .of_eq rfl

theorem runCmdOpAt_reachesDatapath {op : CmdOp} (hn : runCmdOpAt P op s = .next t) : ReachesDatapath P s t := by
  cases op with
  | nop => cases hn; exact .of_eq rfl
  | cfgDec =>
    cases hn
    rcases cfgDecAt_cases P s with ⟨e, h⟩ | ⟨idle, stopped, dc, legal, h⟩ <;> rw [h]
    · exact .of_eq rfl
    · exact ⟨_, .latchDec dc idle stopped legal, rfl⟩
  | cfgFft =>
    cases hn
    rcases cfgFftAt_cases P s with ⟨e, h⟩ | ⟨idle, stopped, fc, legal, h⟩ <;> rw [h]
    · exact .of_eq rfl
    · exact ⟨_, .latchFft fc idle stopped legal, rfl⟩
  | avgReset => cases hn; exact whenIdle_reachesDatapath fun idle => ⟨_, .avgReset idle, rfl⟩
  | start =>
    cases hn
    refine whenIdle_reachesDatapath fun idle => ?_
    split
    · next checked => exact ⟨_, .start idle checked, rfl⟩
    · exact .of_eq rfl
  | stop => cases hn; exact whenIdle_reachesDatapath fun idle => ⟨_, .stop idle, rfl⟩
  | evtHalf => exact hostEventAt_reachesDatapath hn
  | evtFull => exact hostEventAt_reachesDatapath hn
  | softReset => cases hn; exact ⟨_, .softReset, rfl⟩

theorem busReadAt_datapath (P : Config.Params) (a n : Nat) (s : State) :
    (busReadAt P a n s).datapath = s.datapath := by
  rcases busReadAt_cases P a n s with ⟨-, h⟩ | ⟨-, -, h⟩ | ⟨-, -, h⟩ <;> rw [h]
  · rfl
  · exact drawResults_datapath s
  · rfl

theorem busWriteAt_reachesDatapath {a n : Nat} {v : Word} (hn : busWriteAt P a n v s = .next t) :
    ReachesDatapath P s t := by
  rcases busWriteAt_cases hn with rfl | ⟨-, -, -, hc⟩ | ⟨-, -, -, rfl⟩ | ⟨-, -, -, rfl⟩ | ⟨-, -, -, rfl⟩ | ⟨-, rfl⟩
  · exact .of_eq rfl
  · rcases onCmdAt_cases P v s with ⟨op, -, h⟩ | ⟨e, -, h⟩ <;> rw [h] at hc
    · exact runCmdOpAt_reachesDatapath hc
    · cases hc; exact .of_eq rfl
  · exact .of_eq (ctrlWrite_datapath s v _)
  · exact .of_eq rfl
  · exact .of_eq rfl
  · exact .of_eq rfl

theorem execAt_reachesDatapath {i : Instr} (hn : execAt P i s = .next t) : ReachesDatapath P s t := by
  cases i with
  | half | full => exact portEventAt_reachesDatapath hn
  | rd8 | rd16 | rd32 => cases hn; exact .of_eq (busReadAt_datapath ..)
  | wr8 | wr16 | wr32 => exact busWriteAt_reachesDatapath hn
  | nop | cfgDec | cfgFft | avgReset | start | stop | evtHalf | evtFull | softReset =>
    dsimp only [execAt] at hn
    exact runCmdOpAt_reachesDatapath hn

theorem captureWrite_datapath (off : BitVec 13) (b : Byte) (s : State) :
    (captureWrite off b s).datapath = s.datapath := by
  unfold captureWrite
  split <;> rfl

theorem runRejected_datapath (r : Reject) (s : State) : (runRejected r s).datapath = s.datapath := by
  cases r <;> rfl

theorem runInputWith_reachesDatapath {i : Input} (hn : runInputWith (execAt P) i s = .next t) :
    ReachesDatapath P s t := by
  rcases runInputWith_cases hn with ⟨off, b, -, rfl⟩ | ⟨-, rfl⟩ | ⟨ins, -, hx⟩ | ⟨r, -, rfl⟩
  · exact .of_eq (captureWrite_datapath off b s)
  · exact commit_reachesDatapath P s
  · exact execAt_reachesDatapath hx
  · exact .of_eq (runRejected_datapath r s)

/-- A step takes at most one input off the list and makes one datapath step. -/
theorem stepAt_reachesDatapath (hn : stepAt P s = .next t) :
    ∃ rest, ReachesDatapath P { s with inputs := rest } t := by
  obtain ⟨-, ⟨-, rfl⟩ | ⟨i, rest, -, hx⟩⟩ := nextStepWith_cases hn
  · exact ⟨s.inputs, commit_reachesDatapath P s⟩
  · exact ⟨rest, runInputWith_reachesDatapath hx⟩

end

/-! ### Invariants of the datapath -/

/-- A property that reads the datapath only and that every datapath step keeps. -/
structure DatapathInvariant (P : Config.Params) (p : State → Prop) : Prop where
  reads : ∀ s, p s.datapath ↔ p s
  keeps : ∀ s u, p s → DatapathStep P s u → p u

theorem DatapathInvariant.stepAt {P : Config.Params} {p : State → Prop} (inv : DatapathInvariant P p) {s t : State}
    (hs : p s) (hn : stepAt P s = .next t) : p t := by
  obtain ⟨rest, u, hu, htu⟩ := stepAt_reachesDatapath hn
  have taken : p { s with inputs := rest } := (inv.reads _).1 ((inv.reads s).2 hs)
  exact (inv.reads t).1 (htu ▸ (inv.reads u).2 (inv.keeps _ u taken hu))

theorem DatapathInvariant.step {p : State → Prop} (inv : DatapathInvariant machineParams p) {s t : State}
    (hs : p s) (hn : step s = .next t) : p t :=
  inv.stepAt hs (step_eq_stepAt s ▸ hn)

/-- What a property of results under the latched configurations must be shown of, in a state s. -/
structure ResultsKept (P : Config.Params) (p : Option DecConfig → Option FftConfig → Results → Prop) (s : State) :
    Prop where
  reset : p none none Results.reset
  latchDec : ∀ dc, decConfigOf P s.decCfg = .ok dc → p s.dc s.fc s.live → p (some dc) s.fc (latchDec P dc s).live
  latchFft : ∀ fc, fftConfigOf P s.fftCfg s.overlap = .ok fc → p s.dc s.fc s.live →
    p s.dc (some fc) (latchFft fc s).live
  avgClear : p s.dc s.fc s.live → p s.dc s.fc (avgClear s.live)
  chunk : ∀ dc fc bs, s.dc = some dc → s.fc = some fc → p (some dc) (some fc) s.live →
    p (some dc) (some fc) (processChunk P dc fc s.wt bs (gainDb s.gain) s.live)

section
variable {P : Config.Params} {p : Option DecConfig → Option FftConfig → Results → Prop}

theorem ofResults_of_idle {q : Results → Prop} {s : State} (idle : s.inflight = none) (h : q s.live) : ofResults q s :=
  ⟨h, fun f hf => by rw [idle] at hf; cases hf⟩

theorem DatapathStep.ofResults {s u : State} (h : DatapathStep P s u) (kept : ResultsKept P p s)
    (hs : ofResults (p s.dc s.fc) s) : ofResults (p u.dc u.fc) u := by
  obtain ⟨hlive, hpend⟩ := hs
  cases h with
  | keep | start | stop => exact ⟨hlive, hpend⟩
  | latchDec dc idle _ legal => exact ofResults_of_idle idle (kept.latchDec dc legal hlive)
  | latchFft fc idle _ legal => exact ofResults_of_idle idle (kept.latchFft fc legal hlive)
  | avgReset idle => exact ofResults_of_idle idle (kept.avgClear hlive)
  | softReset => exact ofResults_of_idle rfl kept.reset
  | accept h dc fc _ _ hdc hfc =>
    refine ⟨hlive, fun f hf => ?_⟩
    cases hf
    have := kept.chunk dc fc (chunkBytes dc h s.pdm) hdc hfc
    rw [← hdc, ← hfc] at this
    exact this hlive
  | commit f busy => exact ofResults_of_idle rfl (hpend f busy)

/-- A property of the results that an invariant c helps to keep is an invariant together with c. -/
theorem DatapathInvariant.and_ofResults {c : State → Prop} (inv : DatapathInvariant P c)
    (kept : ∀ s, c s → ResultsKept P p s) :
    DatapathInvariant P fun s => c s ∧ ofResults (p s.dc s.fc) s where
  reads s := and_congr (inv.reads s) Iff.rfl
  keeps s u hs h := ⟨inv.keeps s u hs.1 h, h.ofResults (kept s hs.1) hs.2⟩

end

/-! ### The latched configurations -/

theorem startCheck_eq_ok {s : State} (h : startCheck s = .ok) :
    ∃ dc fc, s.dc = some dc ∧ s.fc = some fc ∧ fc.chsel < dc.cout := by
  unfold startCheck at h
  split_ifs at h
  split at h
  · next dc fc hdc hfc =>
    split_ifs at h with hsel
    exact ⟨dc, fc, hdc, hfc, by omega⟩
  · cases h

theorem decConfigOf_cascade_even {P : Config.Params} {w : Word} {dc : DecConfig} (h : decConfigOf P w = .ok dc)
    (hc : dc.casc = true) : dc.nout % 2 = 0 := by
  unfold decConfigOf at h
  dsimp only at h
  split at h
  · cases h
  · split_ifs at h with _ _ _ hodd
    all_goals
      cases h
      exact Nat.mod_two_ne_one.1 fun h1 => hodd ⟨hc, h1⟩

theorem fftConfigOf_rret_lt {P : Config.Params} {w ov : Word} {fc : FftConfig} (h : fftConfigOf P w ov = .ok fc) :
    fc.rret < fc.t := by
  unfold fftConfigOf at h
  dsimp only at h
  split at h
  · cases h
  · split at h
    · cases h
    · split at h
      · cases h
      · split_ifs at h with hr
        cases h
        exact not_le.1 hr

theorem configOk_datapathStep {P : Config.Params} {s u : State} (hs : ConfigOk P s) (h : DatapathStep P s u) :
    ConfigOk P u := by
  have notBusy : ∀ {v : State}, v.inflight = none → v.busy = true → v.running = true := fun idle hb => by
    simp [State.busy, idle] at hb
  cases h with
  | keep => exact hs
  | latchDec dc idle stopped legal =>
    exact { hs with
      dc := fun d hd => by cases hd; exact ⟨_, legal⟩
      halfBytes := rfl
      running := fun hr => by simp [stopped] at hr
      busy := notBusy idle }
  | latchFft fc idle stopped legal =>
    exact { hs with
      fc := fun f hf => by cases hf; exact ⟨_, _, legal⟩
      nbins := rfl
      wt := rfl
      running := fun hr => by simp [stopped] at hr
      busy := notBusy idle }
  | avgReset => exact { hs with }
  | start idle checked => exact { hs with running := fun _ => startCheck_eq_ok (s := s) checked, busy := notBusy idle }
  | stop idle => exact { hs with running := fun hr => (by cases hr), busy := notBusy idle }
  | softReset =>
    exact ⟨fun _ hd => (by cases hd), fun _ hf => (by cases hf), rfl, rfl, rfl, fun hr => (by cases hr), notBusy rfl⟩
  | accept _ _ _ _ runs => exact { hs with busy := fun _ => runs }
  | commit => exact { hs with busy := notBusy rfl }

theorem configOk_invariant (P : Config.Params) : DatapathInvariant P (ConfigOk P) where
  reads _ := ⟨fun h => { h with }, fun h => { h with }⟩
  keeps _ _ := configOk_datapathStep

/-! ### AVG_WARM and PCM_COUNT -/

theorem warm_kept (P : Config.Params) (s : State) :
    ResultsKept P (fun _ _ r => r.avgWarm = warm r.avgCount) s where
  reset := rfl
  latchDec _ _ h := h
  latchFft _ _ _ := rfl
  avgClear _ := rfl
  chunk _ _ _ _ _ _ := rfl

theorem warmOk_invariant (P : Config.Params) : DatapathInvariant P WarmOk where
  reads _ := Iff.rfl
  keeps s _ hs h := h.ofResults (warm_kept P s) hs

theorem pcmCount_kept (P : Config.Params) (s : State) :
    ResultsKept P (fun d _ r => r.pcmCount = 0 ∨ ∃ dc, d = some dc ∧ r.pcmCount = BitVec.ofNat 32 (dc.cout * dc.nfin))
      s where
  reset := .inl rfl
  latchDec _ _ _ := .inl rfl
  latchFft _ _ h := h
  avgClear h := h
  chunk dc _ _ _ _ _ := .inr ⟨dc, rfl, feed_pcmCount ..⟩

theorem pcmCountOk_invariant (P : Config.Params) : DatapathInvariant P PcmCountOk where
  reads _ := Iff.rfl
  keeps s _ hs h := h.ofResults (pcmCount_kept P s) hs

/-! ### The frame buffer -/

/-- The frame buffer of one set of results has T entries and FILL below T; without an FFT configuration it is empty. -/
def FrameFits (f : Option FftConfig) (r : Results) : Prop :=
  match f with
  | none => r.fb = [] ∧ r.fill = 0
  | some fc => r.fb.length = fc.t ∧ r.fill < fc.t

theorem frameOk_iff (s : State) : FrameOk s ↔ ofResults (FrameFits s.fc) s := Iff.rfl

/-- The shape depends on the frame buffer and FILL only. -/
theorem FrameFits.congr {f : Option FftConfig} {r r' : Results} (h : FrameFits f r) (hfb : r'.fb = r.fb)
    (hfill : r'.fill = r.fill) : FrameFits f r' := by
  cases f <;> simpa only [FrameFits, hfb, hfill] using h

theorem FrameFits.feed {P : Config.Params} {fc : FftConfig} (wt : List F32) (hr : fc.rret < fc.t) (qs : List S16)
    (r : Results) (h : FrameFits (some fc) r) : FrameFits (some fc) (feed P fc wt qs r) := by
  refine feed_induction P fc wt (fun r q hr' => ?_) qs r h
  obtain ⟨hlen, hfill⟩ := hr'
  have hset : (r.fb.set r.fill q).length = fc.t := by simp [hlen]
  rcases feedOne_cases P fc wt r q with ⟨-, h⟩ | ⟨hne, h⟩ <;> rw [h]
  · exact ⟨shiftFrame_length hset hr, hr⟩
  · exact ⟨hset, by dsimp only; omega⟩

theorem FrameFits.processChunk {P : Config.Params} {fc : FftConfig} (dc : DecConfig) (wt : List F32)
    (hr : fc.rret < fc.t) (bs : List Byte) (gdb : Int) {r : Results} (h : FrameFits (some fc) r) :
    FrameFits (some fc) (processChunk P dc fc wt bs gdb r) := by
  unfold Machine.processChunk
  refine FrameFits.congr (FrameFits.feed wt hr _ _ ?_) rfl rfl
  exact h.congr rfl rfl

theorem frameFits_kept {P : Config.Params} {s : State} (hs : ConfigOk P s) :
    ResultsKept P (fun _ f => FrameFits f) s where
  reset := ⟨rfl, rfl⟩
  latchDec _ _ h := h.congr rfl rfl
  latchFft fc legal _ := ⟨by simp, (Nat.zero_le _).trans_lt (fftConfigOf_rret_lt legal)⟩
  avgClear h := h.congr rfl rfl
  chunk dc fc bs _ hfc h := by
    obtain ⟨w, ov, legal⟩ := hs.fc fc hfc
    exact h.processChunk dc s.wt (fftConfigOf_rret_lt legal) bs (gainDb s.gain)

theorem frameOk_invariant (P : Config.Params) : DatapathInvariant P fun s => ConfigOk P s ∧ FrameOk s :=
  (configOk_invariant P).and_ofResults fun _ => frameFits_kept

/-! ### The filter memory -/

theorem comb_lines_length {n : Nat} (hn : 1 ≤ n) (lines : List (List Int)) (x : Int)
    (h : ∀ line ∈ lines, line.length = n) : ∀ line ∈ (comb lines x).1, line.length = n := by
  induction lines generalizing x with
  | nil => simp [comb]
  | cons l ls ih =>
    obtain ⟨hl, hls⟩ := List.forall_mem_cons.1 h
    refine List.forall_mem_cons.2 ⟨?_, ih _ hls⟩
    simp only [List.length_cons, List.length_dropLast]
    omega

theorem foldl_integrate_length (bits : List Bool) (xs : List Int) :
    (bits.foldl (fun acc b => integrate acc (level b)) xs).length = xs.length := by
  induction bits generalizing xs with
  | nil => rfl
  | cons b bs ih => rw [List.foldl_cons, ih, integrate_length]

/-- The delay line the filters shift keeps its length. -/
theorem shiftIn_length {α : Type} {n : Nat} {line : List α} (x : α) (h : line.length = n) :
    ((x :: line).take n).length = n := by
  simp [h]

theorem chanOk_primarySample {P : Config.Params} {dc : DecConfig} {m : ChanMem} (hm : 1 ≤ P.mCic dc.rp)
    (h : ChanOk P dc m) (gdb : Int) (bits : List Bool) : ChanOk P dc (primarySample P dc.rp gdb m bits).1 where
  integ := (foldl_integrate_length bits m.integ).trans h.integ
  combd := (comb_length _ _).trans h.combd
  lines := comb_lines_length hm _ _ h.lines
  fird := shiftIn_length _ h.fird
  cascade := h.cascade
  hb := h.hb

theorem chanOk_primarySamples {P : Config.Params} {dc : DecConfig} (hm : 1 ≤ P.mCic dc.rp) (gdb : Int)
    (gs : List (List Bool)) {m : ChanMem} (h : ChanOk P dc m) :
    ChanOk P dc (primarySamples P dc.rp gdb m gs).1 := by
  induction gs generalizing m with
  | nil => exact h
  | cons g gs ih => exact ih (chanOk_primarySample hm h gdb g)

theorem halfband_hbd_length {g : List Rat} (ps : List S16) {h : HbMem} (hl : h.hbd.length = g.length - 1) :
    (halfband g h ps).1.hbd.length = g.length - 1 := by
  induction ps generalizing h with
  | nil => exact hl
  | cons p ps ih => exact ih (shiftIn_length p hl)

/-- Each primary sample flips HBPH. -/
theorem halfband_hbph (g : List Rat) (ps : List S16) (h : HbMem) :
    (halfband g h ps).1.hbph = (h.hbph ^^ ps.length.bodd) := by
  induction ps generalizing h with
  | nil => simp [halfband]
  | cons p ps ih => simp [halfband, ih]

/-- In cascade mode the number of primary samples is even, so HBPH is 0 again after a chunk. -/
theorem chanOk_decimateChannel {P : Config.Params} {dc : DecConfig} {m : ChanMem} (hm : 1 ≤ P.mCic dc.rp)
    (heven : dc.casc = true → dc.nout % 2 = 0) (h : ChanOk P dc m) (gdb : Int) (e : List Byte) (c : Nat) :
    ChanOk P dc (decimateChannel P dc gdb e c m).1 := by
  have hp := chanOk_primarySamples hm gdb ((List.range dc.nout).map (group dc.rp (bitsOf dc.bord (chBytes dc e c)))) h
  unfold decimateChannel
  dsimp only
  split
  · exact hp
  · exact hp
  · next hcasc hhb =>
    obtain ⟨hlen, hph⟩ := hp.hb _ hhb
    have hbodd : dc.nout.bodd = false := by simpa [Nat.mod_two_of_bodd] using heven hcasc
    refine { hp with cascade := hcasc.symm, hb := fun o ho => ?_ }
    cases ho
    exact ⟨halfband_hbd_length _ hlen, by simp [halfband_hbph, hph, primarySamples_length, hbodd]⟩

theorem chanOk_decimateFrom {P : Config.Params} {dc : DecConfig} (hm : 1 ≤ P.mCic dc.rp)
    (heven : dc.casc = true → dc.nout % 2 = 0) (gdb : Int) (e : List Byte) (c : Nat) (ms : List ChanMem)
    (h : ∀ m ∈ ms, ChanOk P dc m) : ∀ o ∈ decimateFrom P dc gdb e c ms, ChanOk P dc o.1 := by
  induction ms generalizing c with
  | nil => simp [decimateFrom]
  | cons m ms ih =>
    obtain ⟨hhead, htail⟩ := List.forall_mem_cons.1 h
    exact List.forall_mem_cons.2 ⟨chanOk_decimateChannel hm heven hhead gdb e c, ih _ htail⟩

theorem chanOk_zeroChan (P : Config.Params) (dc : DecConfig) : ChanOk P dc (zeroChan P dc) where
  integ := by simp [zeroChan]
  combd := by simp [zeroChan]
  lines := by simp [zeroChan]
  fird := by simp [zeroChan]
  cascade := by cases hc : dc.casc <;> simp [zeroChan, hc]
  hb h hh := by
    obtain ⟨-, hh⟩ := Option.ite_none_right_eq_some.1 hh
    cases hh
    simp

/-- Every output channel has filter memory of the configured sizes; without a configuration there is none. -/
def FilterFits (P : Config.Params) (d : Option DecConfig) (r : Results) : Prop :=
  match d with
  | none => r.filt = []
  | some dc => r.filt.length = dc.cout ∧ ∀ m ∈ r.filt, ChanOk P dc m

theorem filterOk_iff (P : Config.Params) (s : State) : FilterOk P s ↔ ofResults (FilterFits P s.dc) s := Iff.rfl

theorem FilterFits.congr {P : Config.Params} {d : Option DecConfig} {r r' : Results} (h : FilterFits P d r)
    (hfilt : r'.filt = r.filt) : FilterFits P d r' := by
  cases d <;> simpa only [FilterFits, hfilt] using h

theorem processChunk_filt (P : Config.Params) (dc : DecConfig) (fc : FftConfig) (wt : List F32) (bs : List Byte)
    (gdb : Int) (r : Results) : (processChunk P dc fc wt bs gdb r).filt = (decimateChunk P dc r.filt bs gdb).1 :=
  feed_filt ..

theorem FilterFits.processChunk {P : Config.Params} {dc : DecConfig} (hm : 1 ≤ P.mCic dc.rp)
    (heven : dc.casc = true → dc.nout % 2 = 0) (fc : FftConfig) (wt : List F32) (bs : List Byte) (gdb : Int)
    {r : Results} (h : FilterFits P (some dc) r) :
    FilterFits P (some dc) (processChunk P dc fc wt bs gdb r) := by
  obtain ⟨hlen, hchan⟩ := h
  rw [FilterFits, processChunk_filt]
  refine ⟨(decimateChunk_filt_length ..).trans hlen, List.forall_mem_map.2 ?_⟩
  exact chanOk_decimateFrom hm heven gdb _ 0 _ hchan

theorem filterFits_kept {P : Config.Params} (hP : ParamsOk P) {s : State} (hs : ConfigOk P s) :
    ResultsKept P (fun d _ => FilterFits P d) s where
  reset := rfl
  latchDec dc _ _ := ⟨by simp, fun m hm => by rw [List.eq_of_mem_replicate hm]; exact chanOk_zeroChan P dc⟩
  latchFft _ _ h := h.congr rfl
  avgClear h := h.congr rfl
  chunk dc fc bs hdc _ h := by
    obtain ⟨w, legal⟩ := hs.dc dc hdc
    exact h.processChunk (hP.cic dc.rp).2 (decConfigOf_cascade_even legal) fc s.wt bs (gainDb s.gain)

theorem filterOk_invariant {P : Config.Params} (hP : ParamsOk P) :
    DatapathInvariant P fun s => ConfigOk P s ∧ FilterOk P s :=
  (configOk_invariant P).and_ofResults fun _ => filterFits_kept hP

/-! ### The settled invariants -/

/-- Settles O34: the datapath steps latch what the configuration commands accept, and a chunk is accepted only while
RUNNING = 1. -/
theorem stepKeepsConfigurationsLegal : Obligations.StepKeepsConfigurationsLegal := by
  intro s t hs hn
  exact (configOk_invariant machineParams).step hs hn

/-- Settles O36: a chunk sets AVG_WARM from AVG_COUNT, and a reset clears both. -/
theorem stepKeepsAvgWarmTrue : Obligations.StepKeepsAvgWarmTrue := by
  intro s t hs hn
  exact (warmOk_invariant machineParams).step hs hn

/-- Settles O37, by induction over the samples of a feed. -/
theorem stepKeepsFrameBufferBounds : Obligations.StepKeepsFrameBufferBounds := by
  intro s t hc hs hn
  exact ((frameOk_invariant machineParams).step ⟨hc, hs⟩ hn).2

/-- Settles O38: every filter shifts its lines, and an even number of primary samples brings HBPH back to 0. -/
theorem stepKeepsFilterMemoryShape : Obligations.StepKeepsFilterMemoryShape := by
  intro s t hc hs hn
  exact ((filterOk_invariant machineParams_ok).step ⟨hc, hs⟩ hn).2

/-- Settles O39: only CFG_DEC and a chunk write PCM_COUNT. -/
theorem stepKeepsPcmCount : Obligations.StepKeepsPcmCount := by
  intro s t _ hs hn
  exact (pcmCountOk_invariant machineParams).step hs hn

end Sys2Proof.Machine
end

section
/-! What reads of the control registers answer, and that a 32-bit write to CMD is the command it encodes
(10_state.md section 2, 30_encoding.md R135, 45_host_commands.md R370, R390). -/

namespace Sys2Proof.Machine

open Rules

/-! ### Reads of the control registers -/

theorem regionOf_control {a : Nat} (h : a < 0x1000) : regionOf a = .control := if_pos h

/-- Every aligned 32-bit access to the control region is permitted. -/
theorem accessOk_control {a : Nat} (h : a < 0x1000) (aligned : a % 4 = 0) : accessOk a 4 = true := by
  simp [accessOk, regionOf_control h, aligned, widthOk]

theorem readData_control (P : Config.Params) (s : State) (r : Results) {a : Nat} (h : a < 0x1000) (n : Nat) :
    readData P s r a n = ctrlRead P s r (ctrlRegAt a) := by
  simp only [readData, regionOf_control h]

theorem ctrlRegAt_reserved {a : Nat} (h : 0x040 ≤ a) : ctrlRegAt a = .reserved := by
  unfold ctrlRegAt
  split
  case h_17 => rfl
  all_goals omega

theorem isResultWord_reserved {a : Nat} (lo : 0x040 ≤ a) (hi : a < 0x1000) : isResultWord a = false := by
  simp only [isResultWord, regionOf_control hi, ctrlRegAt_reserved lo]

/-- A read of a register that no chunk in flight can change answers it from the live state. -/
theorem rd32_control (s : State) {a : Offset} (h : a.toNat < 0x1000) (aligned : a.toNat % 4 = 0)
    (live : isResultWord a.toNat = false ∨ s.inflight = none) :
    exec (.rd32 a) s = .next (s.respond false (ctrlRead machineParams s s.live (ctrlRegAt a.toNat))) := by
  have answer : busReadAt machineParams a.toNat 4 s =
      s.respond false (ctrlRead machineParams s s.live (ctrlRegAt a.toNat)) := by
    rcases busReadAt_cases machineParams a.toNat 4 s with ⟨refused, -⟩ | ⟨-, result, hread⟩ | ⟨-, -, hread⟩
    · rw [accessOk_control h aligned] at refused
      cases refused
    · have idle : s.inflight = none := live.resolve_left (by simp [result])
      rw [hread, readData_control _ _ _ h]
      simp [drawResults, idle]
    · rw [hread, readData_control _ _ _ h]
  exact congrArg Host.Outcome.next answer

/-- PARAMS holds the three parameters, each of which fits its field. -/
theorem paramsWord_eq_paramsValue {P : Config.Params} (h : ParamsOk P) : paramsWord P = paramsValue P := by
  have hc := h.cMax.2
  have hl := h.log2tMax.2
  unfold paramsWord paramsValue
  rw [Nat.mod_eq_of_lt (by omega), Nat.mod_eq_of_lt (by omega)]
  cases P.hbPresent <;> simp

/-! ### STATUS -/

theorem testBit_five_bits : ∀ b0 b1 b2 b3 b4 : Bool,
    let n := b0.toNat + 2 * b1.toNat + 4 * b2.toNat + 8 * b3.toNat + 16 * b4.toNat
    n < 2 ^ 5 ∧ n.testBit 0 = b0 ∧ n.testBit 1 = b1 ∧ n.testBit 2 = b2 ∧ n.testBit 3 = b3 ∧ n.testBit 4 = b4 := by
  decide

/-- The bits of STATUS (10_state.md R34). -/
theorem statusWord_bits (s : State) (avgWarm : Bool) :
    (statusWord s avgWarm).getLsbD 0 = s.dc.isSome ∧ (statusWord s avgWarm).getLsbD 1 = s.fc.isSome ∧
    (statusWord s avgWarm).getLsbD 2 = s.running ∧ (statusWord s avgWarm).getLsbD 3 = s.inflight.isSome ∧
    (statusWord s avgWarm).getLsbD 4 = avgWarm ∧ ∀ k, 5 ≤ k → (statusWord s avgWarm).getLsbD k = false := by
  obtain ⟨hlt, h0, h1, h2, h3, h4⟩ := testBit_five_bits s.dc.isSome s.fc.isSome s.running s.busy avgWarm
  simp only [statusWord, BitVec.getLsbD_ofNat]
  refine ⟨by simpa using h0, by simpa using h1, by simpa using h2, by simpa [State.busy] using h3, by simpa using h4,
    fun k hk => ?_⟩
  rw [Nat.testBit_lt_two_pow (hlt.trans_le (Nat.pow_le_pow_right (by omega) hk)), Bool.and_false]

/-- A read of STATUS takes AVG_WARM from the results it draws. -/
theorem rd32_status (s : State) : exec (.rd32 0x004) s =
    .next ((drawResults s).2.respond false (statusWord s (drawResults s).1.avgWarm)) := rfl

/-! ### Writes to CMD -/

theorem decodeCmd_eq_ok {w : Word} {i : Instr} (h : decodeCmd w = .ok i) :
    ∃ op, decodeCmdOp w = .ok op ∧ op.toInstr = i := by
  unfold decodeCmd at h
  cases hop : decodeCmdOp w with
  | error e => rw [hop] at h; cases h
  | ok op => rw [hop] at h; cases h; exact ⟨op, rfl, rfl⟩

theorem exec_wr32_cmd {w : Word} {i : Instr} (h : decodeCmd w = .ok i) (s : State) :
    exec (.wr32 0x00C w) s = exec i s := by
  obtain ⟨op, hop, rfl⟩ := decodeCmd_eq_ok h
  calc exec (.wr32 0x00C w) s = onCmdAt machineParams w s := rfl
    _ = runCmdOpAt machineParams op s := by rw [onCmdAt, hop]
    _ = exec op.toInstr s := runCmdOpAt_eq_exec op s

/-- With no fault a step runs the instruction its next input decodes to. -/
theorem step_of_decodeInput {s : State} {i : Input} {rest : List Input} {ins : Instr} (hf : s.fault = .none)
    (hi : s.inputs = i :: rest) (hd : decodeInput i = some (.ok ins)) : step s = exec ins { s with inputs := rest } := by
  have taken : step s = runInputWith exec i { s with inputs := rest } := by
    simp only [step, nextStep, nextStepWith, hf, hi]
  rw [taken]
  cases i with
  | cap | commit => cases hd
  | cmd | evt | bus =>
    simp only [decodeInput, Option.some.injEq] at hd
    simp only [runInputWith, hd, runDecoded]

/-! ### The settled statements on registers -/

/-- Settles O16: every register here is no result word, or is read with no chunk in flight. -/
theorem controlReadsAnswerTheirRegister : Obligations.ControlReadsAnswerTheirRegister := by
  intro s
  have params := paramsWord_eq_paramsValue machineParams_ok
  have readParams : exec (.rd32 0x03C) s = .next (s.respond false (paramsValue machineParams)) :=
    params ▸ rd32_control s (a := 0x03C) (by decide) (by decide) (.inl rfl)
  have fixed (a : Offset) (h : a.toNat < 0x1000 ∧ a.toNat % 4 = 0 ∧ isResultWord a.toNat = false) :=
    rd32_control s h.1 h.2.1 (.inl h.2.2)
  refine ⟨⟨fixed 0x000 (by decide), fixed 0x008 (by decide), fixed 0x00C (by decide), fixed 0x010 (by decide),
    fixed 0x014 (by decide), fixed 0x018 (by decide), fixed 0x01C (by decide), fixed 0x020 (by decide),
    fixed 0x030 (by decide), fixed 0x038 (by decide), readParams, fun a lo hi aligned => ?_⟩,
    fun hc hl hb => ?_, fun idle => ?_⟩
  · have reserved := fixed a ⟨hi, aligned, isResultWord_reserved lo hi⟩
    rwa [ctrlRegAt_reserved lo] at reserved
  · have reference : paramsValue machineParams = 0x0000014C := by simp [paramsValue, hc, hl, hb]
    rwa [reference] at readParams
  · have counter (a : Offset) (h : a.toNat < 0x1000 ∧ a.toNat % 4 = 0) := rd32_control s h.1 h.2 (.inr idle)
    exact ⟨counter 0x024 (by decide), counter 0x028 (by decide), counter 0x02C (by decide),
      counter 0x034 (by decide)⟩

/-- Settles O17: a draw gives the live results while idle, and otherwise the live or the pending ones. -/
theorem statusReadShowsTheFlags : Obligations.StatusReadShowsTheFlags := by
  intro s
  obtain ⟨hdc, hfc, hrun, hbusy, hwarm, hzero⟩ := statusWord_bits s (drawResults s).1.avgWarm
  refine ⟨statusWord s (drawResults s).1.avgWarm, (drawResults s).2.draws, ?_, hdc, hfc, hrun, hbusy, hzero, ?_⟩
  · rw [rd32_status]
    rcases drawResults_cases s with ⟨-, h⟩ | ⟨f, -, h, -⟩
    · rw [h]; rfl
    · rw [h]; rfl
  · rw [hwarm]
    rcases drawResults_cases s with ⟨idle, h⟩ | ⟨f, busy, hdraws, hpick⟩
    · rw [h]
      exact ⟨fun _ => ⟨rfl, rfl⟩, fun f hf => by rw [idle] at hf; cases hf⟩
    · refine ⟨fun idle => (by rw [idle] at busy; cases busy), fun f' hf => ?_⟩
      cases busy.symm.trans hf
      rw [hdraws]
      exact ⟨hpick.symm.imp (congrArg _) (congrArg _), rfl⟩

/-- Settles O25: the CMD register, the descriptor of its 32-bit write and the CMD interface all run ON_CMD. -/
theorem cmdWriteIsTheCommand : Obligations.CmdWriteIsTheCommand := by
  intro s w i rest hw
  refine ⟨exec_wr32_cmd hw s, fun hf hi => ?_, fun hf hi => ?_⟩
  · have hdec : decodeInput (.bus 0x6000C w) = some (.ok (.wr32 0x00C w)) := rfl
    rw [step_of_decodeInput hf hi hdec, exec_wr32_cmd hw]
  · exact step_of_decodeInput hf hi (congrArg some hw)

end Sys2Proof.Machine
end

section
/-! Every step keeps the RAMs in canonical form and inside their regions (20_memory.md R91; log 22). -/

namespace Sys2Proof.Machine

open Safety

/-! ### The addresses a RAM lists -/

theorem mem_writeLE {m : Memory} {a n v : Nat} {c : Host.Cell} (h : c ∈ writeLE m a n v) :
    c ∈ m ∨ (a ≤ c.1 ∧ c.1 < a + n) := by
  induction n generalizing m a v with
  | zero => exact .inl h
  | succ n ih =>
    rcases ih h with hput | hrest
    · exact (mem_memPut hput).imp_right fun ⟨hc, _⟩ => by subst hc; simp
    · exact .inr (by omega)

theorem mem_writeHalves {m : Memory} {a : Nat} {vs : List S16} {c : Host.Cell} (h : c ∈ writeHalves m a vs) :
    c ∈ m ∨ (a ≤ c.1 ∧ c.1 < a + 2 * vs.length) := by
  induction vs generalizing m a with
  | nil => exact .inl h
  | cons v vs ih =>
    rw [List.length_cons]
    rcases ih h with hput | hrest
    · exact (mem_writeLE hput).imp_right fun hc => by omega
    · exact .inr (by omega)

theorem mem_writeWords {m : Memory} {a : Nat} {vs : List F32} {c : Host.Cell} (h : c ∈ writeWords m a vs) :
    c ∈ m ∨ (a ≤ c.1 ∧ c.1 < a + 4 * vs.length) := by
  induction vs generalizing m a with
  | nil => exact .inl h
  | cons v vs ih =>
    rw [List.length_cons]
    rcases ih h with hput | hrest
    · exact (mem_writeLE hput).imp_right fun hc => by omega
    · exact .inr (by omega)

theorem regionOf_eq_pdmBuf_iff (a : Nat) : regionOf a = .pdmBuf ↔ 0x2000 ≤ a ∧ a < 0x4000 := by
  unfold regionOf pcmBase pdmBase avgBase
  split_ifs <;> simp <;> omega

theorem pdmWf_iff (m : Memory) :
    pdmWf m = true ↔ memWf m = true ∧ ∀ c ∈ m, 0x2000 ≤ c.1 ∧ c.1 < 0x4000 := by
  simp only [pdmWf, memWithin, Bool.and_eq_true, List.all_eq_true, decide_eq_true_eq]
  rfl

/-- An address of PCM_OUT, AVG or SPEC (20_memory.md R91). -/
def InResultRam (a : Nat) : Prop := (0x1000 ≤ a ∧ a < 0x2000) ∨ (0x4000 ≤ a ∧ a < 0x10000)

theorem ramWf_iff (m : Memory) : ramWf m = true ↔ memWf m = true ∧ ∀ c ∈ m, InResultRam c.1 := by
  have split_window (a : Nat) : InResultRam a ↔ (pcmBase ≤ a ∧ a < 0x10000) ∧ regionOf a ≠ .pdmBuf := by
    rw [Ne, regionOf_eq_pdmBuf_iff]
    unfold InResultRam pcmBase
    omega
  simp only [ramWf, memWithin, Bool.and_eq_true, List.all_eq_true, decide_eq_true_eq, split_window,
    and_assoc, forall_and]

/-! ### What keeps the canonical form -/

theorem pdmWf_writeLE {m : Memory} (h : pdmWf m = true) {a n : Nat} (v : Nat) (lo : 0x2000 ≤ a)
    (hi : a + n ≤ 0x4000) : pdmWf (writeLE m a n v) = true := by
  rw [pdmWf_iff] at *
  exact ⟨memWf_writeLE m a n v h.1, fun c hc => (mem_writeLE hc).elim (h.2 c) fun hin => by omega⟩

theorem ramWf_memClear {m : Memory} (h : ramWf m = true) (lo hi : Nat) : ramWf (memClear m lo hi) = true := by
  rw [ramWf_iff] at *
  exact ⟨memWf_memClear m lo hi h.1, fun c hc => h.2 c (List.mem_of_mem_filter hc)⟩

theorem ramWf_writeHalves {m : Memory} (h : ramWf m = true) {a : Nat} {vs : List S16}
    (inside : ∀ x, a ≤ x → x < a + 2 * vs.length → InResultRam x) : ramWf (writeHalves m a vs) = true := by
  rw [ramWf_iff] at *
  exact ⟨memWf_writeHalves m a vs h.1,
    fun c hc => (mem_writeHalves hc).elim (h.2 c) fun ⟨lo, hi⟩ => inside c.1 lo hi⟩

theorem ramWf_writeWords {m : Memory} (h : ramWf m = true) {a : Nat} {vs : List F32}
    (inside : ∀ x, a ≤ x → x < a + 4 * vs.length → InResultRam x) : ramWf (writeWords m a vs) = true := by
  rw [ramWf_iff] at *
  exact ⟨memWf_writeWords m a vs h.1,
    fun c hc => (mem_writeWords hc).elim (h.2 c) fun ⟨lo, hi⟩ => inside c.1 lo hi⟩

/-! ### How much a chunk writes -/

theorem interleave_length (dc : DecConfig) (q : List (List S16)) : (interleave dc q).length = dc.nfin * dc.cout := by
  simp [interleave]

theorem specWords_length_le (P : Config.Params) (outk : OutKind) (bins : List (F32 × F32)) :
    (specWords P outk bins).length ≤ 2 * bins.length := by
  cases outk with
  | complex => simp [specWords, Nat.mul_comm]
  | magnitude | phase => simp [specWords]; omega

theorem avgWords_length (ram : Memory) (cf : F32) (a : Nat) (ms : List F32) :
    (avgWords ram cf a ms).length = ms.length := by
  induction ms generalizing a with
  | nil => rfl
  | cons m ms ih => simp [avgWords, ih]

theorem frameBins_length (P : Config.Params) (fc : FftConfig) (wt : List F32) (frame : List S16) :
    (frameBins P fc wt frame).length = fc.nb := by
  simp [frameBins]

/-- A chunk fits PCM_OUT (45_host_commands.md R372). -/
theorem decConfigOf_samples_le {P : Config.Params} {w : Word} {dc : DecConfig} (h : decConfigOf P w = .ok dc) :
    dc.cout * dc.nfin ≤ 2048 := by
  unfold decConfigOf at h
  dsimp only at h
  split at h
  · cases h
  · split_ifs at h
    all_goals
      cases h
      dsimp only
      omega

/-- At LOG2T_MAX ≤ 12 a frame has at most 2049 bins (00_scope.md R9, 10_state.md R51). -/
theorem fftConfigOf_nb_le {P : Config.Params} (hP : ParamsOk P) {w ov : Word} {fc : FftConfig}
    (h : fftConfigOf P w ov = .ok fc) : fc.nb ≤ 2049 := by
  unfold fftConfigOf at h
  dsimp only at h
  split at h
  · cases h
  · next hlt =>
    have hpow : 2 ^ field w 0 4 ≤ 2 ^ 12 :=
      Nat.pow_le_pow_right two_pos ((not_lt.1 (not_or.1 hlt).2).trans hP.log2tMax.2)
    split at h
    · cases h
    · split at h
      · cases h
      · split_ifs at h
        cases h
        dsimp only
        omega

/-! ### The result RAM under a chunk -/

section
variable (P : Config.Params) {fc : FftConfig} (wt : List F32)

theorem ramWf_transformCycle (hnb : fc.nb ≤ 2049) (frame : List S16) {r : Results} (h : ramWf r.ram = true) :
    ramWf (transformCycle P fc wt frame r).ram = true := by
  have hbins := frameBins_length P fc wt frame
  have hspec := specWords_length_le P fc.outk (frameBins P fc wt frame)
  refine ramWf_writeWords (ramWf_writeWords h fun x lo hi => ?_) fun x lo hi => ?_
  · unfold specBase at lo hi
    exact .inr (by omega)
  · rw [avgWords_length, List.length_map] at hi
    unfold avgBase at lo hi
    exact .inr (by omega)

theorem ramWf_feed (hnb : fc.nb ≤ 2049) (qs : List S16) (r : Results) (h : ramWf r.ram = true) :
    ramWf (feed P fc wt qs r).ram = true := by
  refine feed_induction P fc wt (p := fun r => ramWf r.ram = true) (fun r q hr => ?_) qs r h
  rcases feedOne_cases P fc wt r q with ⟨-, h⟩ | ⟨-, h⟩ <;> rw [h]
  · exact ramWf_transformCycle P wt hnb _ (r := { r with fb := r.fb.set r.fill q }) hr
  · exact hr

theorem ramWf_processChunk {dc : DecConfig} (hsamples : dc.cout * dc.nfin ≤ 2048) (hnb : fc.nb ≤ 2049)
    (bs : List Byte) (gdb : Int) {r : Results} (h : ramWf r.ram = true) :
    ramWf (processChunk P dc fc wt bs gdb r).ram = true := by
  refine ramWf_feed P wt hnb _ _ (ramWf_writeHalves h fun x lo hi => .inl ?_)
  rw [interleave_length, Nat.mul_comm dc.nfin] at hi
  unfold pcmBase at lo hi
  omega

end

theorem ramWf_kept {P : Config.Params} (hP : ParamsOk P) {s : State} (hs : ConfigOk P s) :
    ResultsKept P (fun _ _ r => ramWf r.ram = true) s where
  reset := reset_ramWf
  latchDec _ _ h := ramWf_memClear h _ _
  latchFft _ _ h := ramWf_memClear h _ _
  avgClear h := ramWf_memClear h _ _
  chunk dc fc bs hdc hfc h := by
    obtain ⟨_, legalDec⟩ := hs.dc dc hdc
    obtain ⟨_, _, legalFft⟩ := hs.fc fc hfc
    exact ramWf_processChunk P s.wt (decConfigOf_samples_le legalDec) (fftConfigOf_nb_le hP legalFft) bs _ h

theorem ramOk_invariant {P : Config.Params} (hP : ParamsOk P) :
    DatapathInvariant P fun s => ConfigOk P s ∧ ofResults (fun r => ramWf r.ram = true) s :=
  (configOk_invariant P).and_ofResults fun _ => ramWf_kept hP

/-! ### PDM_BUF and the inputs under a step -/

/-- The two fields outside the datapath that the agents' steps are about: t has PDM_BUF as in s but for one store
inside it, which may be of no byte, and the same inputs to come. -/
structure StoresInPdm (s t : State) : Prop where
  pdm : ∃ a n v, 0x2000 ≤ a ∧ a + n ≤ 0x4000 ∧ t.pdm = writeLE s.pdm a n v
  inputs : t.inputs = s.inputs

section
variable {P : Config.Params} {s t : State}

theorem StoresInPdm.of_eq (hp : t.pdm = s.pdm) (hi : t.inputs = s.inputs) : StoresInPdm s t :=
  ⟨⟨0x2000, 0, 0, by omega, by omega, hp⟩, hi⟩

theorem StoresInPdm.refl (s : State) : StoresInPdm s s := .of_eq rfl rfl

theorem storePdm_storesInPdm (s : State) {j n : Nat} (hj : j + n ≤ 0x2000) (v : Nat) :
    StoresInPdm s (s.storePdm j n v) :=
  ⟨⟨pdmBase + j, n, v, by unfold pdmBase; omega, by unfold pdmBase; omega, rfl⟩, rfl⟩

theorem commit_storesInPdm (s : State) : StoresInPdm s (commit s) := by
  rcases commit_cases s with ⟨-, h⟩ | ⟨f, -, h⟩ <;> rw [h] <;> exact .of_eq rfl rfl

theorem accept_storesInPdm {h : BufHalf} (ha : accept P h s = some t) : StoresInPdm s t := by
  obtain ⟨dc, fc, -, -, rfl⟩ := (accept_eq_some_iff P h s t).1 ha
  exact .of_eq rfl rfl

theorem portEventAt_storesInPdm {h : BufHalf} (hn : portEventAt P h s = .next t) : StoresInPdm s t := by
  rcases portEventAt_cases hn with ⟨-, rfl⟩ | ⟨-, -, hu⟩ | ⟨-, -, rfl⟩
  · exact .of_eq rfl rfl
  · exact accept_storesInPdm hu
  · exact .refl t

theorem hostEventAt_storesInPdm {h : BufHalf} (hn : hostEventAt P h s = .next t) : StoresInPdm s t := by
  rcases hostEventAt_cases hn with rfl | ⟨-, -, u, hu, rfl⟩
  · exact .of_eq rfl rfl
  · exact ⟨(accept_storesInPdm hu).pdm, (accept_storesInPdm hu).inputs⟩

theorem whenIdle_storesInPdm {k : State → State} (h : StoresInPdm s (k s)) : StoresInPdm s (whenIdle s k) := by
  rcases whenIdle_cases s k with ⟨-, hk⟩ | ⟨-, hk⟩ <;> rw [hk]
  · exact .of_eq rfl rfl
  · exact h

theorem runCmdOpAt_storesInPdm {op : CmdOp} (hn : runCmdOpAt P op s = .next t) : StoresInPdm s t := by
  cases op with
  | nop | softReset => cases hn; exact .of_eq rfl rfl
  | cfgDec =>
    cases hn
    rcases cfgDecAt_cases P s with ⟨e, h⟩ | ⟨-, -, dc, -, h⟩ <;> rw [h] <;> exact .of_eq rfl rfl
  | cfgFft =>
    cases hn
    rcases cfgFftAt_cases P s with ⟨e, h⟩ | ⟨-, -, fc, -, h⟩ <;> rw [h] <;> exact .of_eq rfl rfl
  | avgReset | stop => cases hn; exact whenIdle_storesInPdm (.of_eq rfl rfl)
  | start =>
    cases hn
    refine whenIdle_storesInPdm ?_
    split <;> exact .of_eq rfl rfl
  | evtHalf | evtFull => exact hostEventAt_storesInPdm hn

theorem busReadAt_storesInPdm (P : Config.Params) (a n : Nat) (s : State) : StoresInPdm s (busReadAt P a n s) := by
  rcases busReadAt_cases P a n s with ⟨-, h⟩ | ⟨-, -, h⟩ | ⟨-, -, h⟩ <;> rw [h]
  · exact .of_eq rfl rfl
  · rcases drawResults_cases s with ⟨-, hd⟩ | ⟨f, -, hd, -⟩ <;> rw [hd] <;> exact .of_eq rfl rfl
  · exact .of_eq rfl rfl

theorem ctrlWrite_storesInPdm (s : State) (v : Word) (r : CtrlReg) : StoresInPdm s (ctrlWrite s v r) := by
  cases r <;> exact .of_eq rfl rfl

/-- A permitted access that begins in PDM_BUF ends there, since every width divides its size. -/
theorem pdmBuf_access_inside {a n : Nat} (hok : accessOk a n = true) (hr : regionOf a = .pdmBuf) :
    a + n ≤ 0x4000 := by
  obtain ⟨-, hi⟩ := (regionOf_eq_pdmBuf_iff a).1 hr
  simp only [accessOk, hr, widthOk, Bool.and_eq_true, Bool.or_eq_true, beq_iff_eq] at hok
  obtain ⟨aligned, (rfl | rfl) | rfl⟩ := hok <;> omega

theorem busWriteAt_storesInPdm {a n : Nat} {v : Word} (hn : busWriteAt P a n v s = .next t) : StoresInPdm s t := by
  rcases busWriteAt_cases hn with rfl | ⟨-, -, -, hc⟩ | ⟨-, -, -, rfl⟩ | ⟨-, -, -, rfl⟩ | ⟨hok, hr, -, rfl⟩ | ⟨-, rfl⟩
  · exact .of_eq rfl rfl
  · rcases onCmdAt_cases P v s with ⟨op, -, h⟩ | ⟨e, -, h⟩ <;> rw [h] at hc
    · exact runCmdOpAt_storesInPdm hc
    · cases hc; exact .of_eq rfl rfl
  · exact ⟨(ctrlWrite_storesInPdm s v _).pdm, (ctrlWrite_storesInPdm s v _).inputs⟩
  · exact .of_eq rfl rfl
  · have inside := pdmBuf_access_inside hok hr
    have store := storePdm_storesInPdm s (j := a - pdmBase) (n := n)
      (by have := (regionOf_eq_pdmBuf_iff a).1 hr; unfold pdmBase; omega) v.toNat
    exact ⟨store.pdm, store.inputs⟩
  · exact .of_eq rfl rfl

theorem execAt_storesInPdm {i : Instr} (hn : execAt P i s = .next t) : StoresInPdm s t := by
  cases i with
  | half | full => exact portEventAt_storesInPdm hn
  | rd8 | rd16 | rd32 => cases hn; exact busReadAt_storesInPdm ..
  | wr8 | wr16 | wr32 => exact busWriteAt_storesInPdm hn
  | nop | cfgDec | cfgFft | avgReset | start | stop | evtHalf | evtFull | softReset =>
    dsimp only [execAt] at hn
    exact runCmdOpAt_storesInPdm hn

theorem captureWrite_storesInPdm (off : BitVec 13) (b : Byte) (s : State) : StoresInPdm s (captureWrite off b s) := by
  unfold captureWrite
  split
  · exact .of_eq rfl rfl
  · exact storePdm_storesInPdm s (Nat.succ_le_of_lt off.isLt) b.toNat

theorem runRejected_storesInPdm (r : Reject) (s : State) : StoresInPdm s (runRejected r s) := by
  cases r <;> exact .of_eq rfl rfl

theorem runInputWith_storesInPdm {i : Input} (hn : runInputWith (execAt P) i s = .next t) : StoresInPdm s t := by
  rcases runInputWith_cases hn with ⟨off, b, -, rfl⟩ | ⟨-, rfl⟩ | ⟨ins, -, hx⟩ | ⟨r, -, rfl⟩
  · exact captureWrite_storesInPdm off b s
  · exact commit_storesInPdm s
  · exact execAt_storesInPdm hx
  · exact runRejected_storesInPdm r s

/-- A step takes the first input off the list, if there is one, and stores at most once in PDM_BUF. -/
theorem stepAt_storesInPdm (hn : stepAt P s = .next t) : StoresInPdm { s with inputs := s.inputs.tail } t := by
  obtain ⟨-, ⟨hnil, rfl⟩ | ⟨i, rest, hcons, hx⟩⟩ := nextStepWith_cases hn
  · have same : s.inputs.tail = s.inputs := by rw [hnil, List.tail_nil]
    rw [same]
    exact commit_storesInPdm s
  · rw [hcons]
    exact runInputWith_storesInPdm hx

theorem StoresInPdm.pdmWf (h : StoresInPdm s t) (hs : pdmWf s.pdm = true) : pdmWf t.pdm = true := by
  obtain ⟨a, n, v, lo, hi, hp⟩ := h.pdm
  rw [hp]
  exact pdmWf_writeLE hs v lo hi

end

/-! ### The settled invariant -/

/-- Settles O35: host and capture writes store inside PDM_BUF, and the latched configurations bound what a chunk writes
to PCM_OUT, SPEC and AVG. -/
theorem stepKeepsMemoryCanonical : Obligations.StepKeepsMemoryCanonical := by
  intro s t hc hs hn
  have stored := stepAt_storesInPdm (step_eq_stepAt s ▸ hn)
  exact ⟨stored.pdmWf hs.pdm, ((ramOk_invariant machineParams_ok).step ⟨hc, hs.ram⟩ hn).2⟩

end Sys2Proof.Machine
end

section
/-! Bus reads and bus writes: what they answer, and what they leave alone (20_memory.md R95 to R105,
45_host_commands.md R390, R391). -/

namespace Sys2Proof.Machine

open Rules

/-! ### Regions and permitted accesses -/

theorem regionOf_eq_control_iff (a : Nat) : regionOf a = .control ↔ a < 0x1000 := by
  unfold regionOf pcmBase pdmBase avgBase
  split_ifs <;> simp <;> omega

theorem regionOf_eq_pcmOut_iff (a : Nat) : regionOf a = .pcmOut ↔ 0x1000 ≤ a ∧ a < 0x2000 := by
  unfold regionOf pcmBase pdmBase avgBase
  split_ifs <;> simp <;> omega

theorem regionOf_eq_avg_or_spec_iff (a : Nat) : regionOf a = .avg ∨ regionOf a = .spec ↔ 0x4000 ≤ a := by
  unfold regionOf pcmBase pdmBase avgBase
  split_ifs <;> simp <;> omega

/-- The machine's check of an access is alignment and the table of widths (20_memory.md R95, R96). -/
theorem accessOk_iff {a n : Nat} (hn : n = 1 ∨ n = 2 ∨ n = 4) :
    accessOk a n = true ↔ a % n = 0 ∧ permitted a n := by
  rw [accessOk, Bool.and_eq_true, beq_iff_eq]
  refine and_congr_right fun _ => ?_
  unfold permitted
  cases hr : regionOf a with
  | control =>
    have := (regionOf_eq_control_iff a).1 hr
    simp only [widthOk, beq_iff_eq]
    omega
  | pcmOut =>
    have := (regionOf_eq_pcmOut_iff a).1 hr
    simp only [widthOk, Bool.or_eq_true, beq_iff_eq]
    omega
  | pdmBuf =>
    have := (regionOf_eq_pdmBuf_iff a).1 hr
    simp only [widthOk, Bool.or_eq_true, beq_iff_eq]
    omega
  | avg | spec =>
    have := (regionOf_eq_avg_or_spec_iff a).1 (by simp [hr])
    simp only [widthOk, beq_iff_eq]
    omega

theorem width_of_mem_reads {a : Offset} {n : Nat} {i : Instr} (h : (n, i) ∈ reads a) : n = 1 ∨ n = 2 ∨ n = 4 := by
  simp only [reads, List.mem_cons, Prod.mk.injEq, List.not_mem_nil, or_false] at h
  exact h.imp And.left (Or.imp And.left And.left)

theorem width_of_mem_writes {a : Offset} {v : Word} {n : Nat} {i : Instr} (h : (n, i) ∈ writes a v) :
    n = 1 ∨ n = 2 ∨ n = 4 := by
  simp only [writes, List.mem_cons, Prod.mk.injEq, List.not_mem_nil, or_false] at h
  exact h.imp And.left (Or.imp And.left And.left)

theorem exec_of_mem_reads {a : Offset} {n : Nat} {i : Instr} (h : (n, i) ∈ reads a) (s : State) :
    exec i s = .next (busReadAt machineParams a.toNat n s) := by
  simp only [reads, List.mem_cons, Prod.mk.injEq, List.not_mem_nil, or_false] at h
  obtain ⟨rfl, rfl⟩ | ⟨rfl, rfl⟩ | ⟨rfl, rfl⟩ := h <;> rfl

theorem exec_of_mem_writes {a : Offset} {v : Word} {n : Nat} {i : Instr} (h : (n, i) ∈ writes a v) (s : State) :
    exec i s = busWriteAt machineParams a.toNat n v s := by
  simp only [writes, List.mem_cons, Prod.mk.injEq, List.not_mem_nil, or_false] at h
  obtain ⟨rfl, rfl⟩ | ⟨rfl, rfl⟩ | ⟨rfl, rfl⟩ := h <;> rfl

/-! ### Reads -/

/-- A read changes only the response and the count of free choices. -/
theorem busReadAt_frame (P : Config.Params) (a n : Nat) (s : State) :
    ∃ resp draws, busReadAt P a n s = { s with resp := some resp, draws := draws } := by
  rcases busReadAt_cases P a n s with ⟨-, h⟩ | ⟨-, -, h⟩ | ⟨-, -, h⟩ <;> rw [h]
  · exact ⟨_, _, rfl⟩
  · rcases drawResults_cases s with ⟨-, hd⟩ | ⟨f, -, hd, -⟩ <;> rw [hd] <;> exact ⟨_, _, rfl⟩
  · exact ⟨_, _, rfl⟩

/-- A permitted read of a result word while a chunk is in flight draws the live or the pending results. -/
theorem busReadAt_resultWord_busy (P : Config.Params) {a n : Nat} {s : State} {f : InFlight}
    (busy : s.inflight = some f) (hok : accessOk a n = true) (hresult : isResultWord a = true) :
    ∃ r, (r = s.live ∨ r = f.pend) ∧
      busReadAt P a n s = { s with draws := s.draws + 1, resp := some ⟨false, readData P s r a n⟩ } := by
  have hread : busReadAt P a n s = (drawResults s).2.respond false (readData P s (drawResults s).1 a n) := by
    simp [busReadAt, hok, hresult]
  rcases drawResults_cases s with ⟨idle, -⟩ | ⟨f', busy', hstate, hpick⟩
  · rw [busy] at idle; cases idle
  · cases busy.symm.trans busy'
    refine ⟨(drawResults s).1, hpick.symm, ?_⟩
    rw [hread, hstate]
    rfl

/-- The result words: STATUS, the counters, PCM_OUT, AVG and SPEC (20_memory.md R101). -/
theorem isResultWord_of_mem {a : Nat}
    (h : a ∈ [0x004, 0x024, 0x028, 0x02C, 0x034] ∨ (0x1000 ≤ a ∧ a < 0x2000) ∨ 0x4000 ≤ a) :
    isResultWord a = true := by
  rcases h with hctrl | hpcm | hhigh
  · exact (by decide : ∀ x ∈ [0x004, 0x024, 0x028, 0x02C, 0x034], isResultWord x = true) a hctrl
  · simp only [isResultWord, (regionOf_eq_pcmOut_iff a).2 hpcm]
  · rcases (regionOf_eq_avg_or_spec_iff a).2 hhigh with hr | hr <;> simp only [isResultWord, hr]

/-- A little-endian value is the sum of its bytes by their weights (20_memory.md R92). -/
theorem readLE_eq_sum (byte : Nat → Byte) (a n : Nat) :
    readLE byte a n = ∑ k ∈ Finset.range n, (byte (a + k)).toNat * 2 ^ (8 * k) := by
  induction n generalizing a with
  | zero => rfl
  | succ n ih =>
    rw [readLE, ih, Finset.sum_range_succ', Finset.mul_sum, add_comm]
    refine congrArg₂ (· + ·) (Finset.sum_congr rfl fun k _ => ?_) (by simp)
    rw [show a + 1 + k = a + (k + 1) by omega, show 8 * (k + 1) = 8 + 8 * k by omega, pow_add]
    ring

theorem readData_ram (P : Config.Params) (s : State) (r : Results) {a : Nat} (h : 0x1000 ≤ a) (n : Nat) :
    readData P s r a n =
      BitVec.ofNat 32 (∑ k ∈ Finset.range n, (ramByteAt s r (a + k)).toNat * 2 ^ (8 * k)) := by
  rw [← readLE_eq_sum]
  cases hr : regionOf a with
  | control => exact absurd ((regionOf_eq_control_iff a).1 hr) (by omega)
  | pcmOut | pdmBuf | avg | spec => simp only [readData, hr]

theorem ramByteAt_resultRam (s : State) (r : Results) {a : Nat} (h : ¬ (0x2000 ≤ a ∧ a < 0x4000)) :
    ramByteAt s r a = ramByte r.ram a :=
  if_neg (mt (regionOf_eq_pdmBuf_iff a).1 h)

/-- A read of PCM_OUT, AVG or SPEC answers bytes of the results it sees. -/
theorem readData_resultRam (P : Config.Params) (s : State) (r : Results) {a n : Nat} (lo : 0x1000 ≤ a)
    (h : a + n ≤ 0x2000 ∨ 0x4000 ≤ a) :
    readData P s r a n =
      BitVec.ofNat 32 (∑ k ∈ Finset.range n, (ramByte r.ram (a + k)).toNat * 2 ^ (8 * k)) := by
  rw [readData_ram P s r lo]
  refine congrArg _ (Finset.sum_congr rfl fun k hk => ?_)
  have := Finset.mem_range.1 hk
  rw [ramByteAt_resultRam s r (by omega)]

/-! ### Writes that are ignored -/

/-- The registers that a bus write does not change (45_host_commands.md R391; 20_memory.md R98). -/
def CtrlReg.readOnly : CtrlReg → Bool
  | .cmd | .decCfg | .gain | .fftCfg | .overlap | .fsHz => false
  | .id | .status | .errcode | .chunkCount | .frameCount | .avgCount | .halfBytes | .pcmCount | .nbins | .params
  | .reserved => true

theorem ctrlWrite_readOnly (s : State) (v : Word) {r : CtrlReg} (h : r.readOnly = true) : ctrlWrite s v r = s := by
  cases r with
  | cmd | decCfg | gain | fftCfg | overlap | fsHz => cases h
  | id | status | errcode | chunkCount | frameCount | avgCount | halfBytes | pcmCount | nbins | params
  | reserved => rfl

/-- The offsets of the read-only registers and the reserved ones (10_state.md R32). -/
theorem ctrlRegAt_readOnly {a : Nat}
    (h : a ∈ [0x000, 0x004, 0x008, 0x024, 0x028, 0x02C, 0x030, 0x034, 0x038, 0x03C] ∨ 0x040 ≤ a) :
    (ctrlRegAt a).readOnly = true := by
  rcases h with hlisted | hreserved
  · exact (by decide : ∀ x ∈ [0x000, 0x004, 0x008, 0x024, 0x028, 0x02C, 0x030, 0x034, 0x038, 0x03C],
      (ctrlRegAt x).readOnly = true) a hlisted
  · rw [ctrlRegAt_reserved hreserved]
    rfl

theorem busWriteAt_readOnlyRegister (P : Config.Params) {a n : Nat} (v : Word) (s : State)
    (hok : accessOk a n = true) (hr : regionOf a = .control) (hro : (ctrlRegAt a).readOnly = true) :
    busWriteAt P a n v s = .next (s.respond false 0) := by
  have notCmd : ctrlRegAt a ≠ .cmd := fun h => by rw [h] at hro; cases hro
  simp only [busWriteAt, hok, hr, notCmd, ctrlWrite_readOnly s v hro, Bool.true_eq_false, if_false]

theorem busWriteAt_resultRam (P : Config.Params) {a n : Nat} (v : Word) (s : State) (hok : accessOk a n = true)
    (hr : regionOf a = .pcmOut ∨ regionOf a = .avg ∨ regionOf a = .spec) :
    busWriteAt P a n v s = .next (s.respond false 0) := by
  rcases hr with hr | hr | hr <;> simp only [busWriteAt, hok, hr, Bool.true_eq_false, if_false]

/-! ### The settled statements on the bus -/

/-- Settles O19: a draw gives the live or the pending results, and the data of a result word are read from those. -/
theorem busyReadsOfResultWordsAreOldOrNew : Obligations.BusyReadsOfResultWordsAreOldOrNew := by
  intro s f a n i hi busy aligned hperm hword
  have hn := width_of_mem_reads hi
  have hok := (accessOk_iff hn).2 ⟨aligned, hperm⟩
  obtain ⟨r, hpick, hread⟩ := busReadAt_resultWord_busy machineParams busy hok (isResultWord_of_mem hword)
  have register {b : Nat} (hb : b < 0x1000) (h : a.toNat = b) :
      readData machineParams s r a.toNat n = ctrlRead machineParams s r (ctrlRegAt b) :=
    h ▸ readData_control machineParams s r (h ▸ hb) n
  refine ⟨r, hpick, (exec_of_mem_reads hi s).trans (congrArg _ hread), fun lo => ?_, register (by decide),
    register (by decide), register (by decide), register (by decide), fun h => ?_⟩
  · refine readData_resultRam machineParams s r lo ?_
    rcases hword with hctrl | ⟨-, hlt⟩ | hhigh
    · simp only [List.mem_cons, List.not_mem_nil, or_false] at hctrl
      omega
    · rcases hn with rfl | rfl | rfl <;> omega
    · exact .inr hhigh
  · obtain ⟨hdc, hfc, hrun, hbusy, hwarm, hzero⟩ := statusWord_bits s r.avgWarm
    rw [register (by decide) h]
    exact ⟨hwarm, hbusy.trans (by rw [busy]; rfl), hrun, hfc, hdc, hzero⟩

/-- Settles O20: a read answers an error, the live results or the drawn ones, and stores nothing. -/
theorem readsHaveNoSideEffect : Obligations.ReadsHaveNoSideEffect := by
  intro s a n i hi
  obtain ⟨resp, draws, h⟩ := busReadAt_frame machineParams a.toNat n s
  exact ⟨resp, draws, (exec_of_mem_reads hi s).trans (congrArg _ h)⟩

/-- Settles O23: the write is permitted, so it is answered, and none of these places takes it. -/
theorem writesToReadOnlyLocationsAreIgnored : Obligations.WritesToReadOnlyLocationsAreIgnored := by
  intro s a v n i hi aligned hperm hplace
  have hok := (accessOk_iff (width_of_mem_writes hi)).2 ⟨aligned, hperm⟩
  refine ⟨0, (exec_of_mem_writes hi s).trans ?_⟩
  by_cases hcontrol : a.toNat < 0x1000
  · have readOnly := ctrlRegAt_readOnly (hplace.imp_right fun h => by omega)
    exact busWriteAt_readOnlyRegister machineParams v s hok (regionOf_control hcontrol) readOnly
  · refine busWriteAt_resultRam machineParams v s hok ?_
    rcases hplace with hlisted | ⟨-, hpcm⟩ | hhigh
    · simp only [List.mem_cons, List.not_mem_nil, or_false] at hlisted
      omega
    · exact .inl ((regionOf_eq_pcmOut_iff _).2 ⟨by omega, hpcm⟩)
    · exact .inr ((regionOf_eq_avg_or_spec_iff _).2 hhigh)

end Sys2Proof.Machine
end

section
/-! Equal CHUNK_COUNTs at two idle states mean an untorn snapshot (20_memory.md R106, 70_reset_and_hazards.md R607):
without a command every commit counts CHUNK_COUNT up by one, and fewer than 2^32 commits do not bring it back. -/

namespace Sys2Proof.Machine

open Safety
open Host.Core (run)

/-! ### What a step without a command does to the results -/

/-- The changes that events and the commit make to the results and the chunk in flight. -/
inductive ChunkStep (s t : State) : Prop
  | keep (live : t.live = s.live) (inflight : t.inflight = s.inflight)
  | accept (f : InFlight) (idle : s.inflight = none) (live : t.live = s.live) (inflight : t.inflight = some f)
      (counts : f.pend.chunkCount = s.live.chunkCount + 1)
  | commit (f : InFlight) (busy : s.inflight = some f) (live : t.live = f.pend) (inflight : t.inflight = none)

section
variable {P : Config.Params} {s t : State}

theorem ChunkStep.of_datapath (h : t.datapath = s.datapath) : ChunkStep s t := by
  have live : t.datapath.live = s.datapath.live := by rw [h]
  have inflight : t.datapath.inflight = s.datapath.inflight := by rw [h]
  exact .keep live inflight

/-- The inputs still to come do not matter. -/
theorem ChunkStep.of_inputs {rest : List Input} (h : ChunkStep { s with inputs := rest } t) : ChunkStep s t := by
  cases h with
  | keep live inflight => exact .keep live inflight
  | accept f idle live inflight counts => exact .accept f idle live inflight counts
  | commit f busy live inflight => exact .commit f busy live inflight

theorem wrapInc_eq_add_one (w : Word) : wrapInc w = w + 1 := by
  apply BitVec.eq_of_toNat_eq
  simp [wrapInc]

/-- A chunk counts itself (41_bitstream_handoff.md R254). -/
theorem processChunk_chunkCount (P : Config.Params) (dc : DecConfig) (fc : FftConfig) (wt : List F32) (bs : List Byte)
    (gdb : Int) (r : Results) : (processChunk P dc fc wt bs gdb r).chunkCount = r.chunkCount + 1 := by
  rw [← wrapInc_eq_add_one]
  exact congrArg wrapInc (feed_chunkCount ..)

theorem accept_chunkStep {h : BufHalf} (idle : s.inflight = none) (ha : accept P h s = some t) : ChunkStep s t := by
  obtain ⟨dc, fc, -, -, rfl⟩ := (accept_eq_some_iff P h s t).1 ha
  exact .accept _ idle rfl rfl (processChunk_chunkCount ..)

theorem commit_chunkStep (s : State) : ChunkStep s (commit s) := by
  rcases commit_cases s with ⟨-, h⟩ | ⟨f, busy, h⟩ <;> rw [h]
  · exact .keep rfl rfl
  · exact .commit f busy rfl rfl

theorem portEventAt_chunkStep {h : BufHalf} (hn : portEventAt P h s = .next t) : ChunkStep s t := by
  rcases portEventAt_cases hn with ⟨-, rfl⟩ | ⟨idle, -, hu⟩ | ⟨-, -, rfl⟩
  · exact .keep rfl rfl
  · exact accept_chunkStep idle hu
  · exact .keep rfl rfl

theorem ctrlRegAt_eq_cmd {a : Nat} (h : ctrlRegAt a = .cmd) : a = 0x00C := by
  unfold ctrlRegAt at h
  split at h
  case h_4 => rfl
  all_goals cases h

theorem width_of_accessOk_control {a n : Nat} (hok : accessOk a n = true) (hr : regionOf a = .control) : n = 4 := by
  simp only [accessOk, hr, widthOk, Bool.and_eq_true, beq_iff_eq] at hok
  exact hok.2

theorem busWriteAt_chunkStep {a n : Nat} {v : Word} (notCmd : ¬ (n = 4 ∧ a = 0x00C))
    (hn : busWriteAt P a n v s = .next t) : ChunkStep s t := by
  rcases busWriteAt_cases hn with rfl | ⟨hok, hr, hcmd, -⟩ | ⟨-, -, -, rfl⟩ | ⟨-, -, -, rfl⟩ | ⟨-, -, -, rfl⟩ | ⟨-, rfl⟩
  · exact .keep rfl rfl
  · exact absurd ⟨width_of_accessOk_control hok hr, ctrlRegAt_eq_cmd hcmd⟩ notCmd
  · exact .of_datapath (ctrlWrite_datapath s v _)
  · exact .keep rfl rfl
  · exact .keep rfl rfl
  · exact .keep rfl rfl

/-- An instruction is neither a command nor a 32-bit write to CMD. -/
def instrNotCommand : Instr → Bool
  | .nop | .cfgDec | .cfgFft | .avgReset | .start | .stop | .evtHalf | .evtFull | .softReset => false
  | .half | .full | .rd8 _ | .rd16 _ | .rd32 _ | .wr8 _ _ | .wr16 _ _ => true
  | .wr32 a _ => a != 0x00C

theorem execAt_chunkStep {i : Instr} (hi : instrNotCommand i = true) (hn : execAt P i s = .next t) :
    ChunkStep s t := by
  cases i with
  | nop | cfgDec | cfgFft | avgReset | start | stop | evtHalf | evtFull | softReset => cases hi
  | half | full => exact portEventAt_chunkStep hn
  | rd8 | rd16 | rd32 => cases hn; exact .of_datapath (busReadAt_datapath ..)
  | wr8 | wr16 => exact busWriteAt_chunkStep (by omega) hn
  | wr32 a v =>
    refine busWriteAt_chunkStep (fun ⟨_, ha⟩ => ?_) hn
    have : a ≠ 0x00C := by simpa [instrNotCommand] using hi
    exact this (BitVec.eq_of_toNat_eq ha)

/-! ### Inputs that are no command -/

theorem decodeEvt_notCommand {code : BitVec 2} {i : Instr} (h : decodeEvt code = .ok i) :
    instrNotCommand i = true := by
  unfold decodeEvt at h
  split at h <;> cases h <;> rfl

/-- The only descriptor of a 32-bit write to CMD is 0x6000C (30_encoding.md R135). -/
theorem decodeBus_notCommand {desc : BitVec 19} {v : Word} {i : Instr} (hd : desc ≠ 0x6000C)
    (h : decodeBus desc v = .ok i) : instrNotCommand i = true := by
  unfold decodeBus at h
  dsimp only at h
  split at h
  case h_6 hsize =>
    cases h
    simp only [instrNotCommand, bne_iff_ne, ne_eq]
    exact fun haddr => hd (by bv_omega)
  all_goals cases h <;> rfl

theorem notCommand_of_decodeInput {i : Input} {ins : Instr} (hi : notCommand i = true)
    (h : decodeInput i = some (.ok ins)) : instrNotCommand ins = true := by
  cases i with
  | cmd w => cases hi
  | cap | commit => cases h
  | evt code => exact decodeEvt_notCommand (Option.some.inj h)
  | bus desc v =>
    have hd : desc ≠ 0x6000C := by simpa [notCommand] using hi
    exact decodeBus_notCommand hd (Option.some.inj h)

theorem runInputWith_chunkStep {i : Input} (hi : notCommand i = true)
    (hn : runInputWith (execAt P) i s = .next t) : ChunkStep s t := by
  rcases runInputWith_cases hn with ⟨off, b, -, rfl⟩ | ⟨-, rfl⟩ | ⟨ins, hdec, hx⟩ | ⟨r, -, rfl⟩
  · exact .of_datapath (captureWrite_datapath off b s)
  · exact commit_chunkStep s
  · exact execAt_chunkStep (notCommand_of_decodeInput hi hdec) hx
  · exact .of_datapath (runRejected_datapath r s)

theorem stepAt_chunkStep (hi : ∀ i ∈ s.inputs.head?, notCommand i = true) (hn : stepAt P s = .next t) :
    ChunkStep s t := by
  obtain ⟨-, ⟨-, rfl⟩ | ⟨i, rest, hcons, hx⟩⟩ := nextStepWith_cases hn
  · exact commit_chunkStep s
  · exact (runInputWith_chunkStep (hi i (by simp [hcons])) hx).of_inputs

end

/-! ### Runs without a command -/

/-- The chunk in flight, if there is one, is the next one to be counted. -/
def PendingCountsOne (s : State) : Prop := ∀ f, s.inflight = some f → f.pend.chunkCount = s.live.chunkCount + 1

theorem pendingCountsOne_of_idle {s : State} (idle : s.inflight = none) : PendingCountsOne s :=
  fun f busy => by rw [idle] at busy; cases busy

theorem ChunkStep.pendingCountsOne {s t : State} (h : ChunkStep s t) (hs : PendingCountsOne s) :
    PendingCountsOne t := by
  cases h with
  | keep live inflight =>
    intro f hf
    rw [live]
    exact hs f (inflight ▸ hf)
  | accept f _ live inflight counts =>
    intro f' hf
    cases inflight.symm.trans hf
    rw [live]
    exact counts
  | commit _ _ _ inflight => exact pendingCountsOne_of_idle inflight

/-- The next k inputs hold no command. -/
def NoCommandIn (k : Nat) (s : State) : Prop := ∀ i ∈ s.inputs.take k, notCommand i = true

theorem NoCommandIn.head {k : Nat} {s : State} (h : NoCommandIn (k + 1) s) :
    ∀ i ∈ s.inputs.head?, notCommand i = true := by
  unfold NoCommandIn at h
  cases hs : s.inputs with
  | nil => simp
  | cons i rest => simpa [hs] using h i (by simp [hs])

/-- A step takes at most one of them. -/
theorem NoCommandIn.step {k : Nat} {s t : State} (h : NoCommandIn (k + 1) s) (hn : step s = .next t) :
    NoCommandIn k t := by
  have taken : t.inputs = s.inputs.tail := (stepAt_storesInPdm (step_eq_stepAt s ▸ hn)).inputs
  intro i hi
  rw [taken] at hi
  refine h i ?_
  cases hs : s.inputs with
  | nil => rw [hs] at hi; simp at hi
  | cons j rest => rw [hs] at hi; exact List.mem_cons_of_mem j hi

theorem run_succ_of_step {M : Host.Core} {s u : M.State} (h : M.step s = .next u) (k : Nat) :
    run M (k + 1) s = run M k u := by
  rw [run, h]

theorem run_succ_eq_next {M : Host.Core} {k : Nat} {s t : M.State} (h : run M (k + 1) s = .next t) :
    ∃ u, M.step s = .next u ∧ run M k u = .next t := by
  rw [run] at h
  split at h
  · next u hu => exact ⟨u, hu, h⟩
  · cases h
  · cases h

/-- Every state within k steps of s is idle with the results of s. -/
def IdleThroughout (k : Nat) (s : State) : Prop :=
  ∀ j ≤ k, ∃ u : State, run core j s = .next u ∧ u.inflight = none ∧ u.live = s.live

theorem idleThroughout_zero {s : State} (idle : s.inflight = none) : IdleThroughout 0 s := by
  intro j hj
  cases Nat.le_zero.1 hj
  exact ⟨s, rfl, idle, rfl⟩

theorem IdleThroughout.idle {k : Nat} {s : State} (h : IdleThroughout k s) : s.inflight = none := by
  obtain ⟨u, hrun, idle, -⟩ := h 0 (Nat.zero_le k)
  cases hrun
  exact idle

theorem IdleThroughout.succ {k : Nat} {s u : State} (hn : step s = .next u) (idle : s.inflight = none)
    (live : u.live = s.live) (h : IdleThroughout k u) : IdleThroughout (k + 1) s := by
  intro j hj
  cases j with
  | zero => exact ⟨s, rfl, idle, rfl⟩
  | succ j =>
    obtain ⟨v, hrun, hidle, hlive⟩ := h j (by omega)
    exact ⟨v, (run_succ_of_step (M := core) hn j).trans hrun, hidle, hlive.trans live⟩

/-- A run of k steps without a command counts at most k commits; with no commit it keeps the results, and if it ends
idle it was idle throughout. -/
theorem run_counts_commits (k : Nat) (s t : State) (hpend : PendingCountsOne s) (hquiet : NoCommandIn k s)
    (hrun : run core k s = .next t) :
    ∃ c ≤ k, t.live.chunkCount = s.live.chunkCount + BitVec.ofNat 32 c ∧
      (c = 0 → t.live = s.live ∧ (t.inflight = none → IdleThroughout k s)) := by
  induction k generalizing s with
  | zero =>
    cases hrun
    exact ⟨0, le_refl 0, by simp, fun _ => ⟨rfl, idleThroughout_zero⟩⟩
  | succ k ih =>
    obtain ⟨u, (hn : step s = .next u), hrest⟩ := run_succ_eq_next hrun
    have hstep : ChunkStep s u := stepAt_chunkStep hquiet.head (step_eq_stepAt s ▸ hn)
    obtain ⟨c, hc, hcount, hzero⟩ := ih u (hstep.pendingCountsOne hpend) (hquiet.step hn) hrest
    cases hstep with
    | keep live inflight =>
      refine ⟨c, by omega, live ▸ hcount, fun h0 => ?_⟩
      obtain ⟨hlive, hidle⟩ := hzero h0
      exact ⟨hlive.trans live, fun ht => (hidle ht).succ hn (inflight ▸ (hidle ht).idle) live⟩
    | accept f _ live inflight =>
      refine ⟨c, by omega, live ▸ hcount, fun h0 => ?_⟩
      obtain ⟨hlive, hidle⟩ := hzero h0
      exact ⟨hlive.trans live, fun ht => absurd (hidle ht).idle (by simp [inflight])⟩
    | commit f busy live =>
      refine ⟨c + 1, by omega, ?_, fun h0 => absurd h0 (Nat.succ_ne_zero c)⟩
      rw [hcount, live, hpend f busy, BitVec.add_assoc, BitVec.ofNat_add, BitVec.add_comm 1]
      rfl

/-- Settles O41: the number of commits is below 2^32 and a multiple of it, so there was none. -/
theorem equalChunkCountsMeanAnUntornSnapshot : Obligations.EqualChunkCountsMeanAnUntornSnapshot := by
  intro k s t hk idle hquiet hrun hidle hcount
  obtain ⟨c, hc, hadd, hzero⟩ := run_counts_commits k s t (pendingCountsOne_of_idle idle) hquiet hrun
  have noCommit : c = 0 := by
    have hofNat : BitVec.ofNat 32 c = 0 := by
      rw [hcount] at hadd
      exact BitVec.self_eq_add_right.1 hadd
    have hmod : c % 2 ^ 32 = 0 := by simpa using congrArg BitVec.toNat hofNat
    omega
  obtain ⟨hlive, hthrough⟩ := hzero noCommit
  exact ⟨hlive, hthrough hidle⟩

end Sys2Proof.Machine
end

section
/-! The decoder and the encoder: the decoder reads back every record the encoder writes, and answers nothing else than
well-formed instructions of the form it is given (30_encoding.md R130 to R135). -/

namespace Sys2Proof

/-! ### Bytes in little-endian order -/

theorem leNat_leBytes (n v : Nat) (h : v < 2 ^ (8 * n)) : leNat (leBytes n v) = v := by
  induction n generalizing v with
  | zero => simpa [leBytes, leNat, eq_comm] using h
  | succ n ih =>
    have hdiv : v / 2 ^ 8 < 2 ^ (8 * n) := by
      rw [Nat.div_lt_iff_lt_mul (by decide), ← Nat.pow_add]
      exact h
    rw [leBytes, leNat, ih _ hdiv, BitVec.toNat_ofNat]
    exact Nat.mod_add_div v (2 ^ 8)

/-! ### CMD words -/

theorem CmdOp.code_lt (op : CmdOp) : op.code < 9 := by
  cases op <;> decide

theorem CmdOp.exists_code_eq : ∀ {k : Nat}, k < 9 → ∃ op : CmdOp, op.code = k
  | 0, _ => ⟨.nop, rfl⟩
  | 1, _ => ⟨.cfgDec, rfl⟩
  | 2, _ => ⟨.cfgFft, rfl⟩
  | 3, _ => ⟨.avgReset, rfl⟩
  | 4, _ => ⟨.start, rfl⟩
  | 5, _ => ⟨.stop, rfl⟩
  | 6, _ => ⟨.evtHalf, rfl⟩
  | 7, _ => ⟨.evtFull, rfl⟩
  | 8, _ => ⟨.softReset, rfl⟩

/-- The word of a command is its opcode, every bit above it zero (30_encoding.md R131, R132). -/
def CmdOp.word (op : CmdOp) : Word := BitVec.ofNat 32 op.code

theorem CmdOp.toNat_word (op : CmdOp) : op.word.toNat = op.code :=
  Nat.mod_eq_of_lt (op.code_lt.trans (by decide))

theorem decodeCmdOp_eq_ok_iff {w : Word} {op : CmdOp} : decodeCmdOp w = .ok op ↔ w = op.word := by
  constructor
  · intro h
    refine BitVec.eq_of_toNat_eq (Eq.trans ?_ op.toNat_word.symm)
    unfold decodeCmdOp at h
    split at h
    · cases h
    · split at h <;> cases h <;> assumption
  · rintro rfl
    cases op <;> rfl

theorem decodeCmd_eq_ok_iff {w : Word} {i : Instr} :
    decodeCmd w = .ok i ↔ ∃ op : CmdOp, w = op.word ∧ op.toInstr = i := by
  constructor
  · intro h
    obtain ⟨op, hop, hi⟩ := Machine.decodeCmd_eq_ok h
    exact ⟨op, decodeCmdOp_eq_ok_iff.1 hop, hi⟩
  · rintro ⟨op, hw, rfl⟩
    rw [decodeCmd, decodeCmdOp_eq_ok_iff.2 hw]
    rfl

/-! ### BUS descriptors -/

theorem busDescriptor_dirSize {k : Nat} (h : k < 8) (a : Offset) : (busDescriptor k a).toNat / 2 ^ 16 = k := by
  simp only [busDescriptor, BitVec.toNat_ofNat]
  omega

theorem busDescriptor_addr (k : Nat) (a : Offset) : (busDescriptor k a).setWidth 16 = a := by
  refine BitVec.eq_of_toNat_eq ?_
  simp only [busDescriptor, BitVec.toNat_setWidth, BitVec.toNat_ofNat]
  omega

/-- A value that fits in n bits is what the low n bits of its WDATA lines give. -/
theorem setWidth_setWidth_of_lt {n : Nat} {d : Word} (h : d.toNat < 2 ^ n) : (d.setWidth n).setWidth 32 = d := by
  refine BitVec.eq_of_toNat_eq ?_
  rw [BitVec.toNat_setWidth, BitVec.toNat_setWidth, Nat.mod_eq_of_lt h, Nat.mod_eq_of_lt d.isLt]

/-! ### The records of the three forms -/

theorem decode_cmdRecord (w : Word) : decode .cmd (leBytes 4 w.toNat) = decodeCmd w := by
  simp only [decode, Laws.leBytes_length, leNat_leBytes 4 _ w.isLt]
  simp [Form.bytes]

theorem decode_evtRecord (c : BitVec 2) : decode .evt (leBytes 1 c.toNat) = decodeEvt c := by
  have hc := c.isLt
  simp only [decode, Laws.leBytes_length, leNat_leBytes 1 c.toNat (by omega)]
  simp [Form.bytes, hc]

theorem decode_busRecord (k : Nat) (a : Offset) (d : Word) :
    decode .bus (busRecord k a d) = decodeBus (busDescriptor k a) d := by
  have hdesc := (busDescriptor k a).isLt
  have low : leNat ((busRecord k a d).take 3) = (busDescriptor k a).toNat := by
    rw [busRecord, List.take_left' (Laws.leBytes_length 3 _), leNat_leBytes 3 _ (by omega)]
  have high : leNat ((busRecord k a d).drop 3) = d.toNat := by
    rw [busRecord, List.drop_left' (Laws.leBytes_length 3 _), leNat_leBytes 4 _ d.isLt]
  simp only [decode, Laws.busRecord_length, low, high]
  simp [Form.bytes, hdesc]

/-! ### Decoding what was encoded -/

theorem decode_encode_cmdOp (op : CmdOp) : decode .cmd (leBytes 4 op.code) = .ok op.toInstr := by
  rw [← op.toNat_word, decode_cmdRecord, decodeCmd_eq_ok_iff]
  exact ⟨op, rfl, rfl⟩

/-- The decoder reads back each instruction's record; only the data of a narrow write need the premise. -/
theorem decode_encode {i : Instr} (h : i.wellFormed = true) : decode i.form (encode i) = .ok i := by
  cases i with
  | nop => exact decode_encode_cmdOp .nop
  | cfgDec => exact decode_encode_cmdOp .cfgDec
  | cfgFft => exact decode_encode_cmdOp .cfgFft
  | avgReset => exact decode_encode_cmdOp .avgReset
  | start => exact decode_encode_cmdOp .start
  | stop => exact decode_encode_cmdOp .stop
  | evtHalf => exact decode_encode_cmdOp .evtHalf
  | evtFull => exact decode_encode_cmdOp .evtFull
  | softReset => exact decode_encode_cmdOp .softReset
  | half => exact decode_evtRecord 0b01
  | full => exact decode_evtRecord 0b10
  | rd8 a | rd16 a | rd32 a | wr32 a d =>
    simp [encode, Instr.form, decode_busRecord, decodeBus, busDescriptor_dirSize, busDescriptor_addr, -Nat.reducePow]
  | wr8 a d | wr16 a d =>
    have fits := setWidth_setWidth_of_lt (of_decide_eq_true h)
    simp [encode, Instr.form, decode_busRecord, decodeBus, busDescriptor_dirSize, busDescriptor_addr, fits,
      -Nat.reducePow]

/-! ### What the decoder answers -/

/-- What an answer of the decoder on an interface satisfies: it stands for an encoded instruction of that
interface (30_encoding.md R130, R135). -/
def Instr.EncodedOn (i : Instr) (f : Form) : Prop := i.wellFormed = true ∧ i.form = f

theorem decodeCmd_encodedOn {w : Word} {i : Instr} (h : decodeCmd w = .ok i) : i.EncodedOn .cmd := by
  obtain ⟨op, -, rfl⟩ := decodeCmd_eq_ok_iff.1 h
  cases op <;> exact ⟨rfl, rfl⟩

theorem decodeEvt_encodedOn {c : BitVec 2} {i : Instr} (h : decodeEvt c = .ok i) : i.EncodedOn .evt := by
  unfold decodeEvt at h
  split at h <;> cases h <;> exact ⟨rfl, rfl⟩

/-- A narrow write answers the low bits of WDATA, which fit; the other instructions have no premise to meet. -/
theorem decodeBus_encodedOn {desc : BitVec 19} {d : Word} {i : Instr} (h : decodeBus desc d = .ok i) :
    i.EncodedOn .bus := by
  have fits {n : Nat} (hn : n ≤ 32) : ((d.setWidth n).setWidth 32).toNat < 2 ^ n := by
    rw [BitVec.toNat_setWidth_of_le hn]
    exact (d.setWidth n).isLt
  unfold decodeBus at h
  dsimp only at h
  split at h
  case h_4 => cases h; exact ⟨decide_eq_true (fits (by decide)), rfl⟩
  case h_5 => cases h; exact ⟨decide_eq_true (fits (by decide)), rfl⟩
  all_goals cases h <;> exact ⟨rfl, rfl⟩

theorem decode_encodedOn {f : Form} {bs : List Byte} {i : Instr} (h : decode f bs = .ok i) : i.EncodedOn f := by
  unfold decode at h
  split at h
  · cases h
  · cases f with
    | cmd => exact decodeCmd_encodedOn h
    | evt =>
      dsimp only at h
      split at h
      · exact decodeEvt_encodedOn h
      · cases h
    | bus =>
      dsimp only at h
      split at h
      · exact decodeBus_encodedOn h
      · cases h

/-! ### The settled statements on the encoding -/

/-- Settles O28: a form's record decodes as its fields do, and each form's decoder answers well-formed instructions. -/
theorem decodeInvertsEncode : Obligations.DecodeInvertsEncode :=
  ⟨fun _ => decode_encode, fun _ _ _ => decode_encodedOn⟩

/-- Settles O11: the k-th command of the map is the one whose opcode is k. -/
theorem cmdWordsAreExactlyTheNineOpcodes : Obligations.CmdWordsAreExactlyTheNineOpcodes := by
  intro w i
  rw [decodeCmd_eq_ok_iff]
  constructor
  · rintro ⟨op, hw, rfl⟩
    exact ⟨op.code, hw, by cases op <;> rfl⟩
  · rintro ⟨k, hw, hk⟩
    obtain ⟨hlt, -⟩ := List.getElem?_eq_some_iff.1 hk
    obtain ⟨op, rfl⟩ := CmdOp.exists_code_eq hlt
    exact ⟨op, hw, by cases op <;> exact Option.some.inj hk⟩

/-- Settles O29: the decoder evaluates to the listed instruction on each word. -/
theorem someWordsDecodeAsTheSpecSays : Obligations.SomeWordsDecodeAsTheSpecSays :=
  ⟨rfl, rfl, rfl, rfl, rfl, rfl⟩

end Sys2Proof
end

section
/-! What a step takes: the next input, or with none left a commit, or nothing past an overrun (00_scope.md R8,
30_encoding.md R134, 60_exceptions.md R510; logs 2 and 7). -/

namespace Sys2Proof.Machine

theorem step_of_input {s : State} {i : Input} {rest : List Input} (hf : s.fault = .none) (hi : s.inputs = i :: rest) :
    step s = runInputWith exec i { s with inputs := rest } := by
  simp only [step, nextStep, nextStepWith, hf, hi]

theorem step_of_noInput {s : State} (hf : s.fault = .none) (hi : s.inputs = []) : step s = .next (commit s) := by
  simp only [step, nextStep, nextStepWith, hf, hi]

theorem step_of_overrun {s : State} (hf : s.fault = .overrun) : step s = .fault .overrun := by
  simp only [step, nextStep, nextStepWith, hf]

theorem commit_of_idle {s : State} (idle : s.inflight = none) : commit s = s := by
  simp only [commit, idle]

/-- Settles O26: an encoded input runs what its bits decode to. -/
theorem stepRunsTheDecodedInstruction : Obligations.StepRunsTheDecodedInstruction :=
  fun _ _ _ _ hf hi hd => step_of_decodeInput hf hi hd

/-- Settles O27: both codes are rejected bits that change nothing, and COMMIT does nothing on an idle block. -/
theorem stepsWithoutAnEventChangeNothing : Obligations.StepsWithoutAnEventChangeNothing := by
  refine ⟨fun s rest hf => ⟨fun hi => ?_, fun hi => ?_, fun hi idle => ?_⟩, fun s hf => step_of_overrun hf⟩
  · have rejected : decodeEvt 0b00 = .error .noEvent := rfl
    rw [step_of_input hf hi, runInputWith, rejected, runDecoded, runRejected]
  · have rejected : decodeEvt 0b11 = .error .reservedEvent := rfl
    rw [step_of_input hf hi, runInputWith, rejected, runDecoded, runRejected]
  · rw [step_of_noInput hf hi, commit_of_idle idle]

end Sys2Proof.Machine
end

section
/-! Rounding, saturation and the place of the samples in PCM_OUT (00_scope.md R15, 40_decimation.md R208, R215). -/

namespace Sys2Proof.Machine

open Rules

/-! ### Rounding and saturation -/

theorem rnd_eq_sign_mul_floor (e : Rat) :
    rnd e = (if e < 0 then -1 else if e = 0 then 0 else 1) * ⌊|e| + 1 / 2⌋ := by
  unfold rnd
  rcases lt_trichotomy e 0 with hneg | rfl | hpos
  · rw [if_pos hneg, if_pos hneg, abs_of_neg hneg, neg_one_mul]
    rfl
  · have half : ⌊(0 + 1 / 2 : Rat)⌋ = 0 := by norm_num
    rw [if_neg (lt_irrefl 0), if_neg (lt_irrefl 0), if_pos rfl, zero_mul]
    exact half
  · rw [if_neg hpos.not_gt, if_neg hpos.not_gt, if_neg hpos.ne', abs_of_pos hpos, one_mul]
    rfl

/-- A clamped integer fits an s16. -/
theorem toInt_sat16 (i : Int) : (sat16 i).toInt = clamp16 i :=
  BitVec.toInt_ofInt_eq_self (by decide) (by unfold clamp16; omega) (by unfold clamp16; omega)

theorem toInt_sat16_rnd (e : Rat) : (sat16 (rnd e)).toInt = roundedSample e := by
  rw [toInt_sat16, clamp16, rnd_eq_sign_mul_floor]
  rfl

/-! ### Samples in the result RAM -/

theorem readHalf_congr {m m' : Memory} {a : Nat} (h0 : memGet m a = memGet m' a)
    (h1 : memGet m (a + 1) = memGet m' (a + 1)) : readHalf m a = readHalf m' a := by
  simp only [readHalf, readLE, ramByte, h0, h1]

theorem readHalf_writeLE (m : Memory) (a : Nat) (v : S16) (hm : memWf m = true) :
    readHalf (writeLE m a 2 v.toNat) a = v := by
  rw [readHalf, readLE_writeLE m a 2 _ hm, Nat.mod_eq_of_lt v.isLt, BitVec.ofNat_toNat, BitVec.setWidth_eq]

/-- Sample i of a stored list is read back at its own entry. -/
theorem readHalf_writeHalves {m : Memory} (a : Nat) (vs : List S16) (hm : memWf m = true) (i : Nat)
    (hi : i < vs.length) : readHalf (writeHalves m a vs) (a + 2 * i) = vs[i] := by
  induction vs generalizing m a i with
  | nil => cases hi
  | cons v vs ih =>
    cases i with
    | zero =>
      have later (x : Nat) (hx : x < a + 2) :
          memGet (writeHalves m a (v :: vs)) x = memGet (writeLE m a 2 v.toNat) x :=
        memGet_writeHalves_outside _ _ _ vs (.inl hx)
      exact (readHalf_congr (later _ (by omega)) (later _ (by omega))).trans (readHalf_writeLE m a v hm)
    | succ i =>
      rw [show a + 2 * (i + 1) = a + 2 + 2 * i by omega]
      exact ih _ (memWf_writeLE m a 2 _ hm) i (Nat.lt_of_succ_lt_succ hi)

theorem readHalf_writeHalves_beyond (m : Memory) {a a' : Nat} {vs : List S16} (h : a + 2 * vs.length ≤ a') :
    readHalf (writeHalves m a vs) a' = readHalf m a' :=
  readHalf_congr (memGet_writeHalves_outside _ _ _ _ (by omega)) (memGet_writeHalves_outside _ _ _ _ (by omega))

/-! ### PCM_OUT after a chunk -/

section
variable (P : Config.Params) (fc : FftConfig) (wt : List F32)

/-- A transform cycle writes AVG and SPEC only. -/
theorem memGet_transformCycle_of_lt_avgBase (frame : List S16) (r : Results) {a : Nat} (ha : a < avgBase) :
    memGet (transformCycle P fc wt frame r).ram a = memGet r.ram a := by
  have hspec : a < specBase := ha.trans (by decide)
  exact (memGet_writeWords_outside _ _ _ _ (.inl ha)).trans (memGet_writeWords_outside _ _ _ _ (.inl hspec))

theorem memGet_feed_of_lt_avgBase (qs : List S16) (r : Results) {a : Nat} (ha : a < avgBase) :
    memGet (feed P fc wt qs r).ram a = memGet r.ram a := by
  refine feed_induction P fc wt (p := fun x => memGet x.ram a = memGet r.ram a) (fun x q hx => ?_) qs r rfl
  rcases feedOne_cases P fc wt x q with ⟨-, h⟩ | ⟨-, h⟩ <;> rw [h]
  · exact (memGet_transformCycle_of_lt_avgBase P fc wt _ _ ha).trans hx
  · exact hx

/-- Below AVG a chunk stores its samples and nothing else. -/
theorem readHalf_processChunk (dc : DecConfig) (bs : List Byte) (gdb : Int) (r : Results) {a : Nat}
    (ha : a + 2 ≤ avgBase) :
    readHalf (processChunk P dc fc wt bs gdb r).ram a =
      readHalf (writeHalves r.ram pcmBase (interleave dc (decimateChunk P dc r.filt bs gdb).2)) a :=
  readHalf_congr (memGet_feed_of_lt_avgBase P fc wt _ _ (by omega))
    (memGet_feed_of_lt_avgBase P fc wt _ _ (by omega))

end

/-- In a concatenation of lists of length k, entry n·k + i is entry i of list n. -/
theorem getElem?_flatMap_of_length {α β : Type} {f : α → List β} {k : Nat} (hf : ∀ x, (f x).length = k)
    (xs : List α) (n : Nat) {i : Nat} (hi : i < k) :
    (xs.flatMap f)[n * k + i]? = xs[n]?.bind fun x => (f x)[i]? := by
  induction xs generalizing n with
  | nil => simp
  | cons x xs ih =>
    rw [List.flatMap_cons]
    cases n with
    | zero => simp [List.getElem?_append_left, hf, hi]
    | succ n =>
      rw [List.getElem?_append_right (by rw [hf]; nlinarith), hf,
        show (n + 1) * k + i - k = n * k + i by rw [Nat.succ_mul]; omega, ih]
      rfl

theorem getElem?_interleave (dc : DecConfig) (q : List (List S16)) {n c : Nat} (hn : n < dc.nfin) (hc : c < dc.cout) :
    (interleave dc q)[n * dc.cout + c]? = some ((q.getD c []).getD n 0) := by
  rw [interleave, getElem?_flatMap_of_length (by simp) _ n hc]
  simp [hn, hc]

/-! ### The settled statements on samples -/

/-- Settles O44: the samples fill PCM_OUT from its base on, and the FEED that follows writes AVG and SPEC only. -/
theorem pcmOutIsInterleavedByChannel : Obligations.PcmOutIsInterleavedByChannel := by
  intro P dc fc wt bs gdb r hram hcount
  have canonical : memWf r.ram = true := ((ramWf_iff _).1 hram).1
  have base : pcmBase = 0x1000 := rfl
  have top : avgBase = 0x4000 := rfl
  have size := interleave_length dc (decimateChunk P dc r.filt bs gdb).2
  rw [Nat.mul_comm] at size
  refine ⟨fun n c hn hc => ?_, fun i lo hi => ?_, feed_pcmCount ..⟩
  · have stored := getElem?_interleave dc (decimateChunk P dc r.filt bs gdb).2 hn hc
    obtain ⟨inside, value⟩ := List.getElem?_eq_some_iff.1 stored
    rw [readHalf_processChunk P fc wt dc bs gdb r (by omega), ← base,
      readHalf_writeHalves pcmBase _ canonical _ inside, value]
  · rw [readHalf_processChunk P fc wt dc bs gdb r (by omega), readHalf_writeHalves_beyond _ (by omega)]

/-- Settles O45: sign and floor are the two branches of `rnd`, and the clamp fits 16 bits. -/
theorem scaleRoundsThenSaturates : Obligations.ScaleRoundsThenSaturates :=
  fun P v gdb => toInt_sat16_rnd (32768 * P.gainLin gdb * v)

end Sys2Proof.Machine
end

section
/-! Which bytes and bits of a region a channel's samples are made of, and how many samples a chunk gives
(40_decimation.md R201 to R205, R210, R216, R218, R219). -/

namespace Sys2Proof.Machine

/-! ### The sizes of an accepted configuration -/

/-- Every primary ratio is a whole number of bytes, and the cascade doubles it (30_encoding.md R137). -/
theorem decodeRatio_eq_some {code r rp : Nat} {casc : Bool} (h : decodeRatio code = some (r, rp, casc)) :
    8 ∣ rp ∧ r = if casc then 2 * rp else rp := by
  unfold decodeRatio at h
  split at h <;> cases h <;> decide

/-- How the sizes a configuration derives depend on its fields (45_host_commands.md R372). -/
structure SizesFit (dc : DecConfig) : Prop where
  wholeBytes : 8 ∣ dc.rp
  ratio : dc.r = if dc.casc then 2 * dc.rp else dc.rp
  nfin : dc.nfin = if dc.casc then dc.nout / 2 else dc.nout
  hbytes : dc.hbytes = dc.cin * (dc.rp * dc.nout / 8)
  wholeHalfwords : dc.endn = true → dc.hbytes % 2 = 0

theorem decConfigOf_sizesFit {P : Config.Params} {w : Word} {dc : DecConfig} (h : decConfigOf P w = .ok dc) :
    SizesFit dc := by
  unfold decConfigOf at h
  dsimp only at h
  split at h
  · cases h
  · next hratio =>
    obtain ⟨whole, ratio⟩ := decodeRatio_eq_some hratio
    split_ifs at h
    all_goals
      cases h
      refine ⟨whole, ratio, by simp [*], ?_, fun hend => Nat.mod_two_ne_one.1 fun hodd =>
        ‹¬(bitAt w 13 = true ∧ _ % 2 = 1)› ⟨hend, hodd⟩⟩
      dsimp only
      rw [Nat.mul_assoc, Nat.mul_div_assoc _ (whole.mul_right _)]

/-- The rate invariant (40_decimation.md R216). -/
theorem decConfigOf_rate {P : Config.Params} {w : Word} {dc : DecConfig} (h : decConfigOf P w = .ok dc) :
    dc.rp * dc.nout = dc.r * dc.nfin := by
  have sizes := decConfigOf_sizesFit h
  rw [sizes.ratio, sizes.nfin]
  cases hc : dc.casc with
  | false => rfl
  | true =>
    have even : dc.nout = 2 * (dc.nout / 2) := by have := decConfigOf_cascade_even h hc; omega
    calc dc.rp * dc.nout = dc.rp * (2 * (dc.nout / 2)) := by rw [← even]
      _ = 2 * dc.rp * (dc.nout / 2) := by ring

/-! ### The prepared bytes -/

theorem length_swapPairs (bs : List Byte) : (swapPairs bs).length = bs.length := by
  induction bs using swapPairs.induct with
  | case1 a b bs ih => simp [swapPairs, ih]
  | case2 bs hshort => rw [swapPairs]; exact hshort

theorem length_endianPrep (endn : Bool) (bs : List Byte) : (endianPrep endn bs).length = bs.length := by
  cases endn
  · rfl
  · exact length_swapPairs bs

/-- In an even number of bytes each is swapped with its partner in the halfword. -/
theorem getElem?_swapPairs (bs : List Byte) (heven : bs.length % 2 = 0) (j : Nat) (hj : j < bs.length) :
    (swapPairs bs)[j]? = bs[if j % 2 = 0 then j + 1 else j - 1]? := by
  induction bs using swapPairs.induct generalizing j with
  | case1 a b bs ih =>
    rw [List.length_cons, List.length_cons] at heven hj
    match j with
    | 0 => rfl
    | 1 => rfl
    | j + 2 =>
      have partner : (if (j + 2) % 2 = 0 then j + 2 + 1 else j + 2 - 1) =
          (if j % 2 = 0 then j + 1 else j - 1) + 2 := by split_ifs <;> omega
      rw [partner]
      exact ih (by omega) j (by omega)
  | case2 bs hshort =>
    match bs, hshort with
    | [], _ => cases hj
    | [_], _ => cases heven
    | a :: b :: bs, hshort => exact absurd rfl (hshort a b bs)

theorem getElem?_endianPrep {endn : Bool} {bs : List Byte} (heven : endn = true → bs.length % 2 = 0) {j : Nat}
    (hj : j < bs.length) :
    (endianPrep endn bs)[j]? = bs[if endn then (if j % 2 = 0 then j + 1 else j - 1) else j]? := by
  cases endn
  · rfl
  · exact getElem?_swapPairs bs (heven rfl) j hj

/-! ### The bytes and bits of a channel -/

theorem length_chBytes (dc : DecConfig) (e : List Byte) (c : Nat) :
    (chBytes dc e c).length = dc.rp * dc.nout / 8 := by
  simp [chBytes]

theorem getElem?_chBytes {dc : DecConfig} {e : List Byte} {c j : Nat} (hj : j < dc.rp * dc.nout / 8)
    (he : c + dc.cin * j < e.length) : (chBytes dc e c)[j]? = e[c + dc.cin * j]? := by
  simp [chBytes, hj, he]

theorem length_byteBits (bord : Bool) (b : Byte) : (byteBits bord b).length = 8 := by
  simp [byteBits]

theorem length_bitsOf (bord : Bool) (bs : List Byte) : (bitsOf bord bs).length = 8 * bs.length := by
  simp [bitsOf, List.length_flatMap, length_byteBits, Nat.mul_comm]

/-- Bit i of a byte sequence stands in byte i div 8, from the end that BORD names. -/
theorem getElem?_bitsOf (bord : Bool) (bs : List Byte) (i : Nat) :
    (bitsOf bord bs)[i]? = bs[i / 8]?.map fun b => b.getLsbD (if bord then i % 8 else 7 - i % 8) := by
  have hlow : i % 8 < 8 := Nat.mod_lt _ (by decide)
  have place := getElem?_flatMap_of_length (length_byteBits bord) bs (i / 8) hlow
  rw [Nat.div_add_mod' i 8] at place
  rw [bitsOf, place]
  cases bs[i / 8]? with
  | none => rfl
  | some b => simp [byteBits, hlow]

/-- A group that lies within the bits (40_decimation.md R205). -/
theorem group_eq_map {rp n : Nat} {bits : List Bool} (h : (n + 1) * rp ≤ bits.length) :
    group rp bits n = (List.range rp).map fun i => bits.getD (n * rp + i) false := by
  rw [Nat.succ_mul] at h
  refine List.ext_getElem (by simp [group]; omega) fun i hi hi' => ?_
  have inside : n * rp + i < bits.length := by simp at hi'; omega
  simp [group, inside]

/-! ### The primary samples of a chunk -/

section
variable (P : Config.Params) (rp : Nat) (gdb : Int) (gs : Nat → List Bool)

/-- The filter memory before group n of the groups gs, from memory m. -/
def memBefore (m : ChanMem) : Nat → ChanMem
  | 0 => m
  | n + 1 => (primarySample P rp gdb (memBefore m n) (gs n)).1

/-- The primary sample of group n. -/
def sampleOf (m : ChanMem) (n : Nat) : S16 := (primarySample P rp gdb (memBefore P rp gdb gs m n) (gs n)).2

theorem primarySamples_append (m : ChanMem) (xs ys : List (List Bool)) :
    primarySamples P rp gdb m (xs ++ ys) =
      ((primarySamples P rp gdb (primarySamples P rp gdb m xs).1 ys).1,
        (primarySamples P rp gdb m xs).2 ++ (primarySamples P rp gdb (primarySamples P rp gdb m xs).1 ys).2) := by
  induction xs generalizing m with
  | nil => rfl
  | cons x xs ih => simp [primarySamples, ih]

theorem primarySamples_range (m : ChanMem) (n : Nat) :
    primarySamples P rp gdb m ((List.range n).map gs) =
      (memBefore P rp gdb gs m n, (List.range n).map (sampleOf P rp gdb gs m)) := by
  induction n with
  | zero => rfl
  | succ n ih =>
    simp only [List.range_succ, List.map_append, primarySamples_append, ih]
    rfl

end

/-- Every second sample is kept, from the phase the memory holds. -/
theorem length_halfband (g : List Rat) (ps : List S16) (h : HbMem) :
    (halfband g h ps).2.length = (ps.length + h.hbph.toNat) / 2 := by
  induction ps generalizing h with
  | nil => cases h.hbph <;> rfl
  | cons p ps ih =>
    cases hp : h.hbph with
    | false => simp [halfband, hp, ih]
    | true =>
      simp only [halfband, hp, ih, if_true, List.length_cons, Bool.not_true, Bool.toNat_false, Bool.toNat_true]
      omega

/-! ### The channels of a chunk -/

theorem decimateChannel_plain (P : Config.Params) {dc : DecConfig} (hc : dc.casc = false) (gdb : Int) (e : List Byte)
    (c : Nat) (m : ChanMem) :
    decimateChannel P dc gdb e c m = primarySamples P dc.rp gdb m
      ((List.range dc.nout).map (group dc.rp (bitsOf dc.bord (chBytes dc e c)))) := by
  simp only [decimateChannel, hc]

theorem decimateChannel_cascade (P : Config.Params) {dc : DecConfig} (hc : dc.casc = true) (gdb : Int) (e : List Byte)
    (c : Nat) {m : ChanMem} {h : HbMem} (hh : m.hb = some h) :
    decimateChannel P dc gdb e c m =
      (let p := primarySamples P dc.rp gdb m
        ((List.range dc.nout).map (group dc.rp (bitsOf dc.bord (chBytes dc e c))))
       ({ p.1 with hb := some (halfband P.hbCoef h p.2).1 }, (halfband P.hbCoef h p.2).2)) := by
  have kept := (primarySamples_hb P dc.rp gdb m
    ((List.range dc.nout).map (group dc.rp (bitsOf dc.bord (chBytes dc e c))))).trans hh
  simp only [decimateChannel, hc, kept]

theorem getElem?_decimateFrom (P : Config.Params) (dc : DecConfig) (gdb : Int) (e : List Byte) (c₀ : Nat)
    (ms : List ChanMem) (c : Nat) :
    (decimateFrom P dc gdb e c₀ ms)[c]? = ms[c]?.map (decimateChannel P dc gdb e (c₀ + c)) := by
  induction ms generalizing c₀ c with
  | nil => rfl
  | cons m ms ih =>
    cases c with
    | zero => rfl
    | succ c => rw [decimateFrom, List.getElem?_cons_succ, List.getElem?_cons_succ, ih, Nat.succ_add_eq_add_succ]

/-- Each channel is decimated by itself (40_decimation.md R200). -/
theorem getElem?_decimateChunk (P : Config.Params) (dc : DecConfig) (filt : List ChanMem) (bs : List Byte) (gdb : Int)
    (c : Nat) :
    (decimateChunk P dc filt bs gdb).1[c]? =
        filt[c]?.map (fun m => (decimateChannel P dc gdb (endianPrep dc.endn bs) c m).1) ∧
      (decimateChunk P dc filt bs gdb).2[c]? =
        filt[c]?.map (fun m => (decimateChannel P dc gdb (endianPrep dc.endn bs) c m).2) := by
  simp only [decimateChunk, List.getElem?_map, getElem?_decimateFrom, Nat.zero_add, Option.map_map]
  exact ⟨rfl, rfl⟩

theorem decimateFrom_congr (P : Config.Params) {dc : DecConfig} (gdb : Int) {e e' : List Byte} (c : Nat)
    (ms : List ChanMem) (same : ∀ k, c ≤ k → k < c + ms.length → chBytes dc e k = chBytes dc e' k) :
    decimateFrom P dc gdb e c ms = decimateFrom P dc gdb e' c ms := by
  induction ms generalizing c with
  | nil => rfl
  | cons m ms ih =>
    rw [List.length_cons] at same
    rw [decimateFrom, decimateFrom, ih (c + 1) fun k lo hi => same k (by omega) (by omega), decimateChannel,
      decimateChannel, same c le_rfl (by omega)]

/-! ### The settled statements on channels -/

/-- Settles O43: byte c + CIN·j of a used channel c has a remainder below COUT. -/
theorem unusedChannelsAreReadByNothing : Obligations.UnusedChannelsAreReadByNothing := by
  intro P dc filt gdb bs bs' hcin hfilt agree
  have same (c : Nat) (hc : c < dc.cout) :
      chBytes dc (endianPrep dc.endn bs) c = chBytes dc (endianPrep dc.endn bs') c := by
    refine List.map_congr_left fun j _ => ?_
    have channel : (c + dc.cin * j) % dc.cin = c := by
      rw [Nat.add_mul_mod_self_left, Nat.mod_eq_of_lt (hc.trans_le hcin)]
    rw [List.getD_eq_getElem?_getD, List.getD_eq_getElem?_getD, agree _ (channel.symm ▸ hc)]
  rw [decimateChunk, decimateChunk, decimateFrom_congr P gdb 0 filt fun k _ hk => same k (by omega)]

/-- Settles O42: the memory and the samples are those of the groups, one after another. -/
theorem channelSamplesComeFromTheirBits : Obligations.ChannelSamplesComeFromTheirBits := by
  intro P w dc legal
  have sizes := decConfigOf_sizesFit legal
  refine ⟨decConfigOf_rate legal, fun bs c gdb m hlen hc hcasc hphase => ?_,
    fun filt bs gdb c => getElem?_decimateChunk P dc filt bs gdb c⟩
  intro e bits
  have elen : e.length = dc.cin * (dc.rp * dc.nout / 8) :=
    (length_endianPrep dc.endn bs).trans (hlen.trans sizes.hbytes)
  have blen : bits.length = dc.rp * dc.nout := by
    rw [length_bitsOf, length_chBytes, Nat.mul_div_cancel' (sizes.wholeBytes.mul_right _)]
  have inGroup (n : Nat) (hn : n < dc.nout) : (n + 1) * dc.rp ≤ bits.length := by
    rw [blen, Nat.mul_comm]
    exact Nat.mul_le_mul_left _ hn
  have primary := primarySamples_range P dc.rp gdb (group dc.rp bits) m dc.nout
  refine ⟨fun j hj => getElem?_endianPrep (hlen ▸ sizes.wholeHalfwords) (hlen ▸ hj), blen, fun i hi => ?_,
    memBefore P dc.rp gdb (group dc.rp bits) m, sampleOf P dc.rp gdb (group dc.rp bits) m, rfl, fun n hn => ?_, ?_⟩
  · have byte : i / 8 < dc.rp * dc.nout / 8 := Nat.div_lt_div_of_lt_of_dvd (sizes.wholeBytes.mul_right _) hi
    have inRegion : c + dc.cin * (i / 8) < e.length := by
      rw [elen]
      calc c + dc.cin * (i / 8) < dc.cin * (i / 8 + 1) := by rw [Nat.mul_succ]; omega
        _ ≤ dc.cin * (dc.rp * dc.nout / 8) := Nat.mul_le_mul_left _ byte
    rw [getElem?_bitsOf, getElem?_chBytes byte inRegion]
  · rw [← group_eq_map (inGroup n hn)]
    rfl
  · intro ps out
    cases hcascade : dc.casc with
    | false =>
      have plain : out = (memBefore P dc.rp gdb (group dc.rp bits) m dc.nout, ps) :=
        (decimateChannel_plain P hcascade gdb e c m).trans primary
      rw [hcascade, Option.isSome_eq_false_iff, Option.isNone_iff_eq_none] at hcasc
      refine ⟨?_, fun _ => plain, fun h hh => absurd (hcasc.symm.trans hh) (by simp)⟩
      rw [plain, sizes.nfin, hcascade]
      simp [ps]
    | true =>
      rw [hcascade] at hcasc
      obtain ⟨h, hh⟩ := Option.isSome_iff_exists.1 hcasc
      have cascade : out = ({ memBefore P dc.rp gdb (group dc.rp bits) m dc.nout with
          hb := some (halfband P.hbCoef h ps).1 }, (halfband P.hbCoef h ps).2) := by
        have := decimateChannel_cascade P hcascade gdb e c hh
        rwa [primary] at this
      refine ⟨?_, fun hplain => absurd hplain (by decide), fun h' hh' => ?_⟩
      · rw [cascade, sizes.nfin, hcascade]
        simp [length_halfband, hphase h hh, ps]
      · cases hh.symm.trans hh'
        exact cascade

end Sys2Proof.Machine
end

section
/-! The CIC, FIR and half-band filters by their equations (40_decimation.md R206, R207, R210, R211, R220). -/

namespace Sys2Proof.Machine

open Rules

/-! ### Sums of products -/

/-- Taps past the end of the line see zeros. -/
theorem dot_eq_sum (h xs : List Rat) : dot h xs = ∑ j ∈ Finset.range h.length, h.getD j 0 * xs.getD j 0 := by
  induction h generalizing xs with
  | nil => rfl
  | cons h hs ih =>
    cases xs with
    | nil => simp [dot]
    | cons x xs =>
      rw [dot, ih, List.length_cons, Finset.sum_range_succ', add_comm]
      rfl

/-- No more of the line is seen than there are taps. -/
theorem dot_take {h : List Rat} {n : Nat} (hn : h.length ≤ n) (xs : List Rat) : dot h (xs.take n) = dot h xs := by
  rw [dot_eq_sum, dot_eq_sum]
  refine Finset.sum_congr rfl fun j hj => ?_
  have seen : j < n := (Finset.mem_range.1 hj).trans_le hn
  simp only [List.getD_eq_getElem?_getD, List.getElem?_take, if_pos seen]

/-! ### CIC -/

/-- One bit's integrator values, each the old one plus the new one before it. -/
theorem integrate_eq_map (xs : List Int) (d : Int) (new : Nat → Int)
    (h : ∀ k < xs.length, new k = xs.getD k 0 + if k = 0 then d else new (k - 1)) :
    integrate xs d = (List.range xs.length).map new := by
  induction xs generalizing d new with
  | nil => rfl
  | cons x xs ih =>
    have first : x + d = new 0 := (h 0 (Nat.succ_pos _)).symm
    rw [integrate, first, List.length_cons, List.range_succ_eq_map, List.map_cons, List.map_map]
    refine congrArg _ (ih (new 0) (fun k => new (k + 1)) fun k hk => ?_)
    rw [h (k + 1) (Nat.succ_lt_succ hk), if_neg k.succ_ne_zero]
    cases k <;> rfl

/-- The integrator values after a group of bits, from those before it. -/
theorem foldl_integrate_eq_map (K : Nat) (bits : List Bool) (I : Nat → Nat → Int)
    (h : ∀ t < bits.length, ∀ k < K, I (t + 1) k =
      I t k + if k = 0 then level (bits.getD t false) else I (t + 1) (k - 1)) :
    bits.foldl (fun acc b => integrate acc (level b)) ((List.range K).map (I 0)) =
      (List.range K).map (I bits.length) := by
  induction bits generalizing I with
  | nil => rfl
  | cons b bs ih =>
    have first : integrate ((List.range K).map (I 0)) (level b) = (List.range K).map (I 1) := by
      have := integrate_eq_map ((List.range K).map (I 0)) (level b) (I 1) fun k hk => by
        rw [List.length_map, List.length_range] at hk
        simpa [List.getD_eq_getElem?_getD, hk] using h 0 (Nat.succ_pos _) k hk
      rwa [List.length_map, List.length_range] at this
    rw [List.foldl_cons, first]
    exact ih (fun t => I (t + 1)) fun t ht => h (t + 1) (Nat.succ_lt_succ ht)

/-- The comb values, each line taking its own input. -/
theorem comb_eq_map (lines : List (List Int)) (X : Nat → Int)
    (h : ∀ k < lines.length, X (k + 1) = X k - (lines.getD k []).getLastD 0) :
    comb lines (X 0) =
      ((List.range lines.length).map fun k => X k :: (lines.getD k []).dropLast, X lines.length) := by
  induction lines generalizing X with
  | nil => rfl
  | cons line lines ih =>
    have first : X 0 - line.getLastD 0 = X 1 := (h 0 (Nat.succ_pos _)).symm
    have rest := ih (fun k => X (k + 1)) fun k hk => h (k + 1) (Nat.succ_lt_succ hk)
    rw [Nat.zero_add] at rest
    rw [comb, first, rest, List.length_cons, List.range_succ_eq_map, List.map_cons, List.map_map]
    rfl

theorem getLastD_eq_getD (xs : List Int) : xs.getLastD 0 = xs.getD (xs.length - 1) 0 := by
  rw [List.getLastD_eq_getLast?, List.getLast?_eq_getElem?, List.getD_eq_getElem?_getD]

theorem eq_map_getD (xs : List Int) : xs = (List.range xs.length).map fun k => xs.getD k 0 :=
  List.ext_getElem (by simp) fun i hi _ => by simp [hi]

/-- I t k is INTEG[k + 1] after t bits of a group, and X k the value the combs from k on see
(40_decimation.md R206). -/
structure CicValues (P : Config.Params) (rp : Nat) (m : ChanMem) (bits : List Bool) (I : Nat → Nat → Int)
    (X : Nat → Int) : Prop where
  order : 1 ≤ P.kCic rp
  integ : m.integ.length = P.kCic rp
  combd : m.combd.length = P.kCic rp
  lines : ∀ line ∈ m.combd, line.length = P.mCic rp
  start : ∀ k < P.kCic rp, I 0 k = m.integ.getD k 0
  accumulate : ∀ t < bits.length, ∀ k < P.kCic rp, I (t + 1) k =
    I t k + if k = 0 then level (bits.getD t false) else I (t + 1) (k - 1)
  downsample : X 0 = I bits.length (P.kCic rp - 1)
  subtract : ∀ k < P.kCic rp, X (k + 1) = X k - (m.combd.getD k []).getD (P.mCic rp - 1) 0

section
variable {P : Config.Params} {rp : Nat} {m : ChanMem} {bits : List Bool} {I : Nat → Nat → Int} {X : Nat → Int}

theorem CicValues.integrated (v : CicValues P rp m bits I X) :
    bits.foldl (fun acc b => integrate acc (level b)) m.integ = (List.range (P.kCic rp)).map (I bits.length) := by
  have initial : m.integ = (List.range (P.kCic rp)).map (I 0) := by
    rw [eq_map_getD m.integ, v.integ]
    exact List.map_congr_left fun k hk => (v.start k (List.mem_range.1 hk)).symm
  rw [initial, foldl_integrate_eq_map _ _ _ v.accumulate]

theorem CicValues.combed (v : CicValues P rp m bits I X) :
    comb m.combd (X 0) =
      ((List.range (P.kCic rp)).map fun k => X k :: (m.combd.getD k []).dropLast, X (P.kCic rp)) := by
  rw [comb_eq_map m.combd X fun k hk => ?_, v.combd]
  have line : (m.combd.getD k []).length = P.mCic rp := by
    rw [List.getD_eq_getElem _ _ hk]
    exact v.lines _ (List.getElem_mem hk)
  rw [getLastD_eq_getD, line, v.subtract k (v.combd ▸ hk)]

theorem CicValues.cic (v : CicValues P rp m bits I X) :
    cic P rp m bits =
      ({ m with
          integ := (List.range (P.kCic rp)).map (I bits.length)
          combd := (List.range (P.kCic rp)).map fun k => X k :: (m.combd.getD k []).dropLast },
        (X (P.kCic rp) : Rat) / ((rp : Rat) * P.mCic rp) ^ P.kCic rp) := by
  have last : ((List.range (P.kCic rp)).map (I bits.length)).getLastD 0 = X 0 := by
    have pos := v.order
    rw [getLastD_eq_getD, v.downsample]
    simp [List.getD_eq_getElem?_getD, Nat.sub_lt pos]
  unfold Machine.cic
  simp only [v.integrated, last, v.combed, Nat.cast_mul]

end

/-! ### One-stage filters -/

theorem foldl_integrate_singleton (bits : List Bool) (x : Int) :
    bits.foldl (fun acc b => integrate acc (level b)) [x] = [x + (bits.map level).sum] := by
  induction bits generalizing x with
  | nil => simp
  | cons b bs ih =>
    rw [List.foldl_cons, integrate, integrate, ih, List.map_cons, List.sum_cons, add_assoc]

/-- With K = M = L = 1 the comb takes the level held before the group away again (40_decimation.md R220). -/
theorem primarySample_of_oneStage {P : Config.Params} {rp : Nat} (hK : P.kCic rp = 1) (hM : P.mCic rp = 1)
    (hfir : P.firCoef rp = [1]) (gdb : Int) {m : ChanMem} {x : Int} (integ : m.integ = [x]) (combd : m.combd = [[x]])
    (bits : List Bool) :
    primarySample P rp gdb m bits =
      ({ m with integ := [x + (bits.map level).sum], combd := [[x + (bits.map level).sum]], fird := [] },
        scale P (((bits.map level).sum : Rat) / rp) gdb) := by
  simp [primarySample, cic, fir, hK, hM, hfir, integ, combd, foldl_integrate_singleton, comb, dot]

/-! ### Half-band -/

/-- The half-band output that sees the samples of a line, newest first (40_decimation.md R211). -/
def halfbandTap (g : List Rat) (line : List S16) : Rat := dot g (line.map fun x => (x.toInt : Rat))

theorem halfbandTap_eq_sum (g : List Rat) (xs : List S16) :
    halfbandTap g xs = ∑ j ∈ Finset.range g.length, g.getD j 0 * ((xs.getD j 0).toInt : Rat) := by
  rw [halfbandTap, dot_eq_sum]
  refine Finset.sum_congr rfl fun j _ => ?_
  simp only [List.getD_eq_getElem?_getD, List.getElem?_map]
  cases xs[j]? <;> simp

theorem halfbandTap_take {g : List Rat} {n : Nat} (hn : g.length ≤ n) (line : List S16) :
    halfbandTap g (line.take n) = halfbandTap g line := by
  rw [halfbandTap, List.map_take, dot_take hn, halfbandTap]

/-- A delay line that holds the newest samples of a longer one holds its newest samples after a shift. -/
theorem take_cons_take {α : Type} (x : α) (xs : List α) (n : Nat) : (x :: xs.take n).take n = (x :: xs).take n := by
  cases n with
  | zero => rfl
  | succ n => simp [List.take_take]

/-- Two samples of the half-band on a delay line of a longer history: the second output is kept. -/
theorem halfband_two {g : List Rat} (hg : g ≠ []) (line : List S16) (a b : S16) (ps : List S16) :
    halfband g ⟨line.take (g.length - 1), false⟩ (a :: b :: ps) =
      ((halfband g ⟨(b :: a :: line).take (g.length - 1), false⟩ ps).1,
        sat16 (rnd (halfbandTap g (b :: a :: line))) ::
          (halfband g ⟨(b :: a :: line).take (g.length - 1), false⟩ ps).2) := by
  have taps : g.length = g.length - 1 + 1 := (Nat.sub_add_cancel (List.length_pos_iff.2 hg)).symm
  have seen : b :: (a :: line).take (g.length - 1) = (b :: a :: line).take g.length := by
    conv_rhs => rw [taps, List.take_succ_cons]
  have second := halfbandTap_take (le_refl g.length) (b :: a :: line)
  rw [← seen, halfbandTap] at second
  simp only [halfband, take_cons_take, Bool.not_false, Bool.not_true, if_true, second, Bool.false_eq_true, if_false]

theorem halfband_eq {g : List Rat} (hg : g ≠ []) (line : List S16) :
    ∀ p : List S16, p.length % 2 = 0 →
      halfband g ⟨line.take (g.length - 1), false⟩ p =
        (⟨(p.reverse ++ line).take (g.length - 1), false⟩,
          (List.range (p.length / 2)).map fun i =>
            sat16 (rnd (halfbandTap g ((p.take (2 * i + 1 + 1)).reverse ++ line))))
  | [], _ => rfl
  | [_], hodd => by cases hodd
  | a :: b :: ps, heven => by
    have heven' : ps.length % 2 = 0 := (Nat.add_mod_right ps.length 2).symm.trans heven
    have later := halfband_eq hg (b :: a :: line) ps heven'
    have half : (a :: b :: ps).length / 2 = ps.length / 2 + 1 := Nat.add_div_right _ two_pos
    rw [halfband_two hg, later, half, List.range_succ_eq_map, List.map_cons, List.map_map]
    simp [Function.comp_def, Nat.mul_succ]

/-! ### The settled statement on the filters -/

/-- Settles O46: each filter from its own equation, and the one-stage case from the comb. -/
theorem filtersFollowTheirEquations : Obligations.FiltersFollowTheirEquations := by
  refine ⟨?_, ?_, fun P rp gdb m x bits hK hM hfir integ combd =>
    primarySample_of_oneStage hK hM hfir gdb integ combd bits⟩
  · intro P rp gdb m bits I X K M L hK _ _ integ combd lines _ start accumulate downsample subtract
    have values : CicValues P rp m bits I X :=
      ⟨hK, integ, combd, lines, start, accumulate, downsample, subtract⟩
    simp only [primarySample, fir, values.cic, dot_eq_sum]
    rfl
  · intro g h p hg hlen hphase heven y
    obtain ⟨hbd, hbph⟩ := h
    cases hphase
    have whole : hbd.take (g.length - 1) = hbd := List.take_of_length_le hlen.le
    have out := halfband_eq hg hbd p heven
    rw [whole] at out
    rw [out]
    refine ⟨?_, rfl⟩
    rw [List.map_map]
    refine List.map_congr_left fun i _ => ?_
    simp only [Function.comp, toInt_sat16_rnd, halfbandTap_eq_sum]
    rfl

end Sys2Proof.Machine
end

section
/-! The outcomes of a port event, the commit, and writes that meet the region in flight (41_bitstream_handoff.md R253 to
R258, 60_exceptions.md R510). -/

namespace Sys2Proof.Machine

open Rules

/-! ### Port events -/

theorem State.byteAt_pdmBuf (s : State) {a : Nat} (lo : 0x2000 ≤ a) (hi : a < 0x4000) :
    s.byteAt a = pdmByte s.pdm a :=
  if_pos ((regionOf_eq_pdmBuf_iff a).2 ⟨lo, hi⟩)

/-- Both regions of an accepted configuration lie in PDM_BUF (20_memory.md R97). -/
theorem chunkBytes_eq_regionBytes {dc : DecConfig} (fits : dc.hbytes ≤ 4096) (h : BufHalf) (s : State) :
    chunkBytes dc h s.pdm = regionBytes dc h s := by
  refine List.map_congr_left fun j hj => ?_
  have inRegion := List.mem_range.1 hj
  cases h with
  | A => exact (s.byteAt_pdmBuf (by omega) (show 0x2000 + 0 + j < 0x4000 by omega)).symm
  | B => exact (s.byteAt_pdmBuf (by omega) (show 0x2000 + dc.hbytes + j < 0x4000 by omega)).symm

theorem accept_eq_accepted {dc : DecConfig} {fc : FftConfig} {s : State} (h : BufHalf) (hdc : s.dc = some dc)
    (hfc : s.fc = some fc) (fits : dc.hbytes ≤ 4096) :
    accept machineParams h s = some { s with inflight := some (accepted dc fc h s) } := by
  rw [accept_eq_some_iff]
  refine ⟨dc, fc, hdc, hfc, ?_⟩
  rw [chunkBytes_eq_regionBytes fits]
  rfl

theorem portEventAt_stopped (P : Config.Params) (h : BufHalf) {s : State} (idle : s.inflight = none)
    (stopped : s.running = false) : portEventAt P h s = .next s := by
  simp [portEventAt, (busy_eq_false_iff s).2 idle, stopped]

theorem portEventAt_accepts {P : Config.Params} {h : BufHalf} {s t : State} (idle : s.inflight = none)
    (runs : s.running = true) (ha : accept P h s = some t) : portEventAt P h s = .next t := by
  simp [portEventAt, (busy_eq_false_iff s).2 idle, runs, ha]

theorem portEventAt_busy (P : Config.Params) (h : BufHalf) {s : State} (busy : s.inflight ≠ none) :
    portEventAt P h s = .next s.raiseOverrun :=
  if_pos ((busy_eq_true_iff s).2 (Option.ne_none_iff_exists'.1 busy))

theorem exec_portEvent (h : BufHalf) (s : State) :
    exec (if h = .A then .half else .full) s = portEventAt machineParams h s := by
  cases h <;> rfl

/-! ### Commit -/

theorem commit_of_inflight {s : State} {f : InFlight} (busy : s.inflight = some f) :
    commit s = { s with live := f.pend, inflight := none } := by
  simp only [commit, busy]

/-! ### Writes that meet the region in flight -/

/-- The bytes of a region by where it starts (20_memory.md R97). -/
theorem inRegion_iff (dc : DecConfig) (h : BufHalf) (i : Nat) :
    (if h = .A then i < dc.hbytes else dc.hbytes ≤ i ∧ i < 2 * dc.hbytes) ↔
      halfBase dc h ≤ i ∧ i < halfBase dc h + dc.hbytes := by
  cases h with
  | A => simp [halfBase]
  | B => simp [halfBase, two_mul]

/-- A byte shared with the region makes the two ranges overlap as the machine compares them. -/
theorem hitsInFlight_of_meets {s : State} {j n : Nat} (h : meetsInFlight s j n) : hitsInFlight s j n = true := by
  obtain ⟨f, dc, i, hf, hdc, lo, hi, inRegion⟩ := h
  obtain ⟨start, stop⟩ := (inRegion_iff dc f.breg i).1 inRegion
  simp only [hitsInFlight, hf, hdc, decide_eq_true_eq]
  exact ⟨lo.trans_lt stop, start.trans_lt hi⟩

theorem busWriteAt_overruns (P : Config.Params) {a n : Nat} (v : Word) {s : State} (hok : accessOk a n = true)
    (hr : regionOf a = .pdmBuf) (hits : hitsInFlight s (a - pdmBase) n = true) :
    busWriteAt P a n v s = .next s.raiseOverrun := by
  simp only [busWriteAt, hok, hr, hits, Bool.true_eq_false, if_false, if_true]

theorem captureWrite_overruns {off : BitVec 13} (b : Byte) {s : State} (hits : hitsInFlight s off.toNat 1 = true) :
    captureWrite off b s = s.raiseOverrun :=
  if_pos hits

/-! ### The settled statements on the handoff -/

/-- Settles O12: the three branches of a port event, the accepted one with the bytes of its region. -/
theorem portEventsFollowTheOutcomeTable : Obligations.PortEventsFollowTheOutcomeTable := by
  intro s h
  dsimp only
  rw [exec_portEvent]
  exact ⟨portEventAt_stopped _ h, fun dc fc idle runs hdc hfc fits =>
    portEventAt_accepts idle runs (accept_eq_accepted h hdc hfc fits), portEventAt_busy _ h⟩

/-- Settles O13: both steps run COMMIT on a state with a chunk in flight. -/
theorem commitPublishesThePendingResults : Obligations.CommitPublishesThePendingResults := by
  intro s f hfault busy
  refine ⟨fun rest hi => ?_, fun hi => ?_⟩
  · have busy' : { s with inputs := rest }.inflight = some f := busy
    rw [step_of_input hfault hi, runInputWith, commit_of_inflight busy']
  · rw [step_of_noInput hfault hi, commit_of_inflight busy]

/-- Settles O14: the write is permitted, and its range overlaps the region. -/
theorem writeIntoInFlightRegionOverruns : Obligations.WriteIntoInFlightRegionOverruns := by
  refine ⟨fun s a v n i hi lo hlt aligned meets => ?_, fun s off b rest hfault hi meets => ?_⟩
  · have hok := (accessOk_iff (width_of_mem_writes hi)).2 ⟨aligned, .inr (.inr (.inl ⟨lo, hlt⟩))⟩
    rw [exec_of_mem_writes hi]
    exact busWriteAt_overruns machineParams v hok ((regionOf_eq_pdmBuf_iff _).2 ⟨lo, hlt⟩)
      (hitsInFlight_of_meets meets)
  · have hits : hitsInFlight { s with inputs := rest } off.toNat 1 = true := hitsInFlight_of_meets meets
    rw [step_of_input hfault hi, runInputWith, captureWrite_overruns b hits]
    rfl

end Sys2Proof.Machine
end

section
/-! What a chunk counts and what it feeds: writing PCM_OUT before the FEED changes nothing the FEED reads
(41_bitstream_handoff.md R254, 42_overlap_save.md R283, R285). -/

namespace Sys2Proof.Machine

/-! ### RAMs that agree from AVG on -/

/-- Two canonical RAMs with the same bytes in AVG and SPEC. -/
structure SameSpectra (m m' : Memory) : Prop where
  canonical : memWf m = true
  canonical' : memWf m' = true
  same : ∀ a, avgBase ≤ a → memGet m a = memGet m' a

namespace SameSpectra

variable {m m' : Memory}

theorem ramByte_eq (h : SameSpectra m m') {a : Nat} (ha : avgBase ≤ a) : ramByte m a = ramByte m' a := by
  rw [ramByte, ramByte, h.same a ha]

theorem readWord_eq (h : SameSpectra m m') {a : Nat} (ha : avgBase ≤ a) : readWord m a = readWord m' a :=
  congrArg _ (readLE_congr _ _ a 4 fun _ _ => h.ramByte_eq (ha.trans (Nat.le_add_right ..)))

theorem memPut (h : SameSpectra m m') (x : Nat) (b : Byte) : SameSpectra (memPut m x b) (memPut m' x b) where
  canonical := memWf_memPut m x b h.canonical
  canonical' := memWf_memPut m' x b h.canonical'
  same a ha := by
    by_cases hx : a = x
    · rw [hx, memGet_memPut_self m x b h.canonical, memGet_memPut_self m' x b h.canonical']
    · rw [memGet_memPut_ne m b hx, memGet_memPut_ne m' b hx, h.same a ha]

theorem writeLE (h : SameSpectra m m') (x n v : Nat) : SameSpectra (writeLE m x n v) (writeLE m' x n v) := by
  induction n generalizing m m' x v with
  | zero => exact h
  | succ n ih => exact ih (h.memPut x _) _ _

theorem writeWords (h : SameSpectra m m') (x : Nat) (vs : List F32) :
    SameSpectra (writeWords m x vs) (writeWords m' x vs) := by
  induction vs generalizing m m' x with
  | nil => exact h
  | cons v vs ih => exact ih (h.writeLE x 4 _) _

theorem avgWords_eq (h : SameSpectra m m') (cf : F32) {x : Nat} (hx : avgBase ≤ x) (ms : List F32) :
    avgWords m cf x ms = avgWords m' cf x ms := by
  induction ms generalizing x with
  | nil => rfl
  | cons v ms ih => rw [avgWords, avgWords, h.readWord_eq hx, ih (hx.trans (Nat.le_add_right ..))]

end SameSpectra

/-! ### Results that a FEED cannot tell apart -/

/-- The same frame buffer, FILL, AVG_COUNT and FRAME_COUNT. -/
structure SameFrame (r r' : Results) : Prop where
  fb : r.fb = r'.fb
  fill : r.fill = r'.fill
  avgCount : r.avgCount = r'.avgCount
  frameCount : r.frameCount = r'.frameCount

section
variable {P : Config.Params} {fc : FftConfig} {wt : List F32} {r r' : Results}

/-- The results while a sample completes the frame `fb`. -/
def completeFrame (P : Config.Params) (fc : FftConfig) (wt : List F32) (fb : List S16) (r : Results) : Results :=
  { transformCycle P fc wt (fb.take fc.t) { r with fb := fb } with fb := shiftFrame fc fb, fill := fc.rret }

@[simp] theorem completeFrame_fill (fb : List S16) : (completeFrame P fc wt fb r).fill = fc.rret := rfl
@[simp] theorem completeFrame_frameCount (fb : List S16) :
    (completeFrame P fc wt fb r).frameCount = wrapInc r.frameCount := rfl

theorem feedOne_of_full (q : S16) (full : r.fill + 1 = fc.t) :
    feedOne P fc wt r q = completeFrame P fc wt (r.fb.set r.fill q) r :=
  if_pos full

theorem feedOne_of_short (q : S16) (short : r.fill + 1 ≠ fc.t) :
    feedOne P fc wt r q = { r with fb := r.fb.set r.fill q, fill := r.fill + 1 } :=
  if_neg short

/-- A relation that a sample fed to both sides keeps is kept by a FEED. -/
theorem feed_relation {R : Results → Results → Prop}
    (h : ∀ r r' q, R r r' → R (feedOne P fc wt r q) (feedOne P fc wt r' q)) (qs : List S16) (hr : R r r') :
    R (feed P fc wt qs r) (feed P fc wt qs r') := by
  induction qs generalizing r r' with
  | nil => exact hr
  | cons q qs ih => exact ih (h r r' q hr)

theorem SameFrame.feedOne (h : SameFrame r r') (q : S16) :
    SameFrame (feedOne P fc wt r q) (feedOne P fc wt r' q) := by
  by_cases full : r.fill + 1 = fc.t
  · rw [feedOne_of_full q full, feedOne_of_full q (h.fill ▸ full), h.fb, h.fill]
    exact ⟨rfl, rfl, congrArg satInc h.avgCount, congrArg wrapInc h.frameCount⟩
  · rw [feedOne_of_short q full, feedOne_of_short q (h.fill ▸ full), h.fb, h.fill]
    exact ⟨rfl, rfl, h.avgCount, h.frameCount⟩

/-- An update of the average reads AVG and its own count only. -/
theorem SameSpectra.avgUpdate (h : SameSpectra r.ram r'.ram) (count : r.avgCount = r'.avgCount) (ms : List F32) :
    SameSpectra (avgUpdate ms r).ram (avgUpdate ms r').ram := by
  simp only [Machine.avgUpdate, count, h.avgWords_eq _ le_rfl ms]
  exact h.writeWords ..

theorem SameSpectra.transformCycle (h : SameSpectra r.ram r'.ram) (count : r.avgCount = r'.avgCount)
    (frame : List S16) : SameSpectra (transformCycle P fc wt frame r).ram (transformCycle P fc wt frame r').ram :=
  (h.writeWords specBase _).avgUpdate (r := { r with ram := _ }) (r' := { r' with ram := _ }) count _

theorem SameSpectra.feedOne (h : SameSpectra r.ram r'.ram) (frame : SameFrame r r') (q : S16) :
    SameSpectra (feedOne P fc wt r q).ram (feedOne P fc wt r' q).ram := by
  by_cases full : r.fill + 1 = fc.t
  · rw [feedOne_of_full q full, feedOne_of_full q (frame.fill ▸ full), frame.fb, frame.fill]
    exact SameSpectra.transformCycle (r := { r with fb := _ }) (r' := { r' with fb := _ }) h frame.avgCount _
  · rw [feedOne_of_short q full, feedOne_of_short q (frame.fill ▸ full)]
    exact h

theorem SameFrame.feed (h : SameFrame r r') (qs : List S16) : SameFrame (feed P fc wt qs r) (feed P fc wt qs r') :=
  feed_relation (fun _ _ q hr => hr.feedOne q) qs h

theorem SameSpectra.feed (h : SameSpectra r.ram r'.ram) (frame : SameFrame r r') (qs : List S16) :
    SameSpectra (feed P fc wt qs r).ram (feed P fc wt qs r').ram :=
  (feed_relation (R := fun r r' => SameFrame r r' ∧ SameSpectra r.ram r'.ram)
    (fun _ _ q ⟨hframe, hram⟩ => ⟨hframe.feedOne q, hram.feedOne hframe q⟩) qs ⟨frame, h⟩).2

end

/-! ### How many frames a FEED completes -/

/-- One sample more: it completes a frame, and RRET samples are left, or it is only stored. -/
theorem nCycles_succ {fc : FftConfig} {f : Nat} (hr : fc.rret < fc.t) (n : Nat) :
    nCycles fc f (n + 1) = if f + 1 = fc.t then nCycles fc fc.rret n + 1 else nCycles fc (f + 1) n := by
  unfold nCycles
  by_cases full : f + 1 = fc.t
  · have completes : ¬ f + (n + 1) < fc.t := by omega
    rw [if_pos full, if_neg completes, show f + (n + 1) - fc.t = n by omega]
    by_cases more : fc.rret + n < fc.t
    · rw [if_pos more, Nat.div_eq_of_lt (by omega)]
    · rw [if_neg more, Nat.div_eq_sub_div (a := n) (by omega) (by omega),
        show n - (fc.t - fc.rret) = fc.rret + n - fc.t by omega]
      omega
  · rw [if_neg full, show f + (n + 1) = f + 1 + n by omega]

theorem feed_frameCount (P : Config.Params) {fc : FftConfig} (wt : List F32) (hr : fc.rret < fc.t) (qs : List S16)
    {r : Results} (hf : r.fill < fc.t) :
    (feed P fc wt qs r).frameCount = r.frameCount + BitVec.ofNat 32 (nCycles fc r.fill qs.length) := by
  induction qs generalizing r with
  | nil => simp [nCycles, hf]
  | cons q qs ih =>
    rw [feed_cons, List.length_cons, nCycles_succ hr]
    by_cases full : r.fill + 1 = fc.t
    · rw [if_pos full, feedOne_of_full q full, ih hr, completeFrame_fill,
        completeFrame_frameCount, wrapInc_eq_add_one, BitVec.add_assoc, Nat.add_comm, BitVec.ofNat_add]
      rfl
    · rw [if_neg full, feedOne_of_short q full, ih (show r.fill + 1 < fc.t by omega)]

/-! ### How many samples a chunk gives -/

theorem length_decimateChannel (P : Config.Params) {w : Word} {dc : DecConfig} (legal : decConfigOf P w = .ok dc)
    (gdb : Int) (e : List Byte) (c : Nat) {m : ChanMem} (hcasc : m.hb.isSome = dc.casc)
    (hphase : ∀ h, m.hb = some h → h.hbph = false) : (decimateChannel P dc gdb e c m).2.length = dc.nfin := by
  rw [(decConfigOf_sizesFit legal).nfin]
  cases hc : dc.casc with
  | false => simp [decimateChannel_plain P hc, primarySamples_length]
  | true =>
    obtain ⟨h, hh⟩ := Option.isSome_iff_exists.1 (hcasc.trans hc)
    simp [decimateChannel_cascade P hc gdb e c hh, length_halfband, primarySamples_length, hphase h hh]

/-- The samples a chunk feeds: those of channel FC.CHSEL. -/
def selectedSamples (P : Config.Params) (dc : DecConfig) (fc : FftConfig) (bs : List Byte) (gdb : Int) (r : Results) :
    List S16 :=
  (decimateChunk P dc r.filt bs gdb).2.getD fc.chsel []

theorem length_selectedSamples {P : Config.Params} {w : Word} {dc : DecConfig} (legal : decConfigOf P w = .ok dc)
    {fc : FftConfig} {r : Results} (hsel : fc.chsel < r.filt.length)
    (shape : ∀ m ∈ r.filt, m.hb.isSome = dc.casc ∧ ∀ h, m.hb = some h → h.hbph = false) (bs : List Byte)
    (gdb : Int) : (selectedSamples P dc fc bs gdb r).length = dc.nfin := by
  obtain ⟨hcasc, hphase⟩ := shape _ (List.getElem_mem hsel)
  rw [selectedSamples, List.getD_eq_getElem?_getD, (getElem?_decimateChunk P dc r.filt bs gdb fc.chsel).2,
    List.getElem?_eq_getElem hsel]
  exact length_decimateChannel P legal gdb _ fc.chsel hcasc hphase

/-! ### The results of a chunk -/

/-- The results once the chunk is decimated and PCM_OUT is written, before the FEED. -/
def decimated (P : Config.Params) (dc : DecConfig) (bs : List Byte) (gdb : Int) (r : Results) : Results :=
  { r with
    filt := (decimateChunk P dc r.filt bs gdb).1
    ram := writeHalves r.ram pcmBase (interleave dc (decimateChunk P dc r.filt bs gdb).2)
    pcmCount := BitVec.ofNat 32 (dc.cout * dc.nfin) }

theorem processChunk_eq (P : Config.Params) (dc : DecConfig) (fc : FftConfig) (wt : List F32) (bs : List Byte)
    (gdb : Int) (r : Results) :
    processChunk P dc fc wt bs gdb r =
      (let fed := feed P fc wt (selectedSamples P dc fc bs gdb r) (decimated P dc bs gdb r)
       { fed with chunkCount := wrapInc fed.chunkCount, avgWarm := warm fed.avgCount }) := rfl

theorem sameFrame_decimated (P : Config.Params) (dc : DecConfig) (bs : List Byte) (gdb : Int) (r : Results) :
    SameFrame (decimated P dc bs gdb r) r := ⟨rfl, rfl, rfl, rfl⟩

/-- PCM_OUT ends below AVG. -/
theorem sameSpectra_decimated (P : Config.Params) {dc : DecConfig} (hsamples : dc.cout * dc.nfin ≤ 2048)
    (bs : List Byte) (gdb : Int) {r : Results} (hm : memWf r.ram = true) :
    SameSpectra (decimated P dc bs gdb r).ram r.ram where
  canonical := memWf_writeHalves _ _ _ hm
  canonical' := hm
  same a ha := memGet_writeHalves_outside _ _ _ _ (.inr (by
    rw [interleave_length, Nat.mul_comm dc.nfin]
    unfold avgBase at ha
    unfold pcmBase
    omega))

/-- The frame buffer and its counters after a chunk are those of the FEED alone. -/
theorem sameFrame_processChunk (P : Config.Params) (dc : DecConfig) (fc : FftConfig) (wt : List F32) (bs : List Byte)
    (gdb : Int) (r : Results) :
    SameFrame (processChunk P dc fc wt bs gdb r) (feed P fc wt (selectedSamples P dc fc bs gdb r) r) := by
  obtain ⟨fb, fill, avgCount, frameCount⟩ := (sameFrame_decimated P dc bs gdb r).feed (P := P) (fc := fc) (wt := wt)
    (selectedSamples P dc fc bs gdb r)
  rw [processChunk_eq]
  exact ⟨fb, fill, avgCount, frameCount⟩

/-- AVG and SPEC after a chunk are those of the FEED alone. -/
theorem sameSpectra_processChunk (P : Config.Params) {dc : DecConfig} (hsamples : dc.cout * dc.nfin ≤ 2048)
    (fc : FftConfig) (wt : List F32) (bs : List Byte) (gdb : Int) {r : Results} (hm : memWf r.ram = true) :
    SameSpectra (processChunk P dc fc wt bs gdb r).ram
      (feed P fc wt (selectedSamples P dc fc bs gdb r) r).ram := by
  rw [processChunk_eq]
  exact (sameSpectra_decimated P hsamples bs gdb hm).feed (sameFrame_decimated P dc bs gdb r) _

theorem warm_iff (count : Word) : warm count = true ↔ count ≠ 0 := by
  rw [warm, decide_eq_true_eq, Nat.one_le_iff_ne_zero, ne_eq, ne_eq, ← BitVec.toNat_inj]
  rfl

/-- Settles O15: a FEED cannot tell the results with PCM_OUT written from r, and NFIN samples complete the frames that
`nCycles` counts. -/
theorem chunkCountsItselfItsSamplesAndItsFrames : Obligations.ChunkCountsItselfItsSamplesAndItsFrames := by
  intro P dc fc wt bs gdb r w legal hsel hret hfill hfilt shape r' fed
  have frame : SameFrame r' fed := sameFrame_processChunk P dc fc wt bs gdb r
  have samples := length_selectedSamples legal (hfilt.symm ▸ hsel) shape bs gdb
  refine ⟨⟨frame.fb, frame.fill, frame.avgCount, frame.frameCount, fun hram a ha => ?_⟩,
    processChunk_chunkCount P dc fc wt bs gdb r, feed_pcmCount .., processChunk_filt P dc fc wt bs gdb r,
    warm_iff _, ?_⟩
  · have canonical := ((ramWf_iff _).1 hram).1
    exact (sameSpectra_processChunk P (decConfigOf_samples_le legal) fc wt bs gdb canonical).ramByte_eq ha
  · calc r'.frameCount = fed.frameCount := frame.frameCount
      _ = r.frameCount + BitVec.ofNat 32 (nCycles fc r.fill (selectedSamples P dc fc bs gdb r).length) :=
        feed_frameCount P wt hret _ hfill
      _ = r.frameCount + BitVec.ofNat 32 (nCycles fc r.fill dc.nfin) := by rw [samples]

end Sys2Proof.Machine
end

section
/-! The overlap-save frame buffer: the retained count, EMIT_SHIFT, and the frames and the fill of a FEED
(42_overlap_save.md R281 to R285, R289). -/

namespace Sys2Proof.Machine

/-! ### The retained count -/

theorem fftConfigOf_rret {P : Config.Params} {w ov : Word} {fc : FftConfig} (h : fftConfigOf P w ov = .ok fc) :
    fc.rret = retained fc.ovl fc.t := by
  unfold fftConfigOf at h
  dsimp only at h
  split at h
  · cases h
  · split at h
    · cases h
    · split at h
      · cases h
      · split_ifs at h
        cases h
        rfl

/-- The integer division of `retained` is the rational floor of R281. -/
theorem retained_eq_floor (ovl t : Nat) : (retained ovl t : Int) = ⌊((ovl : Rat) / 65536 * t + 1 / 2)⌋ := by
  have common : (ovl : Rat) / 65536 * t + 1 / 2 = ((ovl * t + 32768 : Nat) : Rat) / (65536 : Nat) := by
    push_cast
    ring
  rw [common, Rat.floor_natCast_div_natCast]
  rfl

/-- Settles O47: CFG_FFT rejects an overlap whose retained count reaches T. -/
theorem retainedCountIsRoundedAndBelowT : Obligations.RetainedCountIsRoundedAndBelowT := by
  intro P w ov fc legal
  have below := fftConfigOf_rret_lt legal
  refine ⟨by omega, by omega, ?_⟩
  rw [fftConfigOf_rret legal]
  exact retained_eq_floor fc.ovl fc.t

/-! ### EMIT_SHIFT -/

/-- What is retained of a full buffer: what follows its first T − RRET samples. -/
theorem take_shiftFrame {fc : FftConfig} {fb : List S16} (hl : fb.length = fc.t) (hr : fc.rret < fc.t) :
    (shiftFrame fc fb).take fc.rret = fb.drop (fc.t - fc.rret) := by
  have trailing : (fb.drop (fc.t - fc.rret)).length = fc.rret := by
    rw [List.length_drop]
    omega
  rw [shiftFrame, List.take_of_length_le trailing.le, List.take_left' trailing]

theorem drop_shiftFrame {fc : FftConfig} {fb : List S16} (hl : fb.length = fc.t) (hr : fc.rret < fc.t) :
    (shiftFrame fc fb).drop fc.rret = fb.drop fc.rret := by
  have trailing : ((fb.drop (fc.t - fc.rret)).take fc.rret).length = fc.rret := by
    rw [List.length_take, List.length_drop]
    omega
  rw [shiftFrame, List.drop_left' trailing]

/-- Settles O48: the entries below RRET and those from RRET on are the two parts of the shifted buffer. -/
theorem emitShiftMovesTheTrailingSamples : Obligations.EmitShiftMovesTheTrailingSamples := by
  intro fc fb hl hr
  refine ⟨shiftFrame_length hl hr, fun i hi => ?_, fun i hi => ?_⟩
  · rw [← List.getElem?_drop, ← take_shiftFrame hl hr, List.getElem?_take_of_lt hi]
  · obtain ⟨j, rfl⟩ := Nat.exists_eq_add_of_le hi
    rw [← List.getElem?_drop, ← List.getElem?_drop, drop_shiftFrame hl hr]

/-! ### The fill -/

/-- Each transform cycle takes T − RRET samples from those held and fed; FILL counts the rest. -/
theorem feed_fill_add (P : Config.Params) {fc : FftConfig} (wt : List F32) (hr : fc.rret < fc.t) (qs : List S16)
    {r : Results} (hf : r.fill < fc.t) :
    (feed P fc wt qs r).fill + nCycles fc r.fill qs.length * (fc.t - fc.rret) = r.fill + qs.length := by
  induction qs generalizing r with
  | nil => simp [nCycles, hf]
  | cons q qs ih =>
    rw [feed_cons, List.length_cons, nCycles_succ hr]
    by_cases full : r.fill + 1 = fc.t
    · have rest := ih (r := completeFrame P fc wt (r.fb.set r.fill q) r) hr
      rw [completeFrame_fill] at rest
      rw [if_pos full, feedOne_of_full q full, Nat.add_one_mul]
      omega
    · have rest := ih (r := { r with fb := r.fb.set r.fill q, fill := r.fill + 1 })
        (show r.fill + 1 < fc.t by omega)
      rw [if_neg full, feedOne_of_short q full, rest]
      dsimp only
      omega

/-- Settles O49: the fill that is left is the remainder of the division that counts the cycles. -/
theorem feedRunsTheStatedNumberOfCycles : Obligations.FeedRunsTheStatedNumberOfCycles := by
  intro P fc wt q r hr hf r' n
  refine ⟨feed_frameCount P wt hr q hf, ?_⟩
  have balance : r'.fill + (if n < fc.t then 0 else 1 + (n - fc.t) / (fc.t - fc.rret)) * (fc.t - fc.rret) = n :=
    feed_fill_add P wt hr q hf
  by_cases short : n < fc.t
  · rw [if_pos short, Nat.zero_mul] at balance
    rwa [if_pos short]
  · rw [if_neg short] at balance ⊢
    have division := Nat.div_add_mod' (n - fc.t) (fc.t - fc.rret)
    rw [Nat.add_mul, Nat.one_mul] at balance
    omega

/-! ### The frames -/

/-- The first n windows of T samples of the stream, which start every T − RRET samples. -/
def frameWindows (fc : FftConfig) (n : Nat) (stream : List S16) : List (List S16) :=
  (List.range n).map fun m => (stream.drop (m * (fc.t - fc.rret))).take fc.t

@[simp] theorem frameWindows_zero (fc : FftConfig) (stream : List S16) : frameWindows fc 0 stream = [] := rfl

theorem frameWindows_succ (fc : FftConfig) (n : Nat) (stream : List S16) :
    frameWindows fc (n + 1) stream = stream.take fc.t :: frameWindows fc n (stream.drop (fc.t - fc.rret)) := by
  simp [frameWindows, List.range_succ_eq_map, Nat.succ_mul, Nat.add_comm]

/-- The results without the frame buffer and FILL. -/
def withoutBuffer (r : Results) : Results := { r with fb := [], fill := 0 }

/-- The samples of the frame buffer that are not stale. -/
def heldSamples (r : Results) : List S16 := r.fb.take r.fill

section
variable {P : Config.Params} {fc : FftConfig} {wt : List F32} {r : Results}

/-- A transform cycle runs on the frame it is given, and does not look at the buffer. -/
theorem withoutBuffer_transformCycle (frame : List S16) :
    withoutBuffer (transformCycle P fc wt frame r) = transformCycle P fc wt frame (withoutBuffer r) := rfl

theorem withoutBuffer_foldl_transformCycle (frames : List (List S16)) :
    withoutBuffer (frames.foldl (fun acc frame => transformCycle P fc wt frame acc) r) =
      frames.foldl (fun acc frame => transformCycle P fc wt frame acc) (withoutBuffer r) :=
  (List.foldl_hom withoutBuffer fun _ frame => (withoutBuffer_transformCycle frame).symm).symm

theorem withoutBuffer_completeFrame {fb : List S16} (hl : fb.length = fc.t) :
    withoutBuffer (completeFrame P fc wt fb r) = transformCycle P fc wt fb (withoutBuffer r) := by
  rw [completeFrame, List.take_of_length_le hl.le]
  rfl

/-- The sample fed is appended to those held. -/
theorem take_set_fill (hf : r.fill < r.fb.length) (q : S16) :
    (r.fb.set r.fill q).take (r.fill + 1) = heldSamples r ++ [q] := by
  rw [heldSamples, List.take_add_one, List.take_set_of_le le_rfl, List.getElem?_set_self hf]
  rfl

/-- The sample that completes a frame makes the buffer the samples held and itself. -/
theorem set_fill_of_full (hf : r.fill < fc.t) (hl : r.fb.length = fc.t) (full : r.fill + 1 = fc.t) (q : S16) :
    r.fb.set r.fill q = heldSamples r ++ [q] := by
  rw [← take_set_fill (hl.symm ▸ hf), List.take_of_length_le (by simp [hl, full])]

/-- By induction over the samples. One that does not complete a frame moves from those fed to those held and leaves
the stream as it is; one that does makes the buffer the stream's first window, of which EMIT_SHIFT keeps what follows
the first T − RRET samples. -/
theorem feed_frameWindows (hr : fc.rret < fc.t) (qs : List S16) (hf : r.fill < fc.t) (hl : r.fb.length = fc.t) :
    withoutBuffer (feed P fc wt qs r) =
        (frameWindows fc (nCycles fc r.fill qs.length) (heldSamples r ++ qs)).foldl
          (fun acc frame => transformCycle P fc wt frame acc) (withoutBuffer r) ∧
      heldSamples (feed P fc wt qs r) =
        (heldSamples r ++ qs).drop (nCycles fc r.fill qs.length * (fc.t - fc.rret)) := by
  induction qs generalizing r with
  | nil => simp [nCycles, hf]
  | cons q qs ih =>
    have fits : (r.fb.set r.fill q).length = fc.t := by simp [hl]
    have stream : heldSamples r ++ q :: qs = heldSamples r ++ [q] ++ qs := List.append_cons ..
    rw [feed_cons, List.length_cons, nCycles_succ hr, stream]
    by_cases full : r.fill + 1 = fc.t
    · rw [if_pos full, feedOne_of_full q full, ← set_fill_of_full hf hl full q]
      generalize r.fb.set r.fill q = fb at fits ⊢
      have retains : heldSamples (completeFrame P fc wt fb r) ++ qs = (fb ++ qs).drop (fc.t - fc.rret) := by
        rw [List.drop_append_of_le_length (by omega), ← take_shiftFrame fits hr]
        rfl
      obtain ⟨results, buffer⟩ := ih (r := completeFrame P fc wt fb r) hr (shiftFrame_length fits hr)
      rw [completeFrame_fill, retains] at results buffer
      constructor
      · rw [results, withoutBuffer_completeFrame fits, frameWindows_succ, List.take_left' fits, List.foldl_cons]
      · rw [buffer, List.drop_drop, Nat.add_one_mul, Nat.add_comm]
    · rw [if_neg full, feedOne_of_short q full, ← take_set_fill (hl.symm ▸ hf)]
      exact ih (r := { r with fb := r.fb.set r.fill q, fill := r.fill + 1 }) (show r.fill + 1 < fc.t by omega) fits

end

/-- Settles O50: the buffer plays no part in the transform cycles, so it may be left out before them or after. -/
theorem framesAreTheOverlappingWindows : Obligations.FramesAreTheOverlappingWindows := by
  intro P fc wt q r hr hf hl stream n frames r'
  obtain ⟨results, buffer⟩ := feed_frameWindows (P := P) (wt := wt) hr q hf hl
  obtain ⟨length, -⟩ := FrameFits.feed (P := P) wt hr q r ⟨hl, hf⟩
  exact ⟨results.trans (withoutBuffer_foldl_transformCycle frames).symm, length, buffer⟩

end Sys2Proof.Machine
end

section
/-! Bounds on binary32 rounding (00_scope.md R14): a rational of moderate size rounds to a finite value, off by half the
spacing at most and no farther from zero than a power of two that bounds it; what fits a significand rounds to itself. -/

namespace Sys2Proof.Machine

/-! ### The word of a rounding -/

theorem f32OfRat_eq_ofSignBits (q : Rat) :
    f32OfRat q = ofSignBits (decide (q < 0)) (rneBits q.num.natAbs q.den) := by
  obtain rfl | h0 := eq_or_ne q 0
  · decide +kernel
  · rw [f32OfRat, f32Round_of_ne_zero _ _ (Rat.num_ne_zero.mpr h0)]
    simp only [Rat.num_neg]

theorem f32Sign_f32OfRat (q : Rat) : f32Sign (f32OfRat q) = decide (q < 0) := by
  rw [f32OfRat_eq_ofSignBits, f32Sign_ofSignBits (rneBits_lt _ _)]

theorem f32ToRat_nonneg {x : F32} (hsign : f32Sign x = false) : 0 ≤ f32ToRat x := by
  rw [f32ToRat_eq, f32Units, hsign]
  simp only [Bool.false_eq_true, if_false, Int.cast_natCast]
  positivity

/-! ### The size and the error of a rounding -/

/-- The exponent of the spacing at q. -/
def spacingExp (q : Rat) : Nat := rneExp q.num.natAbs q.den

theorem natAbs_num_div_den (q : Rat) : (q.num.natAbs : Rat) / q.den = |q| := by
  rw [← Rat.num_div_den |q|, Rat.num_abs_eq_abs_num, Rat.den_abs_eq_den, Int.abs_eq_natAbs, Int.cast_natCast]

/-- A magnitude below 2^(e + 1) units is a significand of 24 bits over a spacing of at most 2^(e − 23) units. -/
theorem spacingExp_le {q : Rat} {e : Nat} (hq : |q| * 2 ^ 149 < 2 ^ (e + 1)) : spacingExp q ≤ e - 23 := by
  have hunits : q.num.natAbs * 2 ^ 149 / q.den < 2 ^ (e + 1) := by
    rw [Nat.div_lt_iff_lt_mul q.den_pos]
    rw [← natAbs_num_div_den, div_mul_eq_mul_div, div_lt_iff₀ (by exact_mod_cast q.den_pos)] at hq
    exact_mod_cast hq
  have hlog : (q.num.natAbs * 2 ^ 149 / q.den).log2 ≤ e := by
    rw [Nat.log2_eq_log_two]
    exact Nat.lt_succ_iff.mp (Nat.log_lt_of_lt_pow' (by omega) hunits)
  exact Nat.sub_le_sub_right hlog 23

theorem f32IsFinite_f32OfRat {q : Rat} (hq : |q| ≤ 2 ^ 126) : f32IsFinite (f32OfRat q) = true := by
  have hexp : spacingExp q ≤ 275 - 23 := by
    refine spacingExp_le ?_
    calc |q| * 2 ^ 149 ≤ 2 ^ 126 * 2 ^ 149 := by gcongr
      _ = 2 ^ 275 := (pow_add ..).symm
      _ < 2 ^ (275 + 1) := pow_lt_pow_right₀ one_lt_two (Nat.lt_succ_self 275)
  have hsig := rneSig_le q.num.natAbs q.den_pos
  rw [f32OfRat_eq_ofSignBits, f32IsFinite_iff, toNat_ofSignBits_mod (rneBits_lt _ _), rneBits_eq]
  unfold spacingExp at hexp
  omega

/-- The error of a rounding is that of its significand over the spacing. -/
theorem exists_isRounding {q : Rat} (hq : |q| ≤ 2 ^ 126) : ∃ m : Nat,
    IsRounding (|q| * 2 ^ 149) (spacingExp q) m ∧
      |f32ToRat (f32OfRat q) - q| * 2 ^ 149 = |(m : Rat) * 2 ^ spacingExp q - |q| * 2 ^ 149| := by
  have h := isRounding_rneSig (K := Rat) q.num.natAbs q.den_pos
  rw [natAbs_num_div_den] at h
  refine ⟨_, h, ?_⟩
  have hfin := f32IsFinite_f32OfRat hq
  rw [f32OfRat_eq_ofSignBits] at hfin ⊢
  have hunits := f32Units_ofSignBits (neg := decide (q < 0)) (rneBits_lt q.num.natAbs q.den)
  rw [rneBits_of_finite hfin, h.magOfBits_eq] at hunits
  rw [rneBits_of_finite hfin, f32ToRat_eq, hunits, ← spacingExp]
  have hpos : (0 : Rat) < 2 ^ 149 := by positivity
  rw [← abs_of_pos hpos, ← abs_mul, abs_of_pos hpos, sub_mul, div_mul_cancel₀ _ hpos.ne']
  obtain hneg | hnonneg := lt_or_ge q 0
  · rw [decide_eq_true hneg, if_pos rfl, abs_of_neg hneg, ← abs_neg]
    push_cast
    ring_nf
  · rw [decide_eq_false hnonneg.not_gt, if_neg Bool.false_ne_true, abs_of_nonneg hnonneg]
    push_cast
    rfl

/-- Below 2 the spacing is 2^−23 at most, and a rounding is off by half of it. -/
theorem abs_f32OfRat_sub_le {q : Rat} (hq : |q| ≤ 1) : |f32ToRat (f32OfRat q) - q| ≤ 1 / 2 ^ 24 := by
  obtain ⟨m, h, herror⟩ := exists_isRounding (hq.trans (by norm_num))
  have hexp : spacingExp q ≤ 149 - 23 := by
    refine spacingExp_le ?_
    calc |q| * 2 ^ 149 ≤ 1 * 2 ^ 149 := by gcongr
      _ < 2 ^ (149 + 1) := by norm_num
  have hspacing : (2 : Rat) ^ spacingExp q ≤ 2 ^ 126 := pow_le_pow_right₀ one_le_two hexp
  have hnear := h.near
  rw [← herror] at hnear
  linarith

/-- An integer of at most 24 bits over a power of two rounds to itself. -/
theorem f32ToRat_f32OfRat {q : Rat} {c : Int} {e : Nat} (hc : c.natAbs < 2 ^ 24) (hq : |q| ≤ 2 ^ 126)
    (hval : q * 2 ^ 149 = c * 2 ^ e) : f32ToRat (f32OfRat q) = q := by
  obtain ⟨m, h, herror⟩ := exists_isRounding hq
  have hunits : |q| * 2 ^ 149 = c.natAbs * 2 ^ e := by
    have habs := congrArg abs hval
    rwa [abs_mul, abs_mul, abs_of_pos (show (0 : Rat) < 2 ^ 149 by positivity),
      abs_of_pos (show (0 : Rat) < 2 ^ e by positivity), ← Int.cast_abs, Int.abs_eq_natAbs, Int.cast_natCast] at habs
  have hexp : spacingExp q ≤ e := by
    refine spacingExp_le (e := e + 23) ?_
    have hlt : (c.natAbs : Rat) < 2 ^ 24 := by exact_mod_cast hc
    calc |q| * 2 ^ 149 = c.natAbs * 2 ^ e := hunits
      _ < 2 ^ 24 * 2 ^ e := by gcongr
      _ = 2 ^ (e + 23 + 1) := by rw [← pow_add]; congr 1; omega
  have hmultiple : |q| * 2 ^ 149 = (c.natAbs * 2 ^ (e - spacingExp q) : Nat) * 2 ^ spacingExp q := by
    rw [hunits]
    push_cast
    rw [mul_assoc, ← pow_add, Nat.sub_add_cancel hexp]
  have hgrid := (h.noNearer_multiple (c.natAbs * 2 ^ (e - spacingExp q))).1
  rw [← herror, ← hmultiple, sub_self, abs_zero] at hgrid
  have hzero : |f32ToRat (f32OfRat q) - q| ≤ 0 := nonpos_of_mul_nonpos_left hgrid (by positivity)
  exact sub_eq_zero.mp (abs_nonpos_iff.mp hzero)

/-- A power of two rounds to itself, so what it bounds rounds to no more than it. -/
theorem abs_f32ToRat_f32OfRat_le {q : Rat} {e : Nat} (he : e ≤ 126) (hq : |q| ≤ 2 ^ e) :
    |f32ToRat (f32OfRat q)| ≤ 2 ^ e := by
  have hsize : (2 : Rat) ^ e ≤ 2 ^ 126 := pow_le_pow_right₀ one_le_two he
  have hpow : |(2 : Rat) ^ e| = 2 ^ e := abs_of_pos (by positivity)
  have hbound : f32ToRat (f32OfRat (2 ^ e)) = 2 ^ e :=
    f32ToRat_f32OfRat (c := 1) (e := e + 149) (by decide) (hpow.trans_le hsize) (by rw [pow_add]; push_cast; ring)
  have hnearest := isNearestEven_f32OfRat (f32IsFinite_f32OfRat (hq.trans hsize))
  have habove := (hnearest (f32OfRat (2 ^ e))).1
  have hbelow := (hnearest (f32Neg (f32OfRat (2 ^ e)))).1
  simp only [Rat.cast_id, f32ToRat_f32Neg, hbound] at habove hbelow
  obtain ⟨hlow, hhigh⟩ := abs_le.mp hq
  rw [abs_of_nonneg (sub_nonneg.mpr hhigh)] at habove
  rw [abs_of_nonpos (a := -2 ^ e - q) (by linarith)] at hbelow
  exact abs_le.mpr ⟨by linarith [(abs_le.mp hbelow).1], by linarith [(abs_le.mp habove).2]⟩

/-! ### Roundings with a signed zero -/

/-- The sign of an exact zero does not change the value. -/
theorem f32ToRat_zeroOr (neg : Bool) (q : Rat) :
    f32ToRat (if q = 0 then f32Zero neg else f32OfRat q) = f32ToRat (f32OfRat q) := by
  split
  next h0 => rw [h0, f32ToRat_zero]; exact (f32ToRat_zero false).symm
  next => rfl

theorem f32IsFinite_zeroOr (neg : Bool) {q : Rat} (hq : |q| ≤ 2 ^ 126) :
    f32IsFinite (if q = 0 then f32Zero neg else f32OfRat q) = true := by
  split
  next => cases neg <;> rfl
  next => exact f32IsFinite_f32OfRat hq

theorem f32Sign_zeroOr {neg : Bool} {q : Rat} (hneg : neg = false) (hq : 0 ≤ q) :
    f32Sign (if q = 0 then f32Zero neg else f32OfRat q) = false := by
  split
  next => rw [hneg]; rfl
  next => rw [f32Sign_f32OfRat, decide_eq_false hq.not_gt]

/-! ### NORMALIZE -/

theorem f32ToRat_f32Scale15 : f32ToRat f32Scale15 = 1 / 2 ^ 15 := by decide +kernel

theorem natAbs_toInt_le (v : S16) : v.toInt.natAbs ≤ 2 ^ 15 := by
  have hlow := v.le_toInt
  have hhigh := v.toInt_lt
  omega

theorem abs_toInt_le (v : S16) : |(v.toInt : Rat)| ≤ 2 ^ 15 := by
  have h := natAbs_toInt_le v
  rw [← Int.cast_abs, Int.abs_eq_natAbs]
  exact_mod_cast h

theorem f32OfInt_toInt (v : S16) :
    f32IsFinite (f32OfInt v.toInt) = true ∧ f32ToRat (f32OfInt v.toInt) = v.toInt := by
  have hsize : |(v.toInt : Rat)| ≤ 2 ^ 126 := (abs_toInt_le v).trans (by norm_num)
  rw [f32OfInt_eq_f32OfRat]
  exact ⟨f32IsFinite_f32OfRat hsize,
    f32ToRat_f32OfRat (e := 149) ((natAbs_toInt_le v).trans_lt (by norm_num)) hsize rfl⟩

/-- Settles O55: the sample and 2^−15 are exact, and the sample's 16 bits fit the significand of the product. -/
theorem normalizeIsExact : Obligations.NormalizeIsExact := by
  intro v
  obtain ⟨hfin, hval⟩ := f32OfInt_toInt v
  have hprod : f32ToRat (f32OfInt v.toInt) * f32ToRat f32Scale15 = (v.toInt : Rat) / 32768 := by
    rw [hval, f32ToRat_f32Scale15]; ring
  have hsize : |(v.toInt : Rat) / 32768| ≤ 2 ^ 126 := by
    rw [abs_div, abs_of_pos (show (0 : Rat) < 32768 by norm_num)]
    linarith [abs_toInt_le v]
  rw [normalize, f32Mul_of_finite hfin (by rfl), hprod, f32ToRat_zeroOr]
  exact ⟨f32IsFinite_zeroOr _ hsize,
    f32ToRat_f32OfRat (c := v.toInt) (e := 134) ((natAbs_toInt_le v).trans_lt (by norm_num)) hsize (by ring)⟩

end Sys2Proof.Machine
end

section
/-! The fixed-point cosine of the window tables (43_window_fft.md R312 to R316): its size, its symmetry, and its distance
from the real cosine (log 17). -/

namespace Sys2Proof.Machine

/-! ### The folded angle -/

/-- The angle p/q, in units of π/q, folded into [0, π]. -/
def foldAngle (p q : Nat) : Nat := if p % (2 * q) ≤ q then p % (2 * q) else 2 * q - p % (2 * q)

/-- The cosine of an angle f/q up to π, from that of its first quarter. -/
def cosHalf (f q : Nat) : Int := if 2 * f ≤ q then (cosQuarter f q : Int) else -(cosQuarter (q - f) q : Int)

theorem cosPi_eq (p q : Nat) : cosPi p q = cosHalf (foldAngle p q) q := rfl

/-- Angles whose sum is a whole number of turns fold to the same angle. -/
theorem foldAngle_eq_of_dvd {p p' q : Nat} (h : 2 * q ∣ p + p') : foldAngle p q = foldAngle p' q := by
  obtain rfl | hq := Nat.eq_zero_or_pos q
  · obtain ⟨rfl, rfl⟩ : p = 0 ∧ p' = 0 := by simpa using h
    rfl
  have hsum : (p % (2 * q) + p' % (2 * q)) % (2 * q) = 0 := by
    rw [← Nat.add_mod]; exact Nat.mod_eq_zero_of_dvd h
  have hp := Nat.mod_lt p (show 0 < 2 * q by omega)
  have hp' := Nat.mod_lt p' (show 0 < 2 * q by omega)
  obtain ⟨k, hk⟩ := Nat.dvd_of_mod_eq_zero hsum
  have hcases : p % (2 * q) + p' % (2 * q) = 0 ∨ p % (2 * q) + p' % (2 * q) = 2 * q := by
    rcases k with - | - | k
    · exact .inl (by simpa using hk)
    · exact .inr (by simpa using hk)
    · have hlarge : 2 * q * 2 ≤ 2 * q * (k + 1 + 1) := Nat.mul_le_mul_left _ (by omega)
      omega
  unfold foldAngle
  split_ifs <;> omega

theorem foldAngle_le (p q : Nat) : foldAngle p q ≤ q := by
  unfold foldAngle
  split <;> omega

theorem foldAngle_of_le {p q : Nat} (h : p ≤ q) (hq : 0 < q) : foldAngle p q = p := by
  rw [foldAngle, Nat.mod_eq_of_lt (by omega), if_pos h]

/-! ### Size and values at the ends -/

theorem cosSeries_le {x2 acc : Nat} (h : acc ≤ fixOne) (j : Nat) : cosSeries x2 j acc ≤ fixOne := by
  induction j generalizing acc with
  | zero => exact h
  | succ j ih => exact ih (Nat.sub_le _ _)

theorem cosSeries_zero (j : Nat) : cosSeries 0 j fixOne = fixOne := by
  induction j with
  | zero => rfl
  | succ j ih => simpa [cosSeries] using ih

theorem cosQuarter_zero (q : Nat) : cosQuarter 0 q = fixOne := by
  simpa [cosQuarter] using cosSeries_zero 24

theorem cosQuarter_le (p q : Nat) : cosQuarter p q ≤ fixOne := cosSeries_le le_rfl _

/-- The fixed-point cosine of π·p/q as a rational. -/
def cosRatio (p q : Nat) : Rat := cosPi p q / fixOne

theorem fixOne_pos : 0 < fixOne := by decide

theorem fixOne_ne_zero : (fixOne : Rat) ≠ 0 := by exact_mod_cast fixOne_pos.ne'

theorem abs_cosRatio_le (p q : Nat) : |cosRatio p q| ≤ 1 := by
  have hint : |cosPi p q| ≤ fixOne := by
    have hlow := cosQuarter_le (foldAngle p q) q
    have hhigh := cosQuarter_le (q - foldAngle p q) q
    rw [cosPi_eq, cosHalf, abs_le]
    split <;> omega
  have hpos : (0 : Rat) < fixOne := by exact_mod_cast fixOne_pos
  rw [cosRatio, abs_div, abs_of_pos hpos, div_le_one hpos]
  exact_mod_cast hint

theorem cosRatio_eq_of_dvd {p p' q : Nat} (h : 2 * q ∣ p + p') : cosRatio p q = cosRatio p' q := by
  rw [cosRatio, cosRatio, cosPi_eq, cosPi_eq, foldAngle_eq_of_dvd h]

theorem cosRatio_zero (q : Nat) : cosRatio 0 q = 1 := by
  have hfold : foldAngle 0 q = 0 := by simp [foldAngle]
  rw [cosRatio, cosPi_eq, hfold, cosHalf, if_pos (by omega), cosQuarter_zero, Int.cast_natCast,
    div_self fixOne_ne_zero]

theorem cosRatio_self {q : Nat} (hq : 0 < q) : cosRatio q q = -1 := by
  rw [cosRatio, cosPi_eq, foldAngle_of_le le_rfl hq, cosHalf, if_neg (by omega), Nat.sub_self, cosQuarter_zero,
    Int.cast_neg, Int.cast_natCast, neg_div, div_self fixOne_ne_zero]

/-! ### The real Horner form -/

/-- The Horner form of `cosSeries` over the reals. -/
noncomputable def cosHorner (x2 : ℝ) : Nat → ℝ → ℝ
  | 0, acc => acc
  | j + 1, acc => cosHorner x2 j (1 - x2 * acc / ((2 * j + 1) * (2 * j + 2) : Nat))

/-- The Horner form is the Taylor sum with `acc` in the place of the factor of its last term. -/
theorem cosHorner_eq_sum (x2 acc : ℝ) (j : Nat) :
    cosHorner x2 j acc =
      ∑ i ∈ Finset.range j, (-x2) ^ i / (2 * i).factorial + (-x2) ^ j / (2 * j).factorial * acc := by
  induction j generalizing acc with
  | zero => simp [cosHorner]
  | succ j ih =>
    have hfact : ((2 * (j + 1)).factorial : ℝ) = ((2 * j + 1) * (2 * j + 2) : Nat) * (2 * j).factorial := by
      rw [show 2 * (j + 1) = 2 * j + 1 + 1 by ring, Nat.factorial_succ, Nat.factorial_succ]
      push_cast
      ring
    rw [cosHorner, ih, Finset.sum_range_succ, hfact]
    have hpos : ((2 * j).factorial : ℝ) ≠ 0 := by positivity
    push_cast
    field_simp
    ring

theorem iteratedDeriv_cos_two_add (j : Nat) (x : ℝ) :
    iteratedDeriv (2 * j + 1 + 1) Real.cos x = (-1) ^ (j + 1) * Real.cos x := by
  have h := congrFun (Real.iteratedDeriv_even_cos (j + 1)) x
  simpa [Nat.mul_add] using h

/-- The Taylor sum of the cosine at 0, where its odd derivatives vanish. -/
theorem taylorWithinEval_cos (j : Nat) {x : ℝ} (hx : 0 < x) :
    taylorWithinEval Real.cos (2 * j + 1) (Set.uIcc 0 x) 0 x =
      ∑ i ∈ Finset.range (j + 1), (-(x ^ 2)) ^ i / (2 * i).factorial := by
  have hmem : (0 : ℝ) ∈ Set.Icc 0 x := ⟨le_rfl, hx.le⟩
  rw [Set.uIcc_of_le hx.le, taylor_within_apply]
  simp only [Real.iteratedDerivWithin_cos_Icc _ hx hmem, sub_zero, smul_eq_mul]
  induction j with
  | zero => simp [Finset.sum_range_succ]
  | succ j ih =>
    have hodd : iteratedDeriv (2 * (j + 1) + 1) Real.cos 0 = 0 := by simp
    rw [Finset.sum_range_succ, hodd, mul_zero, add_zero, show 2 * (j + 1) = 2 * j + 1 + 1 by ring,
      Finset.sum_range_succ, ih, iteratedDeriv_cos_two_add, Real.cos_zero, Finset.sum_range_succ _ (j + 1),
      neg_pow (x ^ 2), ← pow_mul, show 2 * (j + 1) = 2 * j + 1 + 1 by ring]
    ring

/-- In the first quarter the real cosine is the Horner form with a number of [0, 1] innermost: the Lagrange factor of
the remainder, itself a cosine. -/
theorem exists_cosHorner_eq_cos (j : Nat) {x : ℝ} (h0 : 0 ≤ x) (hx : x ≤ Real.pi / 2) :
    ∃ a : ℝ, 0 ≤ a ∧ a ≤ 1 ∧ cosHorner (x ^ 2) (j + 1) a = Real.cos x := by
  obtain rfl | hpos := h0.eq_or_lt
  · refine ⟨1, zero_le_one, le_rfl, ?_⟩
    simp [cosHorner_eq_sum, Finset.sum_range_succ']
  obtain ⟨ξ, hξ, hrest⟩ := taylor_mean_remainder_lagrange_iteratedDeriv (n := 2 * j + 1) hpos.ne
    Real.contDiff_cos.contDiffOn
  rw [Set.uIoo_of_lt hpos] at hξ
  refine ⟨Real.cos ξ, Real.cos_nonneg_of_mem_Icc ⟨by linarith [hξ.1, Real.pi_pos], hξ.2.le.trans hx⟩,
    Real.cos_le_one ξ, ?_⟩
  rw [taylorWithinEval_cos j hpos, iteratedDeriv_cos_two_add, sub_zero, sub_eq_iff_eq_add'] at hrest
  rw [hrest, cosHorner_eq_sum, neg_pow (x ^ 2), ← pow_mul, show 2 * (j + 1) = 2 * j + 1 + 1 by ring]
  ring

/-! ### The distance of the fixed-point cosine from the real one -/

/-- A quotient of integers is rounded down by less than one unit of 2^−128. -/
theorem fixDiv_near (n d : Nat) : |((n / d : Nat) : ℝ) / fixOne - n / d / fixOne| ≤ 1 / fixOne := by
  have hone : (0 : ℝ) < fixOne := by exact_mod_cast fixOne_pos
  have hle : ((n / d : Nat) : ℝ) ≤ n / d := Nat.cast_div_le
  have hlt : (n : ℝ) / d < (n / d : Nat) + 1 := by
    rw [← Nat.floor_div_eq_div (K := ℝ)]
    exact Nat.lt_floor_add_one _
  rw [← sub_div, abs_div, abs_of_pos hone]
  gcongr
  rw [abs_le]
  constructor <;> linarith

theorem abs_mul_sub_mul_le {u v X a δ e : ℝ} (hX : 0 ≤ X) (hv0 : 0 ≤ v) (hv1 : v ≤ 1) (hu : |u - X| ≤ δ)
    (hv : |v - a| ≤ e) : |u * v - X * a| ≤ δ + X * e := by
  calc |u * v - X * a| = |(u - X) * v + X * (v - a)| := by ring_nf
    _ ≤ |u - X| * v + X * |v - a| := by
      refine (abs_add_le _ _).trans_eq ?_
      rw [abs_mul, abs_mul, abs_of_nonneg hX, abs_of_nonneg hv0]
    _ ≤ δ * 1 + X * e := by gcongr; exact (abs_nonneg _).trans hu
    _ = δ + X * e := by rw [mul_one]

section
variable {x2 acc m : Nat} {X δ e a : ℝ} (hX : 0 ≤ X) (hx : |(x2 : ℝ) / fixOne - X| ≤ δ) (hδ : 2 / (fixOne : ℝ) ≤ δ)
  (hacc : acc ≤ fixOne)
include hX hx hδ hacc

/-- A term x²·acc/m: the angle's error and the rounding add at most δ, and the error of `acc` shrinks by x²/m. -/
theorem cosTerm_near (hm : 2 ≤ m) (ha : |(acc : ℝ) / fixOne - a| ≤ e) :
    |((x2 * acc / fixOne / m : Nat) : ℝ) / fixOne - X * a / m| ≤ δ + X / m * e := by
  have hone : (0 : ℝ) < fixOne := by exact_mod_cast fixOne_pos
  have hm' : (2 : ℝ) ≤ m := by exact_mod_cast hm
  have hacc1 : (acc : ℝ) / fixOne ≤ 1 := by rw [div_le_one hone]; exact_mod_cast hacc
  have hprod := abs_mul_sub_mul_le hX (by positivity) hacc1 hx ha
  have hδ0 : 0 ≤ δ := (abs_nonneg _).trans hx
  have hfloor := fixDiv_near (x2 * acc) (fixOne * m)
  have hquot : ((x2 * acc : Nat) : ℝ) / (fixOne * m : Nat) / fixOne = x2 / fixOne * (acc / fixOne) / m := by
    push_cast; field_simp
  rw [hquot] at hfloor
  have hdiv : |(x2 : ℝ) / fixOne * (acc / fixOne) / m - X * a / m| ≤ δ / 2 + X / m * e := by
    rw [← sub_div, abs_div, abs_of_pos (show (0 : ℝ) < m by linarith), div_le_iff₀ (by linarith)]
    have hexpand : (δ / 2 + X / m * e) * m = δ / 2 * m + X * e := by field_simp
    rw [hexpand]
    nlinarith
  have hhalf : 1 / (fixOne : ℝ) = 2 / fixOne / 2 := by ring
  rw [Nat.div_div_eq_div_mul]
  linarith [abs_sub_le (((x2 * acc / (fixOne * m) : Nat) : ℝ) / fixOne) (x2 / fixOne * (acc / fixOne) / m) (X * a / m)]

/-- One Horner step: where the subtraction is cut at 0, the cut brings it nearer to a step that is not negative. -/
theorem cosStep_near (hm : 2 ≤ m) (ha : |(acc : ℝ) / fixOne - a| ≤ e) (hstep : 0 ≤ 1 - X * a / m) :
    |((fixOne - x2 * acc / fixOne / m : Nat) : ℝ) / fixOne - (1 - X * a / m)| ≤ δ + X / m * e := by
  have hone : (0 : ℝ) < fixOne := by exact_mod_cast fixOne_pos
  have hterm := cosTerm_near hX hx hδ hacc hm ha
  generalize x2 * acc / fixOne / m = t at hterm ⊢
  obtain hle | hgt := le_or_gt t fixOne
  · rw [Nat.cast_sub hle, sub_div, div_self hone.ne', sub_sub_sub_cancel_left, abs_sub_comm]
    exact hterm
  · have hcut : 1 < (t : ℝ) / fixOne := by rw [one_lt_div hone]; exact_mod_cast hgt
    rw [Nat.sub_eq_zero_of_le hgt.le, Nat.cast_zero, zero_div, zero_sub, abs_neg, abs_of_nonneg hstep]
    linarith [(abs_le.mp hterm).2]

/-- From the second term of the series on, a step shrinks the error by 4. -/
theorem cosStep_shrinks (hm : 12 ≤ m) (hX' : X ≤ 5 / 2) (he : 0 ≤ e) (ha0 : 0 ≤ a) (ha1 : a ≤ 1)
    (hnear : |(acc : ℝ) / fixOne - a| ≤ 2 * δ + e) :
    0 ≤ 1 - X * a / m ∧ 1 - X * a / m ≤ 1 ∧
      |((fixOne - x2 * acc / fixOne / m : Nat) : ℝ) / fixOne - (1 - X * a / m)| ≤ 2 * δ + e / 4 := by
  have hm' : (12 : ℝ) ≤ m := by exact_mod_cast hm
  have hδ0 : 0 ≤ δ := (abs_nonneg _).trans hx
  have hquarter : X / m ≤ 1 / 4 := by rw [div_le_iff₀ (by linarith)]; linarith
  have hterm : X * a / m ≤ 1 / 4 := by rw [mul_div_right_comm]; nlinarith
  have hterm0 : 0 ≤ X * a / m := by positivity
  have hstep := cosStep_near hX hx hδ hacc (le_trans (by norm_num) hm) hnear (by linarith)
  exact ⟨by linarith, by linarith, hstep.trans (by nlinarith)⟩

end

/-- The whole series: every step but the last shrinks the error by 4, and that one at most doubles it. -/
theorem cosSeries_near {x2 : Nat} {X δ : ℝ} (hX : 0 ≤ X) (hX' : X ≤ 5 / 2) (hx : |(x2 : ℝ) / fixOne - X| ≤ δ)
    (hδ : 2 / (fixOne : ℝ) ≤ δ) (j : Nat) {acc : Nat} {e a : ℝ} (hacc : acc ≤ fixOne) (he : 0 ≤ e) (ha0 : 0 ≤ a)
    (ha1 : a ≤ 1) (hnear : |(acc : ℝ) / fixOne - a| ≤ 2 * δ + e) (hcos : 0 ≤ cosHorner X j a) :
    |(cosSeries x2 j acc : ℝ) / fixOne - cosHorner X j a| ≤ 4 * δ + 5 * (e / 4 ^ j) := by
  have hδ0 : 0 ≤ δ := (abs_nonneg _).trans hx
  induction j generalizing acc e a with
  | zero =>
    simp only [cosSeries, cosHorner, pow_zero, div_one]
    linarith
  | succ j ih =>
    obtain rfl | hj := Nat.eq_zero_or_pos j
    · refine (cosStep_near (m := (2 * 0 + 1) * (2 * 0 + 2)) hX hx hδ hacc (by norm_num) hnear hcos).trans ?_
      norm_num
      nlinarith
    · obtain ⟨hnonneg, hle, hstep⟩ := cosStep_shrinks (m := (2 * j + 1) * (2 * j + 2)) hX hx hδ hacc
        (by nlinarith) hX' he ha0 ha1 hnear
      refine (ih (Nat.sub_le _ _) (by positivity) hnonneg hle hstep hcos).trans_eq ?_
      rw [pow_succ]
      field_simp

/-- π with 128 fractional bits is right to 19 decimals. -/
theorem fixPi_near : |(fixPi : ℝ) / fixOne - Real.pi| ≤ 1 / 10 ^ 19 := by
  have hlow := Real.pi_gt_d20
  have hhigh := Real.pi_lt_d20
  rw [abs_le, fixPi, fixOne]
  constructor <;> norm_num <;> linarith

section
variable {p q : Nat} (hq : 0 < q) (h : 2 * p ≤ q)
include hq h

theorem quarterAngle_mem : 0 ≤ Real.pi * p / q ∧ Real.pi * p / q ≤ Real.pi / 2 := by
  have h' : (2 : ℝ) * p ≤ q := by exact_mod_cast h
  refine ⟨by positivity, ?_⟩
  rw [div_le_iff₀ (by exact_mod_cast hq)]
  nlinarith [Real.pi_pos]

/-- The fixed-point angle: the error of π grows no larger, and the division rounds once. -/
theorem fixAngle_near : |((fixPi * p / q : Nat) : ℝ) / fixOne - Real.pi * p / q| ≤ 2 / 10 ^ 19 := by
  have hunit : 1 / (fixOne : ℝ) ≤ 1 / 10 ^ 19 := by rw [fixOne]; norm_num
  have hratio : (p : ℝ) / q ≤ 1 := by
    rw [div_le_one (by exact_mod_cast hq)]
    exact_mod_cast (show p ≤ q by omega)
  have hpi : |((fixPi * p : Nat) : ℝ) / q / fixOne - Real.pi * p / q| ≤ 1 / 10 ^ 19 := by
    have hfactor : ((fixPi * p : Nat) : ℝ) / q / fixOne - Real.pi * p / q =
        ((fixPi : ℝ) / fixOne - Real.pi) * (p / q) := by push_cast; ring
    rw [hfactor, abs_mul, abs_of_nonneg (show (0 : ℝ) ≤ p / q by positivity)]
    exact (mul_le_of_le_one_right (abs_nonneg _) hratio).trans fixPi_near
  linarith [fixDiv_near (fixPi * p) q, abs_sub_le (((fixPi * p / q : Nat) : ℝ) / fixOne)
    ((fixPi * p : Nat) / q / fixOne) (Real.pi * p / q)]

/-- The fixed-point square of the angle: angles up to π/2 add up to less than 4. -/
theorem fixSquare_near :
    |((fixPi * p / q * (fixPi * p / q) / fixOne : Nat) : ℝ) / fixOne - (Real.pi * p / q) ^ 2| ≤ 1 / 10 ^ 17 := by
  have hunit : 1 / (fixOne : ℝ) ≤ 1 / 10 ^ 19 := by rw [fixOne]; norm_num
  obtain ⟨hθ, hθ'⟩ := quarterAngle_mem hq h
  have hangle := fixAngle_near hq h
  generalize fixPi * p / q = x at hangle ⊢
  have hsquare : |((x * x : Nat) : ℝ) / fixOne / fixOne - (Real.pi * p / q) ^ 2| ≤ 2 / 10 ^ 19 * 4 := by
    have hfactor : ((x * x : Nat) : ℝ) / fixOne / fixOne - (Real.pi * p / q) ^ 2 =
        ((x : ℝ) / fixOne - Real.pi * p / q) * (x / fixOne + Real.pi * p / q) := by push_cast; ring
    have hsum : (x : ℝ) / fixOne + Real.pi * p / q ≤ 4 := by linarith [(abs_le.mp hangle).2, Real.pi_lt_d2]
    rw [hfactor, abs_mul, abs_of_nonneg (show 0 ≤ (x : ℝ) / fixOne + Real.pi * p / q by positivity)]
    gcongr
  linarith [fixDiv_near (x * x) fixOne, abs_sub_le (((x * x / fixOne : Nat) : ℝ) / fixOne)
    ((x * x : Nat) / fixOne / fixOne) ((Real.pi * p / q) ^ 2)]

theorem cosQuarter_near : |(cosQuarter p q : ℝ) / fixOne - Real.cos (Real.pi * p / q)| ≤ 1 / 10 ^ 9 := by
  obtain ⟨hθ, hθ'⟩ := quarterAngle_mem hq h
  have hX : (Real.pi * p / q) ^ 2 ≤ 5 / 2 := by nlinarith [Real.pi_lt_d2]
  obtain ⟨a, ha0, ha1, hcos⟩ := exists_cosHorner_eq_cos 23 hθ hθ'
  have hstart : |(fixOne : ℝ) / fixOne - a| ≤ 2 * (1 / 10 ^ 17) + 1 := by
    rw [div_self (by exact_mod_cast fixOne_pos.ne'), abs_le]
    constructor <;> linarith
  have hnonneg : 0 ≤ Real.cos (Real.pi * p / q) :=
    Real.cos_nonneg_of_mem_Icc ⟨by linarith [Real.pi_pos], hθ'⟩
  rw [← hcos] at hnonneg ⊢
  refine (cosSeries_near (by positivity) hX (fixSquare_near hq h) ?_ 24 le_rfl zero_le_one ha0 ha1 hstart
    hnonneg).trans ?_
  · rw [fixOne]; norm_num
  · norm_num

end

theorem cosHalf_near {f q : Nat} (hq : 0 < q) (h : f ≤ q) :
    |(cosHalf f q : ℝ) / fixOne - Real.cos (Real.pi * f / q)| ≤ 1 / 10 ^ 9 := by
  unfold cosHalf
  split
  next hquarter =>
    rw [Int.cast_natCast]
    exact cosQuarter_near hq hquarter
  next hquarter =>
    have hreflect : Real.cos (Real.pi * f / q) = -Real.cos (Real.pi * (q - f : Nat) / q) := by
      rw [← Real.cos_pi_sub, Nat.cast_sub h]
      congr 1
      field_simp
      ring
    rw [hreflect, Int.cast_neg, Int.cast_natCast, neg_div, ← neg_sub', abs_neg]
    exact cosQuarter_near hq (by omega)

theorem cos_foldAngle {p q : Nat} (hq : 0 < q) :
    Real.cos (Real.pi * foldAngle p q / q) = Real.cos (Real.pi * p / q) := by
  have hq' : (q : ℝ) ≠ 0 := by exact_mod_cast hq.ne'
  have hturns : Real.cos (Real.pi * p / q) = Real.cos (Real.pi * (p % (2 * q) : Nat) / q) := by
    have hp : (p : ℝ) = (p % (2 * q) : Nat) + 2 * q * (p / (2 * q) : Nat) := by
      exact_mod_cast (Nat.mod_add_div p (2 * q)).symm
    rw [← Real.cos_add_nat_mul_two_pi (Real.pi * (p % (2 * q) : Nat) / q) (p / (2 * q)), hp]
    congr 1
    field_simp
  rw [hturns, foldAngle]
  split
  next => rfl
  next =>
    rw [← Real.cos_two_pi_sub, Nat.cast_sub (Nat.mod_lt p (by omega)).le]
    congr 1
    push_cast
    field_simp
    ring

/-- The fixed-point cosine is within 10^−9 of the real one. -/
theorem cosRatio_near (p : Nat) {q : Nat} (hq : 0 < q) :
    |((cosRatio p q : Rat) : ℝ) - Real.cos (Real.pi * p / q)| ≤ 1 / 10 ^ 9 := by
  rw [cosRatio, cosPi_eq, ← cos_foldAngle hq]
  push_cast
  exact cosHalf_near hq (foldAngle_le p q)

end Sys2Proof.Machine
end

section
/-! The window tables (43_window_fft.md R311 to R316, R325): every entry is the rounding of one rational in the
fixed-point cosine, and its properties are that rational's. -/

namespace Sys2Proof.Machine

/-! ### The rational an entry rounds -/

/-- The taper of ratio a/b (43_window_fft.md R316) in the fixed-point cosine. -/
def taperRatio (a b n d : Nat) : Rat :=
  if 2 * b * n < a * d then (1 + cosRatio (a * d - 2 * b * n) (a * d)) / 2
  else if 2 * b * (d - n) < a * d then (1 + cosRatio (a * d - 2 * b * (d - n)) (a * d)) / 2
  else 1

/-- w(n) of a window (43_window_fft.md R312 to R316) in the fixed-point cosine. -/
def windowRatio (win : WindowKind) (n d : Nat) : Rat :=
  match win with
  | .rectangular => 1
  | .hamming => 54 / 100 - 46 / 100 * cosRatio (2 * n) d
  | .hann => 1 / 2 - 1 / 2 * cosRatio (2 * n) d
  | .blackmanHarris =>
    35875 / 100000 - 48829 / 100000 * cosRatio (2 * n) d + 14128 / 100000 * cosRatio (4 * n) d
      - 1168 / 100000 * cosRatio (6 * n) d
  | .tukey25 => taperRatio 1 4 n d
  | .tukey75 => taperRatio 3 4 n d

theorem tukey_div (a b n d : Nat) : (tukey a b n d : Rat) / (2 * fixOne) = taperRatio a b n d := by
  have hone := fixOne_ne_zero
  unfold tukey taperRatio cosRatio
  split_ifs <;> push_cast <;> field_simp

theorem windowValue_div (win : WindowKind) (n d : Nat) :
    0 < (windowValue win n d).2 ∧
      ((windowValue win n d).1 : Rat) / ((windowValue win n d).2 : Nat) = windowRatio win n d := by
  have hone := fixOne_ne_zero
  have hpos := fixOne_pos
  cases win with
  | rectangular => exact ⟨one_pos, by simp [windowValue, windowRatio]⟩
  | hamming | hann | blackmanHarris =>
    refine ⟨by simp only [windowValue]; omega, ?_⟩
    simp only [windowValue, windowRatio, cosRatio]
    push_cast
    field_simp
  | tukey25 | tukey75 =>
    refine ⟨by simp only [windowValue]; omega, ?_⟩
    simp only [windowValue, windowRatio, ← tukey_div]
    push_cast
    rfl

theorem windowEntry_eq (win : WindowKind) (n d : Nat) : windowEntry win n d = f32OfRat (windowRatio win n d) := by
  obtain ⟨hpos, hval⟩ := windowValue_div win n d
  rw [windowEntry, f32Round_eq _ hpos, hval]
  split
  next h0 => rw [h0]; rfl
  next => rfl

/-! ### Size -/

theorem taperRatio_mem (a b n d : Nat) : 0 ≤ taperRatio a b n d ∧ taperRatio a b n d ≤ 1 := by
  have hcos (p q : Nat) : 0 ≤ (1 + cosRatio p q) / 2 ∧ (1 + cosRatio p q) / 2 ≤ 1 := by
    obtain ⟨hlow, hhigh⟩ := abs_le.mp (abs_cosRatio_le p q)
    constructor <;> linarith
  unfold taperRatio
  split_ifs
  · exact hcos _ _
  · exact hcos _ _
  · exact ⟨zero_le_one, le_rfl⟩

theorem abs_windowRatio_le (win : WindowKind) (n d : Nat) : |windowRatio win n d| ≤ 1 := by
  obtain ⟨hlow2, hhigh2⟩ := abs_le.mp (abs_cosRatio_le (2 * n) d)
  obtain ⟨hlow4, hhigh4⟩ := abs_le.mp (abs_cosRatio_le (4 * n) d)
  obtain ⟨hlow6, hhigh6⟩ := abs_le.mp (abs_cosRatio_le (6 * n) d)
  have htaper (a b : Nat) : -1 ≤ taperRatio a b n d ∧ taperRatio a b n d ≤ 1 := by
    obtain ⟨hlow, hhigh⟩ := taperRatio_mem a b n d
    exact ⟨by linarith, hhigh⟩
  rw [abs_le]
  cases win with
  | rectangular => norm_num [windowRatio]
  | hamming | hann | blackmanHarris =>
    simp only [windowRatio]
    constructor <;> linarith
  | tukey25 | tukey75 => exact htaper _ _

theorem windowEntry_near (win : WindowKind) (n d : Nat) :
    |f32ToRat (windowEntry win n d) - windowRatio win n d| ≤ 1 / 2 ^ 24 := by
  rw [windowEntry_eq]
  exact abs_f32OfRat_sub_le (abs_windowRatio_le win n d)

theorem isUnit_windowEntry (win : WindowKind) (n d : Nat) : Safety.isUnit (windowEntry win n d) := by
  have hsize := abs_windowRatio_le win n d
  rw [windowEntry_eq]
  exact ⟨f32IsFinite_f32OfRat (hsize.trans (by norm_num)),
    by simpa using abs_f32ToRat_f32OfRat_le (e := 0) (by norm_num) (by simpa using hsize)⟩

/-! ### Symmetry and ends -/

/-- The cosines of a window, at a whole number k of turns over the frame, are symmetric. -/
theorem cosRatio_symm (k : Nat) {n d : Nat} (h : n ≤ d) :
    cosRatio (2 * k * (d - n)) d = cosRatio (2 * k * n) d := by
  refine cosRatio_eq_of_dvd ⟨k, ?_⟩
  rw [← Nat.mul_add, Nat.sub_add_cancel h]
  ring

/-- The rise and the fall of a taper narrower than the frame do not meet. -/
theorem taperRatio_symm {a b n d : Nat} (hab : a < b) (h : n ≤ d) :
    taperRatio a b (d - n) d = taperRatio a b n d := by
  have hdisjoint : ¬ (2 * b * n < a * d ∧ 2 * b * (d - n) < a * d) := by
    rintro ⟨hrise, hfall⟩
    have hsum : 2 * b * n + 2 * b * (d - n) = 2 * (b * d) := by
      rw [← Nat.mul_add, Nat.add_sub_cancel' h]; ring
    have hwidth : a * d ≤ b * d := Nat.mul_le_mul_right d hab.le
    omega
  unfold taperRatio
  rw [Nat.sub_sub_self h]
  split_ifs <;> tauto

theorem windowRatio_symm (win : WindowKind) {n d : Nat} (h : n ≤ d) :
    windowRatio win (d - n) d = windowRatio win n d := by
  have hcos (k : Nat) := cosRatio_symm k h
  cases win with
  | rectangular => rfl
  | hamming | hann => simp only [windowRatio]; rw [hcos 1]
  | blackmanHarris => simp only [windowRatio]; rw [hcos 1, hcos 2, hcos 3]
  | tukey25 | tukey75 => exact taperRatio_symm (by norm_num) h

theorem windowEntry_symm (win : WindowKind) {n d : Nat} (h : n ≤ d) :
    windowEntry win (d - n) d = windowEntry win n d := by
  rw [windowEntry_eq, windowEntry_eq, windowRatio_symm win h]

theorem taperRatio_zero {a b d : Nat} (hd : 0 < a * d) : taperRatio a b 0 d = 0 := by
  rw [taperRatio, if_pos (by simpa using hd), Nat.mul_zero, Nat.sub_zero, cosRatio_self hd]
  norm_num

/-- The first entry of a table, before its rounding. -/
def windowEnd : WindowKind → Rat
  | .rectangular => 1
  | .hamming => 8 / 100
  | .blackmanHarris => 6 / 100000
  | .hann | .tukey25 | .tukey75 => 0

theorem windowRatio_zero (win : WindowKind) {d : Nat} (hd : 1 ≤ d) : windowRatio win 0 d = windowEnd win := by
  cases win with
  | rectangular => rfl
  | hamming | hann | blackmanHarris => norm_num [windowRatio, windowEnd, cosRatio_zero]
  | tukey25 | tukey75 => exact taperRatio_zero (by omega)

/-! ### The rectangular window -/

theorem f32ToRat_windowEntry_rectangular (n d : Nat) :
    f32Sign (windowEntry .rectangular n d) = false ∧ f32ToRat (windowEntry .rectangular n d) = 1 := by
  rw [windowEntry_eq, windowRatio]
  decide +kernel

theorem f32Zero_of_f32ToRat_eq_zero {x : F32} (h0 : f32ToRat x = 0) : f32Zero (f32Sign x) = x := by
  have hbits : x.toNat % 2 ^ 31 = 0 := beq_iff_eq.mp ((f32IsZero_iff x).mpr h0)
  have hself := ofSignBits_self x
  rw [hbits] at hself
  conv_rhs => rw [← hself]
  cases f32Sign x <;> rfl

theorem f32Mul_rectangular (n d : Nat) {x : F32} (hx : f32IsFinite x = true) :
    f32Mul (windowEntry .rectangular n d) x = x := by
  obtain ⟨hsign, hone⟩ := f32ToRat_windowEntry_rectangular n d
  obtain ⟨hfin, -⟩ := isUnit_windowEntry .rectangular n d
  rw [f32Mul_of_finite hfin hx, hone, one_mul, hsign, Bool.false_bne]
  split
  next h0 => exact f32Zero_of_f32ToRat_eq_zero h0
  next h0 => exact f32OfRat_f32ToRat hx h0

/-- Settles O53: an entry rounds a rational that is symmetric in n and exact at n = 0, and the rectangular entry is 1. -/
theorem windowTablesMeetTheirProperties : Obligations.WindowTablesMeetTheirProperties := by
  refine ⟨fun win d n h => windowEntry_symm win h, fun win d hd w0 hw0 => ?_, fun n d x hx => f32Mul_rectangular n d hx⟩
  have hend : windowRatio win 0 d = w0 := by
    rw [windowRatio_zero win hd, hw0]
    cases win <;> rfl
  have hlast : windowEntry win d d = windowEntry win 0 d := by
    simpa using windowEntry_symm win (Nat.zero_le d)
  have hfirst := (windowEntry_near win 0 d).trans (show (1 / 2 ^ 24 : Rat) ≤ 1 / 100000 by norm_num)
  rw [hlast, ← hend]
  exact ⟨hfirst, hfirst⟩

/-! ### The real windows -/

theorem cosRatio_near_cos {p q : Nat} (hq : 0 < q) {t : ℝ} (ht : Real.pi * p / q = t) :
    |((cosRatio p q : Rat) : ℝ) - Real.cos t| ≤ 1 / 10 ^ 9 := ht ▸ cosRatio_near p hq

/-- The rounding leaves room for the error of the fixed-point cosine. -/
theorem windowEntry_near_real {win : WindowKind} {n d : Nat} {w : ℝ}
    (h : |((windowRatio win n d : Rat) : ℝ) - w| ≤ 1 / 10 ^ 8) :
    |((f32ToRat (windowEntry win n d) : Rat) : ℝ) - w| ≤ 1 / 10 ^ 7 := by
  have hround : |((f32ToRat (windowEntry win n d) : Rat) : ℝ) - (windowRatio win n d : Rat)| ≤ 1 / 2 ^ 24 := by
    have hcast : ((|f32ToRat (windowEntry win n d) - windowRatio win n d| : Rat) : ℝ) ≤ (1 / 2 ^ 24 : Rat) :=
      Rat.cast_le.mpr (windowEntry_near win n d)
    push_cast at hcast
    exact hcast
  have htriangle := abs_sub_le ((f32ToRat (windowEntry win n d) : Rat) : ℝ) (windowRatio win n d : Rat) w
  have hsum : (1 : ℝ) / 2 ^ 24 + 1 / 10 ^ 8 ≤ 1 / 10 ^ 7 := by norm_num
  linarith

/-- The Tukey window of taper ratio `al` at u = n/D (43_window_fft.md R316). -/
noncomputable def taperReal (al u : ℝ) : ℝ :=
  if u < al / 2 then (1 + Real.cos (Real.pi * (2 * u / al - 1))) / 2
  else if 1 - al / 2 < u then (1 + Real.cos (Real.pi * (2 * u / al - 2 / al + 1))) / 2
  else 1

theorem taperRatio_near {a b n d : Nat} (ha : 0 < a) (hb : 0 < b) (hd : 0 < d) (hn : n ≤ d) :
    |((taperRatio a b n d : Rat) : ℝ) - taperReal (a / b) (n / d)| ≤ 1 / 10 ^ 8 := by
  have had : 0 < a * d := Nat.mul_pos ha hd
  have ha' : (0 : ℝ) < a := by exact_mod_cast ha
  have hb' : (0 : ℝ) < b := by exact_mod_cast hb
  have hd' : (0 : ℝ) < d := by exact_mod_cast hd
  have hrise : (n : ℝ) / d < a / b / 2 ↔ 2 * b * n < a * d := by
    rw [div_div, div_lt_div_iff₀ hd' (by positivity)]
    norm_cast
    rw [show n * (b * 2) = 2 * b * n by ring]
  have hfall : 1 - (a : ℝ) / b / 2 < n / d ↔ 2 * b * (d - n) < a * d := by
    have hsub : 1 - (n : ℝ) / d = (d - n : Nat) / d := by rw [Nat.cast_sub hn]; field_simp
    rw [sub_lt_comm, hsub, div_div, div_lt_div_iff₀ hd' (by positivity)]
    norm_cast
    rw [show (d - n) * (b * 2) = 2 * b * (d - n) by ring]
  unfold taperRatio taperReal
  simp only [hrise, hfall]
  have hcos {p : Nat} {t : ℝ} (ht : Real.pi * p / (a * d : Nat) = t) :
      |(((1 + cosRatio p (a * d)) / 2 : Rat) : ℝ) - (1 + Real.cos t) / 2| ≤ 1 / 10 ^ 8 := by
    have hnear := cosRatio_near_cos had ht
    push_cast
    rw [abs_le] at hnear ⊢
    constructor <;> linarith
  split_ifs with h1 h2
  · rw [← Real.cos_neg]
    refine hcos ?_
    rw [Nat.cast_sub h1.le]
    push_cast
    field_simp
    ring
  · refine hcos ?_
    rw [Nat.cast_sub h2.le]
    push_cast [Nat.cast_sub hn]
    field_simp
    ring
  · norm_num

/-- Settles O54: each real window is the same combination of cosines as the rational the entry rounds. -/
theorem windowEntriesApproximateTheFormulas : Obligations.WindowEntriesApproximateTheFormulas := by
  intro d n hd _ hn th u close tk
  have hcos (k : Nat) : |((cosRatio (2 * k * n) d : Rat) : ℝ) - Real.cos (k * th)| ≤ 1 / 10 ^ 9 := by
    refine cosRatio_near_cos hd ?_
    push_cast
    ring
  have h1 := abs_le.mp (hcos 1)
  have h2 := abs_le.mp (hcos 2)
  have h3 := abs_le.mp (hcos 3)
  norm_num at h1 h2 h3
  have htaper {a b : Nat} (ha : 0 < a) (hb : 0 < b) {al : ℝ} (hal : (a : ℝ) / b = al) :
      |((taperRatio a b n d : Rat) : ℝ) - tk al| ≤ 1 / 10 ^ 8 := hal ▸ taperRatio_near ha hb hd hn
  refine ⟨windowEntry_near_real ?_, windowEntry_near_real ?_, windowEntry_near_real ?_, windowEntry_near_real ?_,
    windowEntry_near_real ?_, windowEntry_near_real ?_⟩ <;> simp only [windowRatio]
  · norm_num
  · push_cast; rw [abs_le]; constructor <;> linarith
  · push_cast; rw [abs_le]; constructor <;> linarith
  · push_cast; rw [abs_le]; constructor <;> linarith
  · exact htaper one_pos (by norm_num) (by norm_num)
  · exact htaper (by norm_num) (by norm_num) (by norm_num)

end Sys2Proof.Machine
end

section
/-! The frames WINDOW gives, the bins and the magnitudes (43_window_fft.md R317, R318, R320, R321). -/

namespace Sys2Proof.Machine

open Safety

/-! ### Products and sums of finite values -/

section
variable {x y : F32} (hx : f32IsFinite x = true) (hy : f32IsFinite y = true) {e : Nat} (he : e ≤ 126)
include hx hy he

/-- A product bounded by a power of two is finite and rounds to no more than it. -/
theorem f32Mul_le_pow (hsize : |f32ToRat x * f32ToRat y| ≤ 2 ^ e) :
    f32IsFinite (f32Mul x y) = true ∧ |f32ToRat (f32Mul x y)| ≤ 2 ^ e := by
  have hpow : (2 : Rat) ^ e ≤ 2 ^ 126 := pow_le_pow_right₀ one_le_two he
  rw [f32Mul_of_finite hx hy, f32ToRat_zeroOr]
  exact ⟨f32IsFinite_zeroOr _ (hsize.trans hpow), abs_f32ToRat_f32OfRat_le he hsize⟩

/-- A sum bounded by a power of two is finite. -/
theorem f32IsFinite_f32Add (hsize : |f32ToRat x + f32ToRat y| ≤ 2 ^ e) : f32IsFinite (f32Add x y) = true := by
  have hpow : (2 : Rat) ^ e ≤ 2 ^ 126 := pow_le_pow_right₀ one_le_two he
  rw [f32Add_of_finite hx hy]
  exact f32IsFinite_zeroOr _ (hsize.trans hpow)

end

theorem f32Sign_f32Mul_self {x : F32} (hx : f32IsFinite x = true) : f32Sign (f32Mul x x) = false := by
  rw [f32Mul_of_finite hx hx]
  exact f32Sign_zeroOr (bne_self_eq_false _) (mul_self_nonneg _)

theorem f32Sign_f32Add {x y : F32} (hx : f32IsFinite x = true) (hy : f32IsFinite y = true) (hxs : f32Sign x = false)
    (hys : f32Sign y = false) : f32Sign (f32Add x y) = false := by
  rw [f32Add_of_finite hx hy]
  exact f32Sign_zeroOr (by rw [hxs, hys]; rfl) (add_nonneg (f32ToRat_nonneg hxs) (f32ToRat_nonneg hys))

/-- The root of a finite value without a sign is finite and without a sign. -/
theorem f32Sqrt_of_unsigned {x : F32} (hx : f32IsFinite x = true) (hs : f32Sign x = false) :
    f32IsFinite (f32Sqrt x) = true ∧ f32Sign (f32Sqrt x) = false := by
  obtain ⟨-, -, hsqrt⟩ := arithmeticRoundsTheExactResult
  obtain ⟨hzero, hpos⟩ := hsqrt x hx
  obtain h0 | h0 := (f32ToRat_nonneg hs).eq_or_lt'
  · rw [hzero h0]
    exact ⟨hx, hs⟩
  · obtain ⟨hfin, hsign, -⟩ := hpos h0
    exact ⟨hfin, hsign⟩

/-! ### WINDOW -/

theorem isUnit_normalize (v : S16) : isUnit (normalize v) := by
  obtain ⟨hfin, hval⟩ := normalizeIsExact v
  refine ⟨hfin, ?_⟩
  rw [hval, abs_div, abs_of_pos (show (0 : Rat) < 32768 by norm_num), div_le_one (by norm_num)]
  exact (abs_toInt_le v).trans (by norm_num)

theorem isUnit_f32Mul {x y : F32} (hx : isUnit x) (hy : isUnit y) : isUnit (f32Mul x y) := by
  obtain ⟨hxf, hx1⟩ := hx
  obtain ⟨hyf, hy1⟩ := hy
  have hsize : |f32ToRat x * f32ToRat y| ≤ 2 ^ 0 := by
    rw [abs_mul, pow_zero]
    exact mul_le_one₀ hx1 (abs_nonneg _) hy1
  simpa [isUnit] using f32Mul_le_pow hxf hyf (Nat.zero_le _) hsize

theorem isUnit_windowed (win : WindowKind) (t : Nat) (frame : List S16) :
    ∀ v ∈ windowed (windowTable win t) frame, isUnit v := by
  intro v hv
  rw [windowed, List.zipWith_map_right, windowTable, List.zipWith_map_left] at hv
  obtain ⟨i, hi, rfl⟩ := List.getElem_of_mem hv
  rw [List.getElem_zipWith]
  exact isUnit_f32Mul (isUnit_windowEntry _ _ _) (isUnit_normalize _)

/-! ### The bins -/

/-- The sum of |y[n]| that R318 scales EPS_FFT by. -/
noncomputable def frameSize (t : Nat) (y : List F32) : ℝ :=
  ∑ n ∈ Finset.range t, |((f32ToRat (y.getD n 0) : Rat) : ℝ)|

/-- A bin of R318's accuracy is within (1 + EPS_FFT) times the frame's size of zero. -/
theorem abs_bin_le {P : Config.Params} {t : Nat} {y : List F32} {k : Nat} (h : FftAccurateAt P t y k) :
    |((f32ToRat (P.rfft t y k).1 : Rat) : ℝ)| ≤ (1 + P.epsFft) * frameSize t y ∧
      |((f32ToRat (P.rfft t y k).2 : Rat) : ℝ)| ≤ (1 + P.epsFft) * frameSize t y := by
  obtain ⟨-, -, hre, him⟩ := h
  have hsum (c : Nat → ℝ) (hc : ∀ n, |c n| ≤ 1) :
      |∑ n ∈ Finset.range t, ((f32ToRat (y.getD n 0) : Rat) : ℝ) * c n| ≤ frameSize t y := by
    refine (Finset.abs_sum_le_sum_abs _ _).trans (Finset.sum_le_sum fun n _ => ?_)
    rw [abs_mul]
    exact mul_le_of_le_one_right (abs_nonneg _) (hc n)
  have hcos := hsum (fun n => Real.cos (2 * Real.pi * k * n / t)) fun n => Real.abs_cos_le_one _
  have hsin := hsum (fun n => Real.sin (2 * Real.pi * k * n / t)) fun n => Real.abs_sin_le_one _
  change _ ≤ P.epsFft * frameSize t y at hre him
  rw [one_add_mul, abs_le, abs_le]
  rw [abs_le] at hre him hcos hsin
  exact ⟨⟨by linarith, by linarith⟩, ⟨by linarith, by linarith⟩⟩

/-- An entry of a frame, or the +0 that stands beyond its end. -/
theorem forall_getD {p : F32 → Prop} {y : List F32} (h : ∀ v ∈ y, p v) (h0 : p 0) (n : Nat) : p (y.getD n 0) := by
  rw [List.getD_eq_getElem?_getD]
  cases hget : y[n]? with
  | none => exact h0
  | some v => exact h v (List.mem_of_getElem? hget)

theorem f32ToRat_bitVec_zero : f32ToRat 0 = 0 := f32ToRat_zero false

theorem frameSize_le {t : Nat} {y : List F32} (h : ∀ v ∈ y, isUnit v) : frameSize t y ≤ t := by
  have hentry (n : Nat) : |((f32ToRat (y.getD n 0) : Rat) : ℝ)| ≤ 1 := by
    have hunit : |f32ToRat (y.getD n 0)| ≤ 1 :=
      forall_getD (fun v hv => (h v hv).2) (by rw [f32ToRat_bitVec_zero]; norm_num) n
    exact_mod_cast hunit
  exact (Finset.sum_le_card_nsmul _ _ 1 fun n _ => hentry n).trans_eq (by simp)

theorem frameSize_eq_zero (t : Nat) {y : List F32} (h : y.all f32IsZero = true) : frameSize t y = 0 := by
  refine Finset.sum_eq_zero fun n _ => ?_
  have hentry : f32ToRat (y.getD n 0) = 0 :=
    forall_getD (fun v hv => (f32IsZero_iff v).mp (List.all_eq_true.mp h v hv)) f32ToRat_bitVec_zero n
  rw [hentry, Rat.cast_zero, abs_zero]

/-- Settles O59: R318 is a constraint on the parameters, and an all-zero frame has size 0. -/
theorem machineTransformIsAccurate : Obligations.MachineTransformIsAccurate := by
  refine ⟨machineParams_ok.fft, ?_⟩
  intro win lt frame k h1 hmax hlen hk y hzero
  obtain ⟨hre, him⟩ := abs_bin_le (machineParams_ok.fft win lt frame k h1 hmax hlen hk)
  rw [frameSize_eq_zero _ hzero, mul_zero, abs_nonpos_iff, Rat.cast_eq_zero] at hre him
  exact ⟨(f32IsZero_iff _).mpr hre, (f32IsZero_iff _).mpr him⟩

/-! ### MAG -/

/-- The square of a bin below 2^53 is finite, at most 2^106 and without a sign. -/
theorem f32Mul_self_of_le {x : F32} (hx : f32IsFinite x = true) (hsize : |f32ToRat x| ≤ 2 ^ 53) :
    f32IsFinite (f32Mul x x) = true ∧ |f32ToRat (f32Mul x x)| ≤ 2 ^ 106 ∧ f32Sign (f32Mul x x) = false := by
  have hsquare : |f32ToRat x * f32ToRat x| ≤ 2 ^ 106 := by
    calc |f32ToRat x * f32ToRat x| = |f32ToRat x| * |f32ToRat x| := abs_mul _ _
      _ ≤ 2 ^ 53 * 2 ^ 53 := by gcongr
      _ = 2 ^ 106 := by norm_num
  obtain ⟨hfin, hle⟩ := f32Mul_le_pow hx hx (by norm_num) hsquare
  exact ⟨hfin, hle, f32Sign_f32Mul_self hx⟩

theorem mag_of_le {z : F32 × F32} (hre : f32IsFinite z.1 = true) (him : f32IsFinite z.2 = true)
    (hre' : |f32ToRat z.1| ≤ 2 ^ 53) (him' : |f32ToRat z.2| ≤ 2 ^ 53) :
    f32IsFinite (mag z) = true ∧ f32Sign (mag z) = false := by
  obtain ⟨hfin1, hle1, hsign1⟩ := f32Mul_self_of_le hre hre'
  obtain ⟨hfin2, hle2, hsign2⟩ := f32Mul_self_of_le him him'
  have hsum : |f32ToRat (f32Mul z.1 z.1) + f32ToRat (f32Mul z.2 z.2)| ≤ 2 ^ 107 :=
    (abs_add_le _ _).trans (by linarith)
  exact f32Sqrt_of_unsigned (f32IsFinite_f32Add hfin1 hfin2 (by norm_num) hsum)
    (f32Sign_f32Add hfin1 hfin2 hsign1 hsign2)

/-- Settles O58: a bin is at most T · (1 + EPS_FFT), below 2^53, where squares, their sum and its root stay finite. -/
theorem magnitudesStayFinite : Obligations.MagnitudesStayFinite := by
  refine ⟨fun win t frame _ => isUnit_windowed win t frame, fun P lt y k hacc heps0 heps _ hlt _ hunit => ?_⟩
  have hsize : (1 + P.epsFft) * frameSize (2 ^ lt) y ≤ 2 ^ lt * (1 + P.epsFft) := by
    have hframe := frameSize_le (t := 2 ^ lt) hunit
    push_cast at hframe
    rw [mul_comm]
    gcongr
  have hbound : (2 : ℝ) ^ lt * (1 + P.epsFft) ≤ 2 ^ 53 := by
    calc (2 : ℝ) ^ lt * (1 + P.epsFft) ≤ 2 ^ 12 * (1 + 2 ^ 40) := by gcongr; norm_num
      _ ≤ 2 ^ 53 := by norm_num
  obtain ⟨hre, him⟩ := abs_bin_le hacc
  obtain ⟨hfin1, hfin2, -, -⟩ := hacc
  have hre' := hre.trans hsize
  have him' := him.trans hsize
  have hcast {q : Rat} (h : |(q : ℝ)| ≤ 2 ^ lt * (1 + P.epsFft)) : |q| ≤ 2 ^ 53 := by
    exact_mod_cast h.trans hbound
  exact ⟨hre', him', mag_of_le hfin1 hfin2 (hcast hre') (hcast him')⟩

end Sys2Proof.Machine
end

section
/-! What a transform cycle writes, word by word (43_window_fft.md R310, R317, R323, R324, 44_averager.md R351). -/

namespace Sys2Proof.Machine

/-! ### Words in the result RAM -/

theorem readWord_congr {m m' : Memory} {a : Nat} (h : ∀ i < 4, memGet m (a + i) = memGet m' (a + i)) :
    readWord m a = readWord m' a :=
  congrArg _ (readLE_congr _ _ a 4 fun i hi => by rw [ramByte, ramByte, h i hi])

theorem readWord_writeLE (m : Memory) (a : Nat) (v : F32) (hm : memWf m = true) :
    readWord (writeLE m a 4 v.toNat) a = v := by
  rw [readWord, readLE_writeLE m a 4 _ hm, Nat.mod_eq_of_lt v.isLt, BitVec.ofNat_toNat, BitVec.setWidth_eq]

/-- A word outside the words written is read as before. -/
theorem readWord_writeWords_outside (m : Memory) {a a' : Nat} {vs : List F32}
    (h : a' + 4 ≤ a ∨ a + 4 * vs.length ≤ a') : readWord (writeWords m a vs) a' = readWord m a' :=
  readWord_congr fun _ hi => memGet_writeWords_outside _ _ _ _ (by omega)

/-- Word i of a stored list is read back at its own entry. -/
theorem readWord_writeWords {m : Memory} (a : Nat) {vs : List F32} (hm : memWf m = true) {i : Nat} {v : F32}
    (hi : vs[i]? = some v) : readWord (writeWords m a vs) (a + 4 * i) = v := by
  induction vs generalizing m a i with
  | nil => cases hi
  | cons w vs ih =>
    rw [writeWords]
    cases i with
    | zero =>
      obtain rfl : w = v := by simpa using hi
      exact (readWord_writeWords_outside _ (.inl le_rfl)).trans (readWord_writeLE m a w hm)
    | succ i =>
      rw [show a + 4 * (i + 1) = a + 4 + 4 * i by omega]
      exact ih _ (memWf_writeLE m a 4 _ hm) (by simpa using hi)

/-! ### The words of a cycle -/

theorem getElem?_avgWords (ram : Memory) (cf : F32) (a : Nat) (ms : List F32) (k : Nat) :
    (avgWords ram cf a ms)[k]? = ms[k]?.map (avgStep cf (readWord ram (a + 4 * k))) := by
  induction ms generalizing a k with
  | nil => simp [avgWords]
  | cons m ms ih =>
    rw [avgWords]
    cases k with
    | zero => simp
    | succ k =>
      rw [List.getElem?_cons_succ, List.getElem?_cons_succ, ih, show a + 4 * (k + 1) = a + 4 + 4 * k by omega]

theorem windowed_eq_map_range {wt : List F32} {frame : List S16} {t : Nat} (hwt : wt.length = t)
    (hframe : frame.length = t) : windowed wt frame = (List.range t).map fun n =>
      f32Mul (wt.getD n 0) (f32Mul (f32OfInt (frame.getD n 0).toInt) 0x38000000) := by
  refine List.ext_getElem (by simp [windowed, hwt, hframe]) fun n h _ => ?_
  have hn : n < t := by simpa [windowed, hwt, hframe] using h
  simp [windowed, normalize, f32Scale15, hwt, hframe, hn]

theorem toNat_satInc (w : Word) : (satInc w).toNat = min (w.toNat + 1) (2 ^ 32 - 1) := by
  rw [satInc, BitVec.toNat_ofNat]
  omega

section
variable (P : Config.Params) {fc : FftConfig} (wt : List F32) (frame : List S16)

theorem getElem?_frameBins {k : Nat} (hk : k < fc.nb) :
    (frameBins P fc wt frame)[k]? = some (P.rfft fc.t (windowed wt frame) k) := by
  simp [frameBins, hk]

/-- How many words SPEC gets of each output kind (43_window_fft.md R323). -/
theorem specWords_length (outk : OutKind) (bins : List (F32 × F32)) :
    4 * (specWords P outk bins).length = (if outk = .complex then 8 else 4) * bins.length := by
  cases outk with
  | complex => simp [specWords]; omega
  | magnitude | phase => simp [specWords]

theorem getElem?_specWords_complex (bins : List (F32 × F32)) (k : Nat) :
    (specWords P .complex bins)[2 * k]? = bins[k]?.map Prod.fst ∧
      (specWords P .complex bins)[2 * k + 1]? = bins[k]?.map Prod.snd := by
  have h (i : Nat) (hi : i < 2) := getElem?_flatMap_of_length (f := fun z : F32 × F32 => [z.1, z.2]) (k := 2)
    (fun _ => rfl) bins k hi
  rw [Nat.mul_comm 2 k]
  constructor
  · refine (h 0 two_pos).trans ?_
    cases bins[k]? <;> rfl
  · refine (h 1 one_lt_two).trans ?_
    cases bins[k]? <;> rfl

/-- The result RAM once SPEC is written. -/
def specWritten (P : Config.Params) (fc : FftConfig) (wt : List F32) (frame : List S16) (ram : Memory) : Memory :=
  writeWords ram specBase (specWords P fc.outk (frameBins P fc wt frame))

/-- The words AVG gets once SPEC is written. -/
def avgWritten (P : Config.Params) (fc : FftConfig) (wt : List F32) (frame : List S16) (r : Results) : List F32 :=
  avgWords (specWritten P fc wt frame r.ram) (f32OfInt (satInc r.avgCount).toNat) avgBase
    ((frameBins P fc wt frame).map mag)

theorem transformCycle_ram (r : Results) : (transformCycle P fc wt frame r).ram =
    writeWords (specWritten P fc wt frame r.ram) avgBase (avgWritten P fc wt frame r) := rfl

theorem avgWritten_length (r : Results) : (avgWritten P fc wt frame r).length = fc.nb := by
  rw [avgWritten, avgWords_length, List.length_map, frameBins_length]

/-- The AVG words stay below SPEC. -/
theorem readWord_transformCycle_spec (hnb : fc.nb ≤ 2049) {r : Results} (hram : memWf r.ram = true) {i : Nat} {v : F32}
    (hv : (specWords P fc.outk (frameBins P fc wt frame))[i]? = some v) :
    readWord (transformCycle P fc wt frame r).ram (specBase + 4 * i) = v := by
  have hlen := avgWritten_length P (fc := fc) wt frame r
  rw [transformCycle_ram, readWord_writeWords_outside _ (by unfold specBase avgBase; omega)]
  exact readWord_writeWords _ hram hv

theorem readWord_transformCycle_avg (hnb : fc.nb ≤ 2049) {r : Results} (hram : memWf r.ram = true) {k : Nat}
    (hk : k < fc.nb) :
    readWord (transformCycle P fc wt frame r).ram (avgBase + 4 * k) =
      avgStep (f32OfInt (satInc r.avgCount).toNat) (readWord r.ram (avgBase + 4 * k))
        (mag (P.rfft fc.t (windowed wt frame) k)) := by
  rw [transformCycle_ram]
  refine readWord_writeWords _ (memWf_writeWords _ _ _ hram) ?_
  have hbelow : readWord (specWritten P fc wt frame r.ram) (avgBase + 4 * k) = readWord r.ram (avgBase + 4 * k) :=
    readWord_writeWords_outside _ (.inl (by unfold specBase avgBase; omega))
  rw [avgWritten, getElem?_avgWords, List.getElem?_map, getElem?_frameBins P wt frame hk, hbelow]
  rfl

/-- A cycle writes the words of AVG and SPEC and nothing else. -/
theorem ramByte_transformCycle_outside (r : Results) {a : Nat}
    (h : a < 0x4000 ∨ (0x4000 + 4 * fc.nb ≤ a ∧ a < 0x8000) ∨
      0x8000 + (if fc.outk = .complex then 8 else 4) * fc.nb ≤ a) (hnb : fc.nb ≤ 2049) :
    ramByte (transformCycle P fc wt frame r).ram a = ramByte r.ram a := by
  have havg := avgWritten_length P (fc := fc) wt frame r
  have hspec := specWords_length P fc.outk (frameBins P fc wt frame)
  rw [frameBins_length] at hspec
  rw [ramByte, ramByte, transformCycle_ram, memGet_writeWords_outside _ _ _ _ (by unfold avgBase; omega),
    specWritten, memGet_writeWords_outside _ _ _ _ (by unfold specBase; omega)]

end

/-- Settles O51: SPEC is written first and AVG after it, in regions that do not meet, and each word is read back. -/
theorem transformCycleWritesSpecAndAverage : Obligations.TransformCycleWritesSpecAndAverage := by
  intro P fc wt frame r hram hnb hwt hframe r' y M
  have hcanon : memWf r.ram = true := by
    simp only [ramWf, Bool.and_eq_true] at hram
    exact hram.1.1
  have hy : windowed wt frame = y := windowed_eq_map_range hwt hframe
  have hbin {k : Nat} (hk : k < fc.nb) : (frameBins P fc wt frame)[k]? = some (P.rfft fc.t y k) :=
    hy ▸ getElem?_frameBins P wt frame hk
  have hspec {i : Nat} {v : F32} (hv : (specWords P fc.outk (frameBins P fc wt frame))[i]? = some v) :
      readWord r'.ram (0x8000 + 4 * i) = v := readWord_transformCycle_spec P wt frame hnb hcanon hv
  refine ⟨wrapInc_eq_add_one _, toNat_satInc _, fun k hk hout => ?_, fun k hk hout => ?_, fun k hk hout => ?_,
    fun k hk => ?_, fun a ha => ramByte_transformCycle_outside P wt frame r ha hnb⟩
  · obtain ⟨hre, him⟩ := getElem?_specWords_complex P (frameBins P fc wt frame) k
    rw [hbin hk, ← hout] at hre him
    rw [show 0x8000 + 8 * k = 0x8000 + 4 * (2 * k) by omega,
      show 0x8000 + 4 * (2 * k) + 4 = 0x8000 + 4 * (2 * k + 1) by omega]
    exact ⟨hspec hre, hspec him⟩
  · exact hspec (by rw [hout, specWords, List.getElem?_map, hbin hk]; rfl)
  · exact hspec (by rw [hout, specWords, List.getElem?_map, hbin hk]; rfl)
  · have havg := readWord_transformCycle_avg P wt frame hnb hcanon hk
    rw [hy] at havg
    exact havg

end Sys2Proof.Machine
end

section
/-! The averager's arithmetic (44_averager.md R351, R352, R355): an update between a word and a magnitude that a power of
two bounds stays below it, and an update with the word itself changes nothing. -/

namespace Sys2Proof.Machine

/-! ### Roundings between values -/

section
variable {x : F32} {q : Rat} (hq : |q| ≤ 2 ^ 126)
include hq

/-- A value is no farther from q than the rounding of q, so the rounding does not pass it. -/
theorem le_f32ToRat_f32OfRat (h : f32ToRat x ≤ q) : f32ToRat x ≤ f32ToRat (f32OfRat q) := by
  have hnear := (isNearestEven_f32OfRat (f32IsFinite_f32OfRat hq) x).1
  rw [Rat.cast_id, Rat.cast_id, abs_of_nonpos (a := f32ToRat x - q) (by linarith)] at hnear
  linarith [(abs_le.mp hnear).1]

theorem f32ToRat_f32OfRat_le (h : q ≤ f32ToRat x) : f32ToRat (f32OfRat q) ≤ f32ToRat x := by
  have hnear := (isNearestEven_f32OfRat (f32IsFinite_f32OfRat hq) x).1
  rw [Rat.cast_id, Rat.cast_id, abs_of_nonneg (a := f32ToRat x - q) (by linarith)] at hnear
  linarith [(abs_le.mp hnear).2]

end

/-- Up to a power of two a rounding is off by half the spacing there. -/
theorem abs_f32OfRat_sub_le_pow {q : Rat} {e : Nat} (he : e ≤ 126) (hq : |q| ≤ 2 ^ e) :
    |f32ToRat (f32OfRat q) - q| ≤ 2 ^ e / 2 ^ 24 := by
  obtain ⟨m, h, herror⟩ := exists_isRounding (hq.trans (pow_le_pow_right₀ one_le_two he))
  have hexp : spacingExp q ≤ e + 149 - 23 := by
    refine spacingExp_le ?_
    calc |q| * 2 ^ 149 ≤ 2 ^ e * 2 ^ 149 := by gcongr
      _ = 2 ^ (e + 149) := (pow_add ..).symm
      _ < 2 ^ (e + 149 + 1) := pow_lt_pow_right₀ one_lt_two (Nat.lt_succ_self _)
  have hspacing : (2 : Rat) ^ spacingExp q ≤ 2 ^ e * 2 ^ 126 := by
    rw [← pow_add]
    exact pow_le_pow_right₀ one_le_two hexp
  have hnear := h.near
  rw [← herror] at hnear
  linarith

/-- The value of a rounding is its significand over its spacing. -/
theorem exists_significand_f32OfRat {q : Rat} (h0 : 0 ≤ q) (hq : q ≤ 2 ^ 126) : ∃ m : Nat,
    IsRounding (q * 2 ^ 149) (spacingExp q) m ∧ f32ToRat (f32OfRat q) * 2 ^ 149 = m * 2 ^ spacingExp q := by
  have h := isRounding_rneSig (K := Rat) q.num.natAbs q.den_pos
  rw [natAbs_num_div_den, abs_of_nonneg h0] at h
  refine ⟨_, h, ?_⟩
  have hfin := f32IsFinite_f32OfRat ((abs_of_nonneg h0).trans_le hq)
  have hunits := f32Units_ofSignBits (neg := decide (q < 0)) (rneBits_lt q.num.natAbs q.den)
  rw [f32OfRat_eq_ofSignBits] at hfin ⊢
  rw [rneBits_of_finite hfin, h.magOfBits_eq, decide_eq_false h0.not_gt] at hunits
  rw [rneBits_of_finite hfin, decide_eq_false h0.not_gt, f32ToRat_eq, hunits, div_mul_cancel₀ _ (by positivity)]
  push_cast
  rfl

/-- The first value above a power of two is twice 2^(e − 24) away, so what passes the power by no more than that rounds
back to it, the tie because its significand is even. -/
theorem f32ToRat_f32OfRat_le_of_overshoot {q : Rat} {e : Nat} (he : e ≤ 125) (h0 : 0 ≤ q)
    (hq : q ≤ 2 ^ e + 2 ^ e / 2 ^ 24) : f32ToRat (f32OfRat q) ≤ 2 ^ e := by
  have hpow : (2 : Rat) ^ e ≤ 2 ^ 125 := pow_le_pow_right₀ one_le_two he
  have hpos : (0 : Rat) < 2 ^ e := by positivity
  obtain ⟨m, h, hval⟩ := exists_significand_f32OfRat h0 (by linarith)
  have hexp : spacingExp q ≤ e + 149 - 23 := by
    refine spacingExp_le ?_
    rw [abs_of_nonneg h0, show (2 : Rat) ^ (e + 149 + 1) = 2 ^ e * 2 ^ 150 from pow_add 2 e 150]
    linarith
  suffices hsig : (m : Rat) * 2 ^ spacingExp q ≤ 2 ^ e * 2 ^ 149 by
    rw [← hval] at hsig
    exact le_of_mul_le_mul_right hsig (by positivity)
  obtain hlow | htop := Nat.lt_or_ge (spacingExp q) (e + 126)
  · have hm : (m : Rat) ≤ 2 ^ 24 := by exact_mod_cast h.significand
    calc (m : Rat) * 2 ^ spacingExp q ≤ 2 ^ 24 * 2 ^ (e + 125) := by
          gcongr
          · exact one_le_two
          · omega
      _ = 2 ^ e * 2 ^ 149 := by rw [pow_add]; ring
  · have hspacing : (2 : Rat) ^ spacingExp q = 2 ^ e * 2 ^ 126 := by
      rw [show spacingExp q = e + 126 by omega, pow_add]
    have hnear := (abs_le.mp h.near).2
    have htie := h.even_of_tie
    rw [hspacing] at hnear htie ⊢
    have hm : (m : Rat) ≤ 2 ^ 23 + 1 := by
      refine le_of_mul_le_mul_right ?_ (show (0 : Rat) < 2 ^ e * 2 ^ 126 by positivity)
      linarith
    obtain hm' | rfl : m ≤ 2 ^ 23 ∨ m = 2 ^ 23 + 1 := by
      have : m ≤ 2 ^ 23 + 1 := by exact_mod_cast hm
      omega
    · have hmQ : (m : Rat) ≤ 2 ^ 23 := by exact_mod_cast hm'
      calc (m : Rat) * (2 ^ e * 2 ^ 126) ≤ 2 ^ 23 * (2 ^ e * 2 ^ 126) := by gcongr
        _ = 2 ^ e * 2 ^ 149 := by ring
    · refine absurd (htie ?_) (by decide)
      push_cast at hnear ⊢
      rw [abs_of_nonneg (by linarith)]
      linarith

/-! ### The operations of an update -/

section
variable {x y : F32} (hx : f32IsFinite x = true) (hy : f32IsFinite y = true)
include hx hy

theorem f32Sub_value (hsize : |f32ToRat x - f32ToRat y| ≤ 2 ^ 126) :
    f32IsFinite (f32Sub x y) = true ∧ f32ToRat (f32Sub x y) = f32ToRat (f32OfRat (f32ToRat x - f32ToRat y)) := by
  rw [f32Sub_of_finite hx hy]
  exact ⟨f32IsFinite_zeroOr _ hsize, f32ToRat_zeroOr _ _⟩

/-- A quotient by 1 or more is no larger than what is divided. -/
theorem f32Div_value (hone : 1 ≤ f32ToRat y) (hsize : |f32ToRat x| ≤ 2 ^ 126) :
    f32IsFinite (f32Div x y) = true ∧ |f32ToRat x / f32ToRat y| ≤ 2 ^ 126 ∧
      f32ToRat (f32Div x y) = f32ToRat (f32OfRat (f32ToRat x / f32ToRat y)) := by
  have h0 : f32ToRat y ≠ 0 := by linarith
  have hquot : |f32ToRat x / f32ToRat y| ≤ 2 ^ 126 := by
    rw [abs_div, abs_of_pos (show 0 < f32ToRat y by linarith)]
    exact (div_le_self (abs_nonneg _) hone).trans hsize
  have hcond : f32ToRat x = 0 ↔ f32ToRat x / f32ToRat y = 0 := by simp [h0]
  simp only [f32Div_of_finite hx hy h0, hcond]
  exact ⟨f32IsFinite_zeroOr _ hquot, hquot, f32ToRat_zeroOr _ _⟩

end

/-- A count of at least 1 is at least 1 as a binary32. -/
theorem one_le_f32OfInt {c : Int} (hc : 1 ≤ c) (hsize : c < 2 ^ 32) :
    f32IsFinite (f32OfInt c) = true ∧ 1 ≤ f32ToRat (f32OfInt c) := by
  have hcQ : (1 : Rat) ≤ c := by exact_mod_cast hc
  have hsizeQ : (c : Rat) < 2 ^ 32 := by exact_mod_cast hsize
  have habs : |(c : Rat)| ≤ 2 ^ 126 := by
    rw [abs_of_pos (by linarith)]
    linarith
  have hone : f32ToRat 0x3F800000 = 1 := by decide +kernel
  rw [f32OfInt_eq_f32OfRat]
  refine ⟨f32IsFinite_f32OfRat habs, ?_⟩
  rw [← hone] at hcQ ⊢
  exact le_f32ToRat_f32OfRat habs hcQ

/-! ### The bounds of an update -/

section
variable {cf old m : F32} (hcf : f32IsFinite cf = true) (hone : 1 ≤ f32ToRat cf) (hold : f32IsFinite old = true)
  (holds : f32Sign old = false) (hm : f32IsFinite m = true) (hms : f32Sign m = false) {e : Nat} (he : e ≤ 125)
  (holde : f32ToRat old ≤ 2 ^ e) (hme : f32ToRat m ≤ 2 ^ e)
include hcf hone hold holds hm hms he holde hme

/-- The step of an update goes down no farther than to 0, and up past the bound by the error of the difference at
most. -/
theorem avgMove_bounds : f32IsFinite (f32Div (f32Sub m old) cf) = true ∧
    -f32ToRat old ≤ f32ToRat (f32Div (f32Sub m old) cf) ∧
    f32ToRat old + f32ToRat (f32Div (f32Sub m old) cf) ≤ 2 ^ e + 2 ^ e / 2 ^ 24 := by
  have hpow : (2 : Rat) ^ e ≤ 2 ^ 125 := pow_le_pow_right₀ one_le_two he
  have hold0 := f32ToRat_nonneg holds
  have hm0 := f32ToRat_nonneg hms
  have hdiff : |f32ToRat m - f32ToRat old| ≤ 2 ^ e := abs_le.mpr ⟨by linarith, by linarith⟩
  have hdiff' : |f32ToRat m - f32ToRat old| ≤ 2 ^ 126 := by linarith
  have herror := (abs_le.mp (abs_f32OfRat_sub_le_pow (by omega) hdiff)).2
  have hzero := f32ToRat_bitVec_zero
  obtain ⟨hsubfin, hsub⟩ := f32Sub_value hm hold hdiff'
  have hsubsize : |f32ToRat (f32Sub m old)| ≤ 2 ^ 126 :=
    (hsub ▸ abs_f32ToRat_f32OfRat_le (by omega) hdiff).trans (by linarith)
  obtain ⟨hdivfin, hquot, hdiv⟩ := f32Div_value hsubfin hcf hone hsubsize
  have hcf0 : 0 < f32ToRat cf := by linarith
  rw [← hsub] at herror
  refine ⟨hdivfin, ?_⟩
  rw [hdiv]
  obtain hup | hdown := le_total (f32ToRat old) (f32ToRat m)
  · have hsub0 : f32ToRat 0 ≤ f32ToRat (f32Sub m old) := hsub ▸ le_f32ToRat_f32OfRat hdiff' (by linarith)
    have hmove0 := le_f32ToRat_f32OfRat (x := 0) hquot (hzero.trans_le (div_nonneg (hzero ▸ hsub0) hcf0.le))
    have hmove := f32ToRat_f32OfRat_le hquot (div_le_self (hzero ▸ hsub0) hone)
    exact ⟨by linarith, by linarith⟩
  · have hsub0 : f32ToRat (f32Sub m old) ≤ f32ToRat 0 := hsub ▸ f32ToRat_f32OfRat_le hdiff' (by linarith)
    have hsubold : f32ToRat (f32Neg old) ≤ f32ToRat (f32Sub m old) :=
      hsub ▸ le_f32ToRat_f32OfRat hdiff' (by rw [f32ToRat_f32Neg]; linarith)
    rw [hzero] at hsub0
    have hge : f32ToRat (f32Sub m old) ≤ f32ToRat (f32Sub m old) / f32ToRat cf := by
      rw [le_div_iff₀ hcf0]
      nlinarith
    have hmove0 := f32ToRat_f32OfRat_le (x := 0) hquot (hzero ▸ div_nonpos_of_nonpos_of_nonneg hsub0 hcf0.le)
    have hmove := le_f32ToRat_f32OfRat hquot (hsubold.trans hge)
    rw [f32ToRat_f32Neg] at hmove
    exact ⟨hmove, by linarith [show (0 : Rat) < 2 ^ e by positivity]⟩

/-- R352: an update of a word with a magnitude stays finite, without a sign, and below a power of two that bounds
both. -/
theorem avgStep_bounds : f32IsFinite (avgStep cf old m) = true ∧ f32Sign (avgStep cf old m) = false ∧
    f32ToRat (avgStep cf old m) ≤ 2 ^ e := by
  obtain ⟨hfin, hlow, hhigh⟩ := avgMove_bounds hcf hone hold holds hm hms he holde hme
  have hpow : (2 : Rat) ^ e ≤ 2 ^ 125 := pow_le_pow_right₀ one_le_two he
  have hsum0 : 0 ≤ f32ToRat old + f32ToRat (f32Div (f32Sub m old) cf) := by linarith
  rw [avgStep, f32Add_of_finite hold hfin]
  refine ⟨f32IsFinite_zeroOr _ ?_, f32Sign_zeroOr (by rw [holds, Bool.false_and]) hsum0, ?_⟩
  · rw [abs_of_nonneg hsum0]
    linarith
  · rw [f32ToRat_zeroOr]
    exact f32ToRat_f32OfRat_le_of_overshoot he hsum0 hhigh

end

/-! ### A constant spectrum -/

/-- The value of a word without a sign, rounded with a +0, is the word. -/
theorem zeroOr_f32ToRat {x : F32} (hx : f32IsFinite x = true) (hs : f32Sign x = false) :
    (if f32ToRat x = 0 then f32Zero false else f32OfRat (f32ToRat x)) = x := by
  split
  next h0 => exact hs ▸ f32Zero_of_f32ToRat_eq_zero h0
  next h0 => exact f32OfRat_f32ToRat hx h0

section
variable {m : F32} (hm : f32IsFinite m = true) (hms : f32Sign m = false)
include hm hms

/-- R351: the first update after a reset gives the magnitude. -/
theorem avgStep_first : avgStep (f32OfInt 1) 0 m = m := by
  have hzero : f32IsFinite 0 = true := rfl
  have hone : f32ToRat (f32OfInt 1) = 1 := by decide +kernel
  have hsub : f32Sub m 0 = m := by
    rw [f32Sub_of_finite hm hzero, f32ToRat_bitVec_zero, sub_zero, hms, Bool.false_and]
    exact zeroOr_f32ToRat hm hms
  have hdiv : f32Div m (f32OfInt 1) = m := by
    rw [f32Div_of_finite hm rfl (by rw [hone]; exact one_ne_zero), hone, div_one, hms]
    exact zeroOr_f32ToRat hm hms
  rw [avgStep, hsub, hdiv, f32Add_of_finite hzero hm, f32ToRat_bitVec_zero, zero_add, hms, Bool.and_false]
  exact zeroOr_f32ToRat hm hms

/-- R351: an update with the word itself leaves it unchanged. -/
theorem avgStep_self {cf : F32} (hcf : f32IsFinite cf = true) (hpos : 0 < f32ToRat cf) : avgStep cf m m = m := by
  have hsub : f32Sub m m = 0 := by
    rw [f32Sub_of_finite hm hm, if_pos (sub_self _), hms]
    rfl
  have hdiv : f32Div 0 cf = 0 := by
    rw [f32Div_of_finite rfl hcf hpos.ne', if_pos f32ToRat_bitVec_zero, f32Sign_of_pos hpos]
    rfl
  rw [avgStep, hsub, hdiv, f32Add_of_finite hm rfl, f32ToRat_bitVec_zero, add_zero, hms, Bool.false_and]
  exact zeroOr_f32ToRat hm hms

end

/-- Settles O52, by induction on the number of updates: the first gives the magnitude, and the others keep it. -/
theorem constantSpectrumAveragesToItself : Obligations.ConstantSpectrumAveragesToItself := by
  intro m n hm hms hn
  simp only [bind_pure_comp, List.map_eq_map, List.foldl_map]
  induction n, hn using Nat.le_induction with
  | base => exact fun _ => avgStep_first hm hms
  | succ n hn ih =>
    intro hlt
    obtain ⟨hcf, hone⟩ := one_le_f32OfInt (c := (n : Int) + 1) (by omega) (by omega)
    rw [List.range_succ, List.foldl_append, ih (by omega)]
    exact avgStep_self hm hms hcf (by linarith)

end Sys2Proof.Machine
end

section
/-! Every step keeps the averages finite, without a sign and bounded (44_averager.md R350, R352, R353; 43_window_fft.md
R321). -/

namespace Sys2Proof.Machine

open Safety

/-! ### Words that stay in the bound -/

/-- A finite word without a sign, below a power of two that is at most the bound (R352). -/
def AvgWordFits (bound : ℝ) (w : F32) : Prop :=
  f32IsFinite w = true ∧ f32Sign w = false ∧ ∃ e : Nat, ((f32ToRat w : Rat) : ℝ) ≤ 2 ^ e ∧ (2 : ℝ) ^ e ≤ bound

/-- The bound of R352 with room for the rounding. -/
noncomputable def avgBound (P : Config.Params) (fc : FftConfig) : ℝ := 4 * fc.t * (1 + P.epsFft)

theorem avgWordFits_zero {bound : ℝ} (h : 1 ≤ bound) : AvgWordFits bound 0 :=
  ⟨rfl, rfl, 0, by rw [f32ToRat_bitVec_zero]; norm_num, by rwa [pow_zero]⟩

/-- The larger of the two powers of two bounds the update. -/
theorem AvgWordFits.avgStep {bound : ℝ} (hbound : bound ≤ 2 ^ 125) {cf old m : F32} (hcf : f32IsFinite cf = true)
    (hone : 1 ≤ f32ToRat cf) (hold : AvgWordFits bound old) (hm : AvgWordFits bound m) :
    AvgWordFits bound (avgStep cf old m) := by
  obtain ⟨oldFin, oldSign, d, oldLe, hd⟩ := hold
  obtain ⟨mFin, mSign, e, mLe, he⟩ := hm
  have hmax : (2 : ℝ) ^ max d e ≤ bound := by
    obtain h | h := max_choice d e <;> rwa [h]
  have hexp : max d e ≤ 125 := (pow_le_pow_iff_right₀ (one_lt_two (α := ℝ))).mp (hmax.trans hbound)
  have le_max {w : F32} {k : Nat} (h : ((f32ToRat w : Rat) : ℝ) ≤ 2 ^ k) (hk : k ≤ max d e) :
      f32ToRat w ≤ 2 ^ max d e := by
    exact_mod_cast h.trans (pow_le_pow_right₀ one_le_two hk)
  obtain ⟨hfin, hsign, hle⟩ := avgStep_bounds hcf hone oldFin oldSign mFin mSign hexp
    (le_max oldLe (le_max_left d e)) (le_max mLe (le_max_right d e))
  exact ⟨hfin, hsign, max d e, by exact_mod_cast hle, hmax⟩

/-! ### The magnitudes of a frame -/

/-- The root of a value up to 4^e is at most 2^e, which is a value and so is not passed. -/
theorem f32Sqrt_le_pow {x : F32} {e : Nat} (he : e ≤ 125) (hx : f32IsFinite x = true) (hs : f32Sign x = false)
    (hle : f32ToRat x ≤ 2 ^ (2 * e)) : f32ToRat (f32Sqrt x) ≤ 2 ^ e := by
  obtain ⟨-, -, hsqrt⟩ := arithmeticRoundsTheExactResult
  obtain ⟨hzero, hpos⟩ := hsqrt x hx
  obtain h0 | h0 := (f32ToRat_nonneg hs).eq_or_lt'
  · rw [hzero h0, h0]
    positivity
  · obtain ⟨-, -, hnear⟩ := hpos h0
    have hpow : |(2 : Rat) ^ e| ≤ 2 ^ 126 := by
      rw [abs_of_pos (by positivity)]
      exact pow_le_pow_right₀ one_le_two (by omega)
    have hval : f32ToRat (f32OfRat (2 ^ e)) = 2 ^ e :=
      f32ToRat_f32OfRat (c := 1) (e := e + 149) (by decide) hpow (by rw [pow_add]; push_cast; ring)
    have hroot : Real.sqrt ((f32ToRat x : Rat) : ℝ) ≤ 2 ^ e := by
      rw [Real.sqrt_le_left (by positivity), ← pow_mul, Nat.mul_comm]
      exact_mod_cast hle
    have hclose := (hnear _ (f32IsFinite_f32OfRat hpow)).1
    rw [hval, Rat.cast_pow, Rat.cast_ofNat, abs_of_nonneg (sub_nonneg.mpr hroot)] at hclose
    have hreal : ((f32ToRat (f32Sqrt x) : Rat) : ℝ) ≤ 2 ^ e := by linarith [(abs_le.mp hclose).2]
    exact_mod_cast hreal

/-- Two parts up to 2^e have a magnitude up to 2^(e + 1). -/
theorem mag_le_pow {z : F32 × F32} {e : Nat} (he : e ≤ 54) (hre : f32IsFinite z.1 = true)
    (him : f32IsFinite z.2 = true) (hre' : |f32ToRat z.1| ≤ 2 ^ e) (him' : |f32ToRat z.2| ≤ 2 ^ e) :
    f32ToRat (mag z) ≤ 2 ^ (e + 1) := by
  have square {x : F32} (hx : f32IsFinite x = true) (h : |f32ToRat x| ≤ 2 ^ e) :
      f32IsFinite (f32Mul x x) = true ∧ |f32ToRat (f32Mul x x)| ≤ 2 ^ (2 * e) := by
    refine f32Mul_le_pow hx hx (by omega) ?_
    rw [abs_mul, two_mul, pow_add]
    gcongr
  obtain ⟨hfin1, hle1⟩ := square hre hre'
  obtain ⟨hfin2, hle2⟩ := square him him'
  have hsum : |f32ToRat (f32Mul z.1 z.1) + f32ToRat (f32Mul z.2 z.2)| ≤ 2 ^ (2 * e + 1) := by
    refine (abs_add_le _ _).trans ?_
    rw [pow_succ]
    linarith
  have haddle : |f32ToRat (f32Add (f32Mul z.1 z.1) (f32Mul z.2 z.2))| ≤ 2 ^ (2 * e + 1) := by
    rw [f32Add_of_finite hfin1 hfin2, f32ToRat_zeroOr]
    exact abs_f32ToRat_f32OfRat_le (by omega) hsum
  refine f32Sqrt_le_pow (by omega) (f32IsFinite_f32Add hfin1 hfin2 (by omega) hsum)
    (f32Sign_f32Add hfin1 hfin2 (f32Sign_f32Mul_self hre) (f32Sign_f32Mul_self him)) ?_
  calc _ ≤ _ := (abs_le.mp haddle).2
    _ ≤ (2 : Rat) ^ (2 * (e + 1)) := pow_le_pow_right₀ one_le_two (by omega)

/-- The lengths CFG_FFT latches (45_host_commands.md R373). -/
theorem fftConfigOf_lengths {P : Config.Params} {w ov : Word} {fc : FftConfig} (h : fftConfigOf P w ov = .ok fc) :
    1 ≤ fc.lt ∧ fc.lt ≤ P.log2tMax ∧ fc.t = 2 ^ fc.lt ∧ fc.nb = fc.t / 2 + 1 := by
  unfold fftConfigOf at h
  dsimp only at h
  split at h
  · cases h
  · next hlt =>
    split at h
    · cases h
    · split at h
      · cases h
      · split_ifs at h
        cases h
        obtain ⟨hlow, hhigh⟩ := not_or.1 hlt
        exact ⟨not_lt.1 hlow, not_lt.1 hhigh, rfl, rfl⟩

section
variable {P : Config.Params} (hP : ParamsOk P) {w ov : Word} {fc : FftConfig} (legal : fftConfigOf P w ov = .ok fc)
include hP legal

theorem one_le_avgBound : 1 ≤ avgBound P fc := by
  obtain ⟨-, -, ht, -⟩ := fftConfigOf_lengths legal
  have ht1 : (1 : ℝ) ≤ fc.t := by exact_mod_cast (ht ▸ Nat.one_le_two_pow : 1 ≤ fc.t)
  have heps := hP.epsFft
  unfold avgBound
  nlinarith

variable (heps : P.epsFft ≤ 2 ^ 40)
include heps

theorem avgBound_le : avgBound P fc ≤ 2 ^ 55 := by
  obtain ⟨-, hmax, ht, -⟩ := fftConfigOf_lengths legal
  have hnat : fc.t ≤ 2 ^ 12 := ht ▸ Nat.pow_le_pow_right two_pos (hmax.trans hP.log2tMax.2)
  have htR : (fc.t : ℝ) ≤ 2 ^ 12 := by exact_mod_cast hnat
  have heps0 := hP.epsFft
  calc avgBound P fc ≤ 4 * 2 ^ 12 * (1 + 2 ^ 40) := by unfold avgBound; gcongr
    _ ≤ 2 ^ 55 := by norm_num

/-- A power of two between T · (1 + EPS_FFT) and twice that. -/
theorem exists_pow_of_binBound : ∃ n ≤ 54, (2 : ℝ) ^ fc.lt * (1 + P.epsFft) ≤ 2 ^ n ∧ 2 ^ (n + 1) ≤ avgBound P fc := by
  obtain ⟨-, -, ht, -⟩ := fftConfigOf_lengths legal
  have hsize : 1 ≤ (2 : ℝ) ^ fc.lt * (1 + P.epsFft) :=
    one_le_mul_of_one_le_of_one_le (one_le_pow₀ one_le_two) (by linarith [hP.epsFft])
  obtain ⟨n, hlow, hhigh⟩ := exists_nat_pow_near hsize (one_lt_two (α := ℝ))
  have hbound : avgBound P fc = 4 * (2 ^ fc.lt * (1 + P.epsFft)) := by
    rw [avgBound, ht]
    push_cast
    ring
  have hpow : (2 : ℝ) ^ (n + 1 + 1) ≤ avgBound P fc := by
    rw [hbound, pow_succ, pow_succ]
    linarith
  have hexp : n + 1 + 1 ≤ 55 :=
    (pow_le_pow_iff_right₀ (one_lt_two (α := ℝ))).mp (hpow.trans (avgBound_le hP legal heps))
  exact ⟨n + 1, by omega, hhigh.le, hpow⟩

/-- R320, R321: the parts of a bin are at most T · (1 + EPS_FFT), so its magnitude is in the bound. -/
theorem avgWordFits_mag {frame : List S16} (hframe : frame.length = fc.t) {k : Nat} (hk : k < fc.nb) :
    AvgWordFits (avgBound P fc) (mag (P.rfft fc.t (windowed (windowTable fc.win fc.t) frame) k)) := by
  obtain ⟨hlt, hmax, ht, hnb⟩ := fftConfigOf_lengths legal
  obtain ⟨frameUnit, binsFinite⟩ := magnitudesStayFinite
  obtain ⟨n, hn, hpart, hpow⟩ := exists_pow_of_binBound hP legal heps
  rw [hnb, ht] at hk
  rw [ht] at hframe ⊢
  have hacc := hP.fft fc.win fc.lt frame k hlt hmax hframe (Nat.lt_succ_iff.1 hk)
  have hlen : (windowed (windowTable fc.win (2 ^ fc.lt)) frame).length = 2 ^ fc.lt := by
    simp [windowed, windowTable, hframe]
  have hunit := frameUnit fc.win (2 ^ fc.lt) frame (Nat.pow_le_pow_right two_pos hlt)
  obtain ⟨hre, him, hfin, hsign⟩ := binsFinite P fc.lt _ k hacc hP.epsFft heps hlt
    (hmax.trans hP.log2tMax.2) hlen hunit
  obtain ⟨reFin, imFin, -, -⟩ := hacc
  have part {q : Rat} (h : |(q : ℝ)| ≤ 2 ^ fc.lt * (1 + P.epsFft)) : |q| ≤ 2 ^ n := by
    exact_mod_cast h.trans hpart
  have hle := mag_le_pow hn reFin imFin (part hre) (part him)
  exact ⟨hfin, hsign, n + 1, by exact_mod_cast hle, hpow⟩

end

/-! ### The words of AVG -/

/-- AVG word k. -/
def avgWord (m : Memory) (k : Nat) : F32 := readWord m (avgBase + 4 * k)

/-- AVG word k may be w: in the bound if it is a bin's, else +0 (R350, R352, R353). -/
def AvgWordOk (P : Config.Params) (f : Option FftConfig) (k : Nat) (w : F32) : Prop :=
  match f with
  | none => w = 0
  | some fc => if k < fc.nb then AvgWordFits (avgBound P fc) w else w = 0

theorem avgWordOk_bin (P : Config.Params) {fc : FftConfig} {k : Nat} (hk : k < fc.nb) (w : F32) :
    AvgWordOk P (some fc) k w ↔ AvgWordFits (avgBound P fc) w := by
  simp only [AvgWordOk, if_pos hk]

theorem avgWordOk_zero {P : Config.Params} {f : Option FftConfig} (bound : ∀ fc, f = some fc → 1 ≤ avgBound P fc)
    (k : Nat) : AvgWordOk P f k 0 := by
  cases f with
  | none => rfl
  | some fc =>
    dsimp only [AvgWordOk]
    split_ifs
    · exact avgWordFits_zero (bound fc rfl)
    · rfl

/-- Every AVG word of the results is one it may be. -/
def AvgFits (P : Config.Params) (f : Option FftConfig) (r : Results) : Prop :=
  ∀ k < 4096, AvgWordOk P f k (avgWord r.ram k)

theorem avgOk_iff (P : Config.Params) (s : State) : AvgOk P s ↔ ofResults (AvgFits P s.fc) s := Iff.rfl

theorem AvgFits.congr {P : Config.Params} {f : Option FftConfig} {r r' : Results} (h : AvgFits P f r)
    (same : ∀ k < 4096, avgWord r'.ram k = avgWord r.ram k) : AvgFits P f r' :=
  fun k hk => same k hk ▸ h k hk

/-- AVG at +0 is in every bound. -/
theorem AvgFits.of_zero {P : Config.Params} {f : Option FftConfig} (bound : ∀ fc, f = some fc → 1 ≤ avgBound P fc)
    {r : Results} (zero : ∀ k < 4096, avgWord r.ram k = 0) : AvgFits P f r :=
  fun k hk => zero k hk ▸ avgWordOk_zero bound k

theorem avgWord_nil (k : Nat) : avgWord [] k = 0 := readWord_nil (Nat.le_add_right _ _)

/-- A range that holds AVG is cleared. -/
theorem avgWord_memClear_inside (m : Memory) {hi k : Nat} (hhi : specBase ≤ hi) (hk : k < 4096) :
    avgWord (memClear m avgBase hi) k = 0 := by
  rw [← avgWord_nil k]
  refine readWord_congr fun i hi' => ?_
  rw [memGet_memClear, if_pos]
  · rfl
  · unfold avgBase
    unfold specBase at hhi
    omega

/-- A range below AVG is cleared. -/
theorem avgWord_memClear_below (m : Memory) {lo hi : Nat} (hhi : hi ≤ avgBase) (k : Nat) :
    avgWord (memClear m lo hi) k = avgWord m k := by
  refine readWord_congr fun i _ => ?_
  rw [memGet_memClear, if_neg (by omega)]

/-- A cycle leaves the words above its bins alone. -/
theorem avgWord_transformCycle_beyond (P : Config.Params) {fc : FftConfig} (wt : List F32) (frame : List S16)
    (hnb : fc.nb ≤ 2049) (r : Results) {k : Nat} (above : fc.nb ≤ k) (hk : k < 4096) :
    avgWord (transformCycle P fc wt frame r).ram k = avgWord r.ram k := by
  refine congrArg _ (readLE_congr _ _ _ 4 fun i hi => ?_)
  refine ramByte_transformCycle_outside P wt frame r ?_ hnb
  unfold avgBase
  omega

/-! ### AVG under a chunk -/

section
variable {P : Config.Params} (hP : ParamsOk P) (heps : P.epsFft ≤ 2 ^ 40) {w ov : Word} {fc : FftConfig}
  (legal : fftConfigOf P w ov = .ok fc)
include hP heps legal

/-- A cycle updates the word of each bin with its magnitude and leaves the others. -/
theorem AvgFits.transformCycle {frame : List S16} (hframe : frame.length = fc.t) {r : Results}
    (hram : memWf r.ram = true) (h : AvgFits P (some fc) r) :
    AvgFits P (some fc) (transformCycle P fc (windowTable fc.win fc.t) frame r) := by
  have hnb := fftConfigOf_nb_le hP legal
  intro k hk
  have hword := h k hk
  by_cases hbin : k < fc.nb
  · rw [avgWordOk_bin P hbin] at hword ⊢
    have hcount := toNat_satInc r.avgCount
    obtain ⟨hcf, hone⟩ := one_le_f32OfInt (c := (satInc r.avgCount).toNat) (by omega) (by omega)
    rw [avgWord, readWord_transformCycle_avg P _ _ hnb hram hbin]
    exact hword.avgStep ((avgBound_le hP legal heps).trans (by norm_num)) hcf hone
      (avgWordFits_mag hP legal heps hframe hbin)
  · rwa [avgWord_transformCycle_beyond P _ _ hnb r (not_lt.1 hbin) hk]

theorem AvgFits.feedOne {r : Results} (hframe : FrameFits (some fc) r) (hram : memWf r.ram = true)
    (h : AvgFits P (some fc) r) (q : S16) : AvgFits P (some fc) (feedOne P fc (windowTable fc.win fc.t) r q) := by
  obtain ⟨hfb, -⟩ := hframe
  rcases feedOne_cases P fc (windowTable fc.win fc.t) r q with ⟨-, hq⟩ | ⟨-, hq⟩ <;> rw [hq]
  · have hlen : ((r.fb.set r.fill q).take fc.t).length = fc.t := by simp [hfb]
    exact AvgFits.transformCycle hP heps legal (r := { r with fb := r.fb.set r.fill q }) hlen hram h
  · exact h

theorem AvgFits.feed (qs : List S16) {r : Results} (hframe : FrameFits (some fc) r) (hram : ramWf r.ram = true)
    (h : AvgFits P (some fc) r) : AvgFits P (some fc) (feed P fc (windowTable fc.win fc.t) qs r) := by
  obtain ⟨-, -, hfed⟩ := feed_induction P fc (windowTable fc.win fc.t)
    (p := fun r => FrameFits (some fc) r ∧ ramWf r.ram = true ∧ AvgFits P (some fc) r)
    (fun r q ⟨hframe, hram, h⟩ => ⟨hframe.feed _ (fftConfigOf_rret_lt legal) [q],
      ramWf_feed P _ (fftConfigOf_nb_le hP legal) [q] r hram,
      h.feedOne hP heps legal hframe ((ramWf_iff _).1 hram).1 q⟩) qs r ⟨hframe, hram, h⟩
  exact hfed

theorem AvgFits.processChunk {dc : DecConfig} (hsamples : dc.cout * dc.nfin ≤ 2048) (bs : List Byte) (gdb : Int)
    {r : Results} (hframe : FrameFits (some fc) r) (hram : ramWf r.ram = true) (h : AvgFits P (some fc) r) :
    AvgFits P (some fc) (processChunk P dc fc (windowTable fc.win fc.t) bs gdb r) :=
  (h.feed hP heps legal _ hframe hram).congr fun _ _ =>
    (sameSpectra_processChunk P hsamples fc _ bs gdb ((ramWf_iff _).1 hram).1).readWord_eq (Nat.le_add_right _ _)

end

/-! ### The invariant -/

theorem ResultsKept.and {P : Config.Params} {p p' : Option DecConfig → Option FftConfig → Results → Prop} {s : State}
    (h : ResultsKept P p s) (h' : ResultsKept P p' s) : ResultsKept P (fun d f r => p d f r ∧ p' d f r) s where
  reset := ⟨h.reset, h'.reset⟩
  latchDec dc legal := And.imp (h.latchDec dc legal) (h'.latchDec dc legal)
  latchFft fc legal := And.imp (h.latchFft fc legal) (h'.latchFft fc legal)
  avgClear := And.imp h.avgClear h'.avgClear
  chunk dc fc bs hdc hfc := And.imp (h.chunk dc fc bs hdc hfc) (h'.chunk dc fc bs hdc hfc)

/-- Legal configurations, a frame buffer in bounds and a canonical result RAM: what keeps the averages bounded. -/
def AvgPremises (P : Config.Params) (s : State) : Prop :=
  ConfigOk P s ∧ ofResults (fun r => FrameFits s.fc r ∧ ramWf r.ram = true) s

theorem avgPremises_invariant {P : Config.Params} (hP : ParamsOk P) : DatapathInvariant P (AvgPremises P) :=
  (configOk_invariant P).and_ofResults fun _ hs => (frameFits_kept hs).and (ramWf_kept hP hs)

theorem avgFits_kept {P : Config.Params} (hP : ParamsOk P) (heps : P.epsFft ≤ 2 ^ 40) {s : State}
    (hs : AvgPremises P s) : ResultsKept P (fun _ f => AvgFits P f) s where
  reset := .of_zero (fun _ hf => by cases hf) fun k _ => avgWord_nil k
  latchDec _ _ h := h.congr fun k _ => avgWord_memClear_below _ (by decide) k
  latchFft fc legal _ := .of_zero (fun _ hf => by cases hf; exact one_le_avgBound hP legal)
    fun _ hk => avgWord_memClear_inside _ (by decide) hk
  avgClear _ := .of_zero
    (fun fc hf => by
      obtain ⟨_, _, legal⟩ := hs.1.fc fc hf
      exact one_le_avgBound hP legal)
    fun _ hk => avgWord_memClear_inside _ le_rfl hk
  chunk dc fc bs hdc hfc h := by
    obtain ⟨config, ⟨hframe, hram⟩, -⟩ := hs
    obtain ⟨_, legalDec⟩ := config.dc dc hdc
    obtain ⟨_, _, legal⟩ := config.fc fc hfc
    have hwt : s.wt = windowTable fc.win fc.t := by rw [config.wt, hfc]; rfl
    rw [hwt]
    exact h.processChunk hP heps legal (decConfigOf_samples_le legalDec) bs _ (hfc ▸ hframe) hram

/-- Settles O40: an update stays below a power of two that bounds the old word and the magnitude, and a reset of the
averager or a new FFT configuration sets AVG to +0. -/
theorem stepKeepsAveragesFinite : Obligations.StepKeepsAveragesFinite := by
  intro P s t hP heps config memory frame avg hn
  have premises : AvgPremises P s :=
    ⟨config, ⟨frame.1, memory.ram.1⟩, fun f hf => ⟨frame.2 f hf, memory.ram.2 f hf⟩⟩
  have invariant := (avgPremises_invariant hP).and_ofResults fun _ => avgFits_kept hP heps
  exact (invariant.stepAt ⟨premises, (avgOk_iff P s).1 avg⟩ hn).2

end Sys2Proof.Machine
end

section
/-! Every step keeps the reserved bits of the read-write registers 0 and ERRCODE a listed code, and a write to a
read-write register stores its writable bits (45_host_commands.md R392, 60_exceptions.md R501). -/

namespace Sys2Proof.Machine

open Safety Rules

/-! ### The registers under one operation -/

theorem errValue_le (code : ErrCode) : (errValue code).toNat ≤ 12 := by
  cases code <;> decide

/-- ERRCODE and the four registers with reserved bits; every other field is at its reset value. -/
def State.hostRegisters (s : State) : State :=
  { State.reset with
    errcode := s.errcode, decCfg := s.decCfg, gain := s.gain, fftCfg := s.fftCfg, overlap := s.overlap }

theorem registersOk_hostRegisters (s : State) : RegistersOk s.hostRegisters ↔ RegistersOk s :=
  ⟨fun ⟨dec, gain, fft, ovl, code⟩ => ⟨dec, gain, fft, ovl, code⟩,
    fun ⟨dec, gain, fft, ovl, code⟩ => ⟨dec, gain, fft, ovl, code⟩⟩

theorem registersOk_reset : RegistersOk State.reset := ⟨rfl, rfl, rfl, rfl, Nat.zero_le _⟩

section
variable {P : Config.Params} {s t : State}

theorem registersOk_congr (hs : RegistersOk s) (h : t.hostRegisters = s.hostRegisters) : RegistersOk t := by
  rwa [← registersOk_hostRegisters, h, registersOk_hostRegisters]

/-- However a command ends, ERRCODE is a listed code. -/
theorem endCmd_registersOk (hs : RegistersOk s) (h : t.hostRegisters = s.hostRegisters) (code : ErrCode) :
    RegistersOk (t.endCmd code) :=
  { registersOk_congr hs h with errcode := errValue_le code }

theorem and_mask_and_mask (v m : Word) : v &&& m &&& m = v &&& m := by
  rw [BitVec.and_assoc, BitVec.and_self]

theorem ctrlWrite_registersOk (hs : RegistersOk s) (v : Word) (r : CtrlReg) : RegistersOk (ctrlWrite s v r) := by
  cases r with
  | decCfg => exact { hs with decCfg := and_mask_and_mask v decCfgMask }
  | gain => exact { hs with gain := and_mask_and_mask v gainMask }
  | fftCfg => exact { hs with fftCfg := and_mask_and_mask v fftCfgMask }
  | overlap => exact { hs with overlap := and_mask_and_mask v overlapMask }
  | fsHz | id | status | errcode | cmd | chunkCount | frameCount | avgCount | halfBytes | pcmCount | nbins | params
  | reserved => exact registersOk_congr hs rfl

theorem accept_hostRegisters {h : BufHalf} (ha : accept P h s = some t) : t.hostRegisters = s.hostRegisters := by
  obtain ⟨dc, fc, -, -, rfl⟩ := (accept_eq_some_iff P h s t).1 ha
  rfl

theorem commit_hostRegisters (s : State) : (commit s).hostRegisters = s.hostRegisters := by
  rcases commit_cases s with ⟨-, h⟩ | ⟨f, -, h⟩ <;> rw [h]
  rfl

theorem captureWrite_hostRegisters (off : BitVec 13) (b : Byte) (s : State) :
    (captureWrite off b s).hostRegisters = s.hostRegisters := by
  unfold captureWrite
  split <;> rfl

theorem busReadAt_hostRegisters (P : Config.Params) (a n : Nat) (s : State) :
    (busReadAt P a n s).hostRegisters = s.hostRegisters := by
  obtain ⟨resp, draws, h⟩ := busReadAt_frame P a n s
  rw [h]
  rfl

/-! ### Commands, transactions and events -/

theorem whenIdle_registersOk (hs : RegistersOk s) {k : State → State} (hk : RegistersOk (k s)) :
    RegistersOk (whenIdle s k) := by
  rcases whenIdle_cases s k with ⟨-, h⟩ | ⟨-, h⟩ <;> rw [h]
  · exact endCmd_registersOk hs rfl .state
  · exact hk

theorem hostEventAt_registersOk (hs : RegistersOk s) {h : BufHalf} (hn : hostEventAt P h s = .next t) :
    RegistersOk t := by
  rcases hostEventAt_cases hn with rfl | ⟨-, -, u, hu, rfl⟩
  · exact endCmd_registersOk hs rfl .state
  · exact endCmd_registersOk hs (accept_hostRegisters hu) .ok

theorem portEventAt_registersOk (hs : RegistersOk s) {h : BufHalf} (hn : portEventAt P h s = .next t) :
    RegistersOk t := by
  rcases portEventAt_cases hn with ⟨-, rfl⟩ | ⟨-, -, hu⟩ | ⟨-, -, rfl⟩
  · exact registersOk_congr hs rfl
  · exact registersOk_congr hs (accept_hostRegisters hu)
  · exact hs

theorem runCmdOpAt_registersOk (hs : RegistersOk s) {op : CmdOp} (hn : runCmdOpAt P op s = .next t) :
    RegistersOk t := by
  cases op with
  | nop => cases hn; exact endCmd_registersOk hs rfl .ok
  | cfgDec =>
    cases hn
    rcases cfgDecAt_cases P s with ⟨e, h⟩ | ⟨-, -, dc, -, h⟩ <;> rw [h]
    · exact endCmd_registersOk hs rfl e
    · exact endCmd_registersOk hs (by rfl) .ok
  | cfgFft =>
    cases hn
    rcases cfgFftAt_cases P s with ⟨e, h⟩ | ⟨-, -, fc, -, h⟩ <;> rw [h]
    · exact endCmd_registersOk hs rfl e
    · exact endCmd_registersOk hs (by rfl) .ok
  | avgReset | stop => cases hn; exact whenIdle_registersOk hs (endCmd_registersOk hs (by rfl) .ok)
  | start =>
    cases hn
    refine whenIdle_registersOk hs ?_
    split
    · exact endCmd_registersOk hs (by rfl) .ok
    · exact endCmd_registersOk hs rfl _
  | evtHalf | evtFull => exact hostEventAt_registersOk hs hn
  | softReset => cases hn; exact endCmd_registersOk registersOk_reset (by rfl) .ok

theorem busWriteAt_registersOk (hs : RegistersOk s) {a n : Nat} {v : Word} (hn : busWriteAt P a n v s = .next t) :
    RegistersOk t := by
  rcases busWriteAt_cases hn with rfl | ⟨-, -, -, hc⟩ | ⟨-, -, -, rfl⟩ | ⟨-, -, -, rfl⟩ | ⟨-, -, -, rfl⟩ | ⟨-, rfl⟩
  · exact registersOk_congr hs rfl
  · rcases onCmdAt_cases P v s with ⟨op, -, h⟩ | ⟨e, -, h⟩ <;> rw [h] at hc
    · exact runCmdOpAt_registersOk hs hc
    · cases hc; exact endCmd_registersOk hs rfl .badCommand
  · exact registersOk_congr (ctrlWrite_registersOk hs v _) rfl
  · exact registersOk_congr hs rfl
  · exact registersOk_congr hs rfl
  · exact registersOk_congr hs rfl

theorem execAt_registersOk (hs : RegistersOk s) {i : Instr} (hn : execAt P i s = .next t) : RegistersOk t := by
  cases i with
  | half | full => exact portEventAt_registersOk hs hn
  | rd8 | rd16 | rd32 => cases hn; exact registersOk_congr hs (busReadAt_hostRegisters ..)
  | wr8 | wr16 | wr32 => exact busWriteAt_registersOk hs hn
  | nop | cfgDec | cfgFft | avgReset | start | stop | evtHalf | evtFull | softReset =>
    dsimp only [execAt] at hn
    exact runCmdOpAt_registersOk hs hn

theorem runRejected_registersOk (hs : RegistersOk s) (r : Reject) : RegistersOk (runRejected r s) := by
  cases r with
  | reservedOp | mbzNotZero => exact endCmd_registersOk hs rfl .badCommand
  | noEvent | reservedEvent => exact hs
  | reservedSize | notAWord => exact registersOk_congr hs rfl

theorem runInputWith_registersOk (hs : RegistersOk s) {i : Input} (hn : runInputWith (execAt P) i s = .next t) :
    RegistersOk t := by
  rcases runInputWith_cases hn with ⟨off, b, -, rfl⟩ | ⟨-, rfl⟩ | ⟨ins, -, hx⟩ | ⟨r, -, rfl⟩
  · exact registersOk_congr hs (captureWrite_hostRegisters off b s)
  · exact registersOk_congr hs (commit_hostRegisters s)
  · exact execAt_registersOk hs hx
  · exact runRejected_registersOk hs r

theorem stepAt_registersOk (hs : RegistersOk s) (hn : stepAt P s = .next t) : RegistersOk t := by
  obtain ⟨-, ⟨-, rfl⟩ | ⟨i, rest, -, hx⟩⟩ := nextStepWith_cases hn
  · exact registersOk_congr hs (commit_hostRegisters s)
  · exact runInputWith_registersOk (s := { s with inputs := rest }) (registersOk_congr hs rfl) hx

end

/-! ### Writes to a read-write register -/

/-- A 32-bit write to a register other than CMD stores what the register takes, and gets an OK response. -/
theorem wr32_control (s : State) {a : Offset} (v : Word) (h : a.toNat < 0x1000) (aligned : a.toNat % 4 = 0)
    (notCmd : ctrlRegAt a.toNat ≠ .cmd) :
    exec (.wr32 a v) s = .next ((ctrlWrite s v (ctrlRegAt a.toNat)).respond false 0) := by
  have write : exec (.wr32 a v) s = busWriteAt machineParams a.toNat 4 v s := rfl
  simp only [write, busWriteAt, accessOk_control h aligned, regionOf_control h, notCmd, Bool.true_eq_false, if_false]

/-- Settles O22: the write goes to the register, whose next read is one of a register that no chunk changes. -/
theorem registerWritesStoreTheWritableBits : Obligations.RegisterWritesStoreTheWritableBits := by
  intro s v a m t hmem
  have written (b : Offset) : b.toNat < 0x1000 ∧ b.toNat % 4 = 0 ∧ ctrlRegAt b.toNat ≠ .cmd →
      okNext (exec (.wr32 b v) s) (ctrlWrite s v (ctrlRegAt b.toNat)) :=
    fun ⟨inside, aligned, notCmd⟩ => ⟨0, wr32_control s v inside aligned notCmd⟩
  have readBack (b : Offset) (u : State) : b.toNat < 0x1000 ∧ b.toNat % 4 = 0 ∧ isResultWord b.toNat = false →
      exec (.rd32 b) u = .next (u.respond false (ctrlRead machineParams u u.live (ctrlRegAt b.toNat))) :=
    fun ⟨inside, aligned, live⟩ => rd32_control u inside aligned (.inl live)
  simp only [List.mem_cons, Prod.mk.injEq, List.not_mem_nil, or_false] at hmem
  obtain ⟨rfl, rfl, rfl⟩ | ⟨rfl, rfl, rfl⟩ | ⟨rfl, rfl, rfl⟩ | ⟨rfl, rfl, rfl⟩ | ⟨rfl, rfl, rfl⟩ := hmem
  · exact ⟨written 0x010 (by decide), readBack 0x010 _ (by decide)⟩
  · exact ⟨written 0x014 (by decide), readBack 0x014 _ (by decide)⟩
  · exact ⟨written 0x018 (by decide), readBack 0x018 _ (by decide)⟩
  · exact ⟨written 0x01C (by decide), readBack 0x01C _ (by decide)⟩
  · have whole : v &&& 0xFFFFFFFF = v := BitVec.and_allOnes
    rw [whole]
    exact ⟨written 0x020 (by decide), readBack 0x020 _ (by decide)⟩

/-! ### The settled invariant -/

/-- Settles O33: commands write only listed codes to ERRCODE, and register writes go through the masks. -/
theorem stepKeepsReservedBitsZero : Obligations.StepKeepsReservedBitsZero :=
  fun s _ hs hn => stepAt_registersOk hs (step_eq_stepAt s ▸ hn)

end Sys2Proof.Machine
end

section
/-! The host commands that latch no configuration, and reserved CMD words (45_host_commands.md R374 to R381). -/

namespace Sys2Proof.Machine

open Rules

/-! ### The BUSY gate -/

theorem whenIdle_busy {s : State} (busy : s.inflight ≠ none) (k : State → State) :
    whenIdle s k = s.endCmd .state :=
  if_pos ((busy_eq_true_iff s).2 (Option.ne_none_iff_exists'.1 busy))

theorem whenIdle_idle {s : State} (idle : s.inflight = none) (k : State → State) : whenIdle s k = k s :=
  if_neg (by simp [(busy_eq_false_iff s).2 idle])

/-! ### NOP and SOFT_RESET -/

/-- Settles O1: NOP is the end of a command, without a gate. -/
theorem nopWritesErrcodeZeroOnly : Obligations.NopWritesErrcodeZeroOnly :=
  fun s => ⟨0, (rfl : exec .nop s = .next (s.endCmd .ok))⟩

/-- Settles O9: ERRCODE and the response are what a command's end gives, every other field what `softReset` leaves. -/
theorem softResetKeepsOnlyPdmBuf : Obligations.SoftResetKeepsOnlyPdmBuf :=
  fun s => ⟨0, (rfl : exec .softReset s = .next ((softReset s).endCmd .ok))⟩

/-! ### Reserved CMD words -/

/-- A word that is no opcode is rejected for its upper bits or for its opcode (30_encoding.md R133). -/
theorem decodeCmdOp_reserved {w : Word} (h : w.toNat / 2 ^ 8 ≠ 0 ∨ 9 ≤ w.toNat % 2 ^ 8) :
    decodeCmdOp w = .error .mbzNotZero ∨ decodeCmdOp w = .error .reservedOp := by
  by_cases upper : w.toNat / 2 ^ 8 ≠ 0
  · exact .inl (if_pos upper)
  · right
    have opcode : 9 ≤ w.toNat := by have := h.resolve_left upper; omega
    rw [decodeCmdOp, if_neg upper]
    split
    case h_10 => rfl
    all_goals omega

/-- Settles O2: the decoder rejects the word, and the CMD register and the CMD interface both run BAD_COMMAND. -/
theorem reservedCommandWordIsBadCommand : Obligations.ReservedCommandWordIsBadCommand := by
  intro s w rest reserved
  have onBus : exec (.wr32 0x00C w) s = onCmdAt machineParams w s := rfl
  have asStep (hf : s.fault = .none) (hi : s.inputs = .cmd w :: rest) :
      step s = runDecoded exec ((decodeCmdOp w).map CmdOp.toInstr) { s with inputs := rest } :=
    step_of_input hf hi
  rcases decodeCmdOp_reserved reserved with rejected | rejected
  all_goals
    rw [onBus, onCmdAt, rejected]
    exact ⟨⟨0, rfl⟩, fun hf hi => ⟨0, by rw [asStep hf hi, rejected]; rfl⟩⟩

/-! ### AVG_RESET, START and STOP -/

theorem State.byteAt_resultRam (s : State) {a : Nat} (h : ¬(0x2000 ≤ a ∧ a < 0x4000)) :
    s.byteAt a = ramByte s.live.ram a :=
  ramByteAt_resultRam s s.live h

/-- The bytes after a clear of a range of the result RAM that lies outside PDM_BUF. -/
theorem byteAt_memClear {s t : State} {lo hi : Nat} (hpdm : t.pdm = s.pdm)
    (hram : t.live.ram = memClear s.live.ram lo hi) (outside : hi ≤ 0x2000 ∨ 0x4000 ≤ lo) (a : Nat) :
    t.byteAt a = if lo ≤ a ∧ a < hi then 0 else s.byteAt a := by
  by_cases inPdm : 0x2000 ≤ a ∧ a < 0x4000
  · rw [t.byteAt_pdmBuf inPdm.1 inPdm.2, s.byteAt_pdmBuf inPdm.1 inPdm.2, hpdm, if_neg (by omega)]
  · have notPdm : regionOf a ≠ .pdmBuf := mt (regionOf_eq_pdmBuf_iff a).1 inPdm
    rw [t.byteAt_resultRam inPdm, s.byteAt_resultRam inPdm, hram, ramByte, memGet_memClear]
    split
    · rw [unlisted, if_neg notPdm]; rfl
    · rfl

/-- Settles O5: past the gate the averager is cleared, and the range cleared is AVG. -/
theorem avgResetEmptiesTheAverager : Obligations.AvgResetEmptiesTheAverager := by
  intro s
  have gated : exec .avgReset s = .next (whenIdle s fun s => State.endCmd { s with live := avgClear s.live } .ok) := rfl
  rw [gated]
  refine ⟨fun busy => ⟨0, ?_⟩, fun idle => ⟨(avgClear s.live).ram, ⟨0, ?_⟩, ?_⟩⟩
  · rw [whenIdle_busy busy]; rfl
  · rw [whenIdle_idle idle]; rfl
  · exact byteAt_memClear rfl (avgClear_ram s.live) (.inr le_rfl)

/-- START past the gate, by the code its check answers (45_host_commands.md R375). -/
theorem exec_start_idle {s : State} (idle : s.inflight = none) :
    exec .start s = .next (if startCheck s = .ok then State.endCmd { s with running := true } .ok
      else s.endCmd (startCheck s)) :=
  congrArg Host.Outcome.next (whenIdle_idle idle _)

theorem startCheck_running {s : State} (runs : s.running = true) : startCheck s = .state := if_pos runs

theorem startCheck_unconfigured {s : State} (stopped : s.running = false) (absent : s.dc = none ∨ s.fc = none) :
    startCheck s = .notConfigured := by
  rcases absent with hdc | hfc
  · simp [startCheck, stopped, hdc]
  · cases hdc : s.dc <;> simp [startCheck, stopped, hdc, hfc]

theorem startCheck_configured {s : State} {dc : DecConfig} {fc : FftConfig} (stopped : s.running = false)
    (hdc : s.dc = some dc) (hfc : s.fc = some fc) :
    startCheck s = if dc.cout ≤ fc.chsel then .invalidChannelSelect else .ok := by
  simp [startCheck, stopped, hdc, hfc]

/-- Settles O6: the gate and the check give the codes in order, and a check that passes sets RUNNING. -/
theorem startChecksThenRuns : Obligations.StartChecksThenRuns := by
  intro s
  refine ⟨fun refused => ?_, fun idle stopped absent => ?_, fun dc fc idle stopped hdc hfc beyond => ?_,
    fun dc fc idle stopped hdc hfc selected => ?_⟩
  · by_cases idle : s.inflight = none
    · have runs := refused.resolve_left (not_not_intro idle)
      rw [exec_start_idle idle, startCheck_running runs]
      exact ⟨0, rfl⟩
    · exact ⟨0, congrArg Host.Outcome.next (whenIdle_busy idle _)⟩
  · rw [exec_start_idle idle, startCheck_unconfigured stopped absent]
    exact ⟨0, rfl⟩
  · rw [exec_start_idle idle, startCheck_configured stopped hdc hfc, if_pos beyond]
    exact ⟨0, rfl⟩
  · rw [exec_start_idle idle, startCheck_configured stopped hdc hfc, if_neg (not_le.2 selected)]
    exact ⟨0, rfl⟩

/-- Settles O7: STOP is one gated update. -/
theorem stopClearsRunning : Obligations.StopClearsRunning :=
  fun _ => ⟨fun idle => ⟨0, congrArg Host.Outcome.next (whenIdle_idle idle _)⟩,
    fun busy => ⟨0, congrArg Host.Outcome.next (whenIdle_busy busy _)⟩⟩

/-! ### Host-injected events -/

theorem hostEventAt_refused (P : Config.Params) (h : BufHalf) {s : State}
    (refused : s.inflight ≠ none ∨ s.running = false) : hostEventAt P h s = .next (s.endCmd .state) := by
  refine if_pos ?_
  rcases refused with busy | stopped
  · rw [(busy_eq_true_iff s).2 (Option.ne_none_iff_exists'.1 busy), Bool.true_or]
  · rw [stopped, Bool.not_false, Bool.or_true]

theorem hostEventAt_accepts {P : Config.Params} {h : BufHalf} {s t : State} (idle : s.inflight = none)
    (runs : s.running = true) (ha : accept P h s = some t) : hostEventAt P h s = .next (t.endCmd .ok) := by
  simp [hostEventAt, (busy_eq_false_iff s).2 idle, runs, ha]

theorem exec_hostEvent (h : BufHalf) (s : State) :
    exec (if h = .A then .evtHalf else .evtFull) s = hostEventAt machineParams h s := by
  cases h <;> rfl

/-- Settles O8: the two branches of a host event, the accepted one with the bytes of its region. -/
theorem hostEventsAcceptTheirRegion : Obligations.HostEventsAcceptTheirRegion := by
  intro s h
  dsimp only
  rw [exec_hostEvent]
  refine ⟨fun refused => ⟨0, hostEventAt_refused _ h refused⟩, fun dc fc idle runs hdc hfc fits => ?_⟩
  have taken := hostEventAt_accepts idle runs (accept_eq_accepted h hdc hfc fits)
  exact ⟨0, taken⟩

end Sys2Proof.Machine
end

section
/-! CFG_DEC and CFG_FFT: the checks in order, and what a configuration that passes them latches (45_host_commands.md
R370 to R373). -/

namespace Sys2Proof.Machine

open Rules

/-! ### The gate of the configuration commands -/

section
variable {s : State}

/-- Both configuration commands are refused while a chunk is in flight and while RUNNING = 1 (45_host_commands.md
R370, R372, R373). -/
theorem whenIdle_refused (refused : s.inflight ≠ none ∨ s.running = true) (k : State → State) :
    whenIdle s (fun s => if s.running then s.endCmd .state else k s) = s.endCmd .state := by
  by_cases idle : s.inflight = none
  · rw [whenIdle_idle idle, if_pos (refused.resolve_left (not_not_intro idle))]
  · exact whenIdle_busy idle _

theorem whenIdle_stopped (allowed : ¬(s.inflight ≠ none ∨ s.running = true)) (k : State → State) :
    whenIdle s (fun s => if s.running then s.endCmd .state else k s) = k s := by
  obtain ⟨idle, stopped⟩ := not_or.1 allowed
  rw [whenIdle_idle (not_not.1 idle), if_neg stopped]

end

/-! ### The checks of CFG_DEC -/

theorem decodeRatio_eq_none {code : Nat} (h : 7 < code) : decodeRatio code = none := by
  unfold decodeRatio
  split
  case h_9 => rfl
  all_goals omega

/-- The ratio table by its code, of which the last is the cascade (30_encoding.md R137). -/
theorem decodeRatio_eq_getD : ∀ {code : Nat}, code ≤ 7 → decodeRatio code =
    let r := [16, 24, 32, 48, 64, 80, 128, 160].getD code 0
    some (r, if code = 7 then 80 else r, decide (code = 7)) := by
  decide

/-- CFG_DEC's checks past the ratio, those of the chunk size taken together (45_host_commands.md R372). -/
theorem decConfigOf_of_ratio (P : Config.Params) {w : Word} {r rp : Nat} {casc : Bool}
    (ratio : decodeRatio (field w 0 4) = some (r, rp, casc)) : decConfigOf P w =
    let cin := field w 4 4
    let cout := field w 8 4
    let nout := field w 16 12
    let hb := cin * rp * nout / 8
    let nfin := if casc then nout / 2 else nout
    if cin < 1 ∨ P.cMax < cin ∨ cout < 1 ∨ cin < cout then .error .invalidChannels
    else if casc = true ∧ P.hbPresent = false then .error .resourceExhausted
    else if nout = 0 ∨ (casc = true ∧ nout % 2 = 1) ∨ 4096 < hb ∨ 2048 < cout * nfin ∨
      (bitAt w 13 = true ∧ hb % 2 = 1) then .error .invalidChunk
    else .ok { code := field w 0 4, r, rp, casc, cin, cout, bord := bitAt w 12, endn := bitAt w 13, nout, nfin,
               hbytes := hb } := by
  simp only [decConfigOf, ratio, ite_or]

/-! ### CFG_DEC -/

section
variable {P : Config.Params} {s : State}

theorem cfgDecAt_error (allowed : ¬(s.inflight ≠ none ∨ s.running = true)) {e : ErrCode}
    (checked : decConfigOf P s.decCfg = .error e) : cfgDecAt P s = s.endCmd e := by
  rw [cfgDecAt, whenIdle_stopped allowed, checked]

theorem cfgDecAt_latches (allowed : ¬(s.inflight ≠ none ∨ s.running = true)) {dc : DecConfig}
    (checked : decConfigOf P s.decCfg = .ok dc) : cfgDecAt P s = (latchDec P dc s).endCmd .ok := by
  rw [cfgDecAt, whenIdle_stopped allowed, checked]

/-- CFG_DEC does at any parameters what 45_host_commands.md R372 says: each check of the rule is the next one of
`decConfigOf`. -/
theorem cfgDecAt_meets_cfgDec (P : Config.Params) (s : State) : cfgDec P s (cfgDecAt P s) := by
  unfold cfgDec
  extract_lets code cin cout nout r rp hb nfin
  split
  · next refused => exact ⟨0, whenIdle_refused refused _⟩
  next allowed =>
  split
  · next unknown =>
    have checked : decConfigOf P s.decCfg = .error .unsupportedRatio := by
      rw [decConfigOf, decodeRatio_eq_none unknown]
    exact ⟨0, cfgDecAt_error allowed checked⟩
  next known =>
  have checked := decConfigOf_of_ratio P (decodeRatio_eq_getD (not_lt.1 known))
  simp only [decide_eq_true_eq] at checked
  split
  · next channels => exact ⟨0, cfgDecAt_error allowed (checked.trans (if_pos channels))⟩
  next channels =>
  rw [if_neg channels] at checked
  split
  · next resource => exact ⟨0, cfgDecAt_error allowed (checked.trans (if_pos resource))⟩
  next resource =>
  rw [if_neg resource] at checked
  split
  · next chunk => exact ⟨0, cfgDecAt_error allowed (checked.trans (if_pos chunk))⟩
  next chunk =>
  rw [cfgDecAt_latches allowed (checked.trans (if_neg chunk))]
  refine ⟨rfl, ⟨List.length_replicate, fun m hm => ?_⟩, byteAt_memClear rfl rfl (.inl le_rfl), ⟨0, rfl⟩, rfl⟩
  rw [List.eq_of_mem_replicate hm]
  refine ⟨rfl, rfl, rfl, ?_⟩
  simp only [zeroChan, decide_eq_true_eq]
  rfl

end

/-- Settles O3: `exec` runs CFG_DEC at the machine's parameters. -/
theorem cfgDecChecksThenLatches : Obligations.CfgDecChecksThenLatches :=
  ⟨fun s => ⟨_, rfl, cfgDecAt_meets_cfgDec machineParams s⟩, cfgDecAt_meets_cfgDec⟩

/-! ### The checks of CFG_FFT -/

theorem decodeWindow_eq_none {code : Nat} (h : 5 < code) : decodeWindow code = none := by
  unfold decodeWindow
  split
  case h_7 => rfl
  all_goals omega

theorem decodeWindow_eq_getD : ∀ {code : Nat}, code ≤ 5 → decodeWindow code =
    some ([.rectangular, .hamming, .hann, .blackmanHarris, .tukey25, .tukey75].getD code .rectangular) := by
  decide

theorem decodeOutKind_eq_none {code : Nat} (h : 2 < code) : decodeOutKind code = none := by
  unfold decodeOutKind
  split
  case h_4 => rfl
  all_goals omega

theorem decodeOutKind_eq_getD : ∀ {code : Nat}, code ≤ 2 → decodeOutKind code =
    some ([.complex, .magnitude, .phase].getD code .complex) := by
  decide

theorem field_low_half (w : Word) : field w 0 16 = w.toNat % 65536 :=
  congrArg (· % 65536) (Nat.div_one w.toNat)

/-- CFG_FFT's last check, once the length and both codes are good (45_host_commands.md R373). -/
theorem fftConfigOf_of_codes (P : Config.Params) {w : Word} (ov : Word) {win : WindowKind} {outk : OutKind}
    (window : decodeWindow (field w 4 3) = some win) (kind : decodeOutKind (field w 8 2) = some outk)
    (length : ¬(field w 0 4 < 1 ∨ P.log2tMax < field w 0 4)) : fftConfigOf P w ov =
    let lt := field w 0 4
    let rret := retained (field ov 0 16) (2 ^ lt)
    if 2 ^ lt ≤ rret then .error .invalidOverlap
    else .ok { lt, t := 2 ^ lt, nb := 2 ^ lt / 2 + 1, win, outk, chsel := field w 10 4, ovl := field ov 0 16,
               rret } := by
  simp only [fftConfigOf, length, window, kind, if_false]

/-! ### CFG_FFT -/

section
variable {P : Config.Params} {s : State}

theorem cfgFftAt_error (allowed : ¬(s.inflight ≠ none ∨ s.running = true)) {e : ErrCode}
    (checked : fftConfigOf P s.fftCfg s.overlap = .error e) : cfgFftAt P s = s.endCmd e := by
  rw [cfgFftAt, whenIdle_stopped allowed, checked]

theorem cfgFftAt_latches (allowed : ¬(s.inflight ≠ none ∨ s.running = true)) {fc : FftConfig}
    (checked : fftConfigOf P s.fftCfg s.overlap = .ok fc) : cfgFftAt P s = (latchFft fc s).endCmd .ok := by
  rw [cfgFftAt, whenIdle_stopped allowed, checked]

/-- CFG_FFT does at any parameters what 45_host_commands.md R373 says: each check of the rule is the next one of
`fftConfigOf`. -/
theorem cfgFftAt_meets_cfgFft (P : Config.Params) (s : State) : cfgFft P s (cfgFftAt P s) := by
  unfold cfgFft
  extract_lets lt wcode kcode T ovl rret win
  split
  · next refused => exact ⟨0, whenIdle_refused refused _⟩
  next allowed =>
  split
  · next length => exact ⟨0, cfgFftAt_error allowed (if_pos length)⟩
  next length =>
  split
  · next window =>
    have checked : fftConfigOf P s.fftCfg s.overlap = .error .invalidWindow := by
      rw [fftConfigOf, if_neg length, decodeWindow_eq_none window]
    exact ⟨0, cfgFftAt_error allowed checked⟩
  next window =>
  have hwin := decodeWindow_eq_getD (not_lt.1 window)
  split
  · next kind =>
    have checked : fftConfigOf P s.fftCfg s.overlap = .error .invalidOutputKind := by
      rw [fftConfigOf, if_neg length, hwin, decodeOutKind_eq_none kind]
    exact ⟨0, cfgFftAt_error allowed checked⟩
  next kind =>
  have checked := fftConfigOf_of_codes P s.overlap hwin (decodeOutKind_eq_getD (not_lt.1 kind)) length
  rw [field_low_half] at checked
  split
  · next overlap => exact ⟨0, cfgFftAt_error allowed (checked.trans (if_pos overlap))⟩
  next overlap =>
  rw [cfgFftAt_latches allowed (checked.trans (if_neg overlap))]
  exact ⟨rfl, rfl, rfl, byteAt_memClear rfl rfl (.inr le_rfl), ⟨0, rfl⟩, rfl⟩

end

/-- Settles O4: `exec` runs CFG_FFT at the machine's parameters. -/
theorem cfgFftChecksThenLatches : Obligations.CfgFftChecksThenLatches :=
  ⟨fun s => ⟨_, rfl, cfgFftAt_meets_cfgFft machineParams s⟩, cfgFftAt_meets_cfgFft⟩

end Sys2Proof.Machine
end

section
/-! Reads of RAM, and the bytes a host or capture write stores in PDM_BUF (45_host_commands.md R390, R391,
20_memory.md R92, 41_bitstream_handoff.md R250, R258). -/

namespace Sys2Proof.Machine

open Rules

/-! ### Reads of RAM -/

/-- A permitted read that no chunk in flight can change answers from the live results. -/
theorem busReadAt_live (P : Config.Params) {a n : Nat} {s : State} (hok : accessOk a n = true)
    (live : s.inflight = none ∨ isResultWord a = false) :
    busReadAt P a n s = s.respond false (readData P s s.live a n) := by
  rcases busReadAt_cases P a n s with ⟨refused, -⟩ | ⟨-, result, hread⟩ | ⟨-, -, hread⟩
  · rw [hok] at refused
    cases refused
  · have idle : s.inflight = none := live.resolve_right (by simp [result])
    rw [hread]
    simp only [drawResults, idle]
  · exact hread

theorem isResultWord_pdmBuf {a : Nat} (h : 0x2000 ≤ a ∧ a < 0x4000) : isResultWord a = false := by
  simp only [isResultWord, (regionOf_eq_pdmBuf_iff a).2 h]

/-- Settles O18: the read is permitted, answers from the live results, and its value is the sum of its bytes. -/
theorem ramReadsAnswerTheirBytes : Obligations.RamReadsAnswerTheirBytes := by
  intro s a n i hi lo aligned hperm live
  have hok := (accessOk_iff (width_of_mem_reads hi)).2 ⟨aligned, hperm⟩
  rw [exec_of_mem_reads hi, busReadAt_live _ hok (live.imp_right isResultWord_pdmBuf), readData_ram _ _ _ lo]
  rfl

/-! ### The bytes a write stores in PDM_BUF -/

/-- No byte of PDM_BUF has a value of its own while it is unlisted, so a stored byte is read back from any list. -/
theorem memGet_writeLE_pdmBuf (m : Memory) {a n : Nat} (v : Nat) (lo : 0x2000 ≤ a) (hi : a + n ≤ 0x4000) {i : Nat}
    (h : i < n) : memGet (writeLE m a n v) (a + i) = some (BitVec.ofNat 8 (v / 2 ^ (8 * i))) := by
  induction n generalizing m a v i with
  | zero => omega
  | succ n ih =>
    simp only [writeLE]
    cases i with
    | zero =>
      have listed : unlisted a ≠ some (BitVec.ofNat 8 v) := by
        simp [unlisted, (regionOf_eq_pdmBuf_iff a).2 ⟨lo, by omega⟩]
      rw [memGet_writeLE_outside _ _ _ _ _ (by omega), Nat.add_zero, memGet_memPut_listed m listed, Nat.mul_zero,
        pow_zero, Nat.div_one]
    | succ i =>
      rw [show a + (i + 1) = a + 1 + i by omega, ih _ _ (by omega) (by omega) (by omega), Nat.div_div_eq_div_mul,
        ← pow_add, show 8 + 8 * i = 8 * (i + 1) by omega]

/-- The bytes after a store inside PDM_BUF (20_memory.md R92). -/
theorem byteAt_of_pdm_writeLE {s t : State} {a n v : Nat} (hpdm : t.pdm = writeLE s.pdm a n v) (hlive : t.live = s.live)
    (lo : 0x2000 ≤ a) (hi : a + n ≤ 0x4000) (b : Nat) :
    t.byteAt b = if a ≤ b ∧ b < a + n then BitVec.ofNat 8 (v / 2 ^ (8 * (b - a))) else s.byteAt b := by
  by_cases inPdm : 0x2000 ≤ b ∧ b < 0x4000
  · rw [t.byteAt_pdmBuf inPdm.1 inPdm.2, s.byteAt_pdmBuf inPdm.1 inPdm.2, hpdm]
    split
    · next covered =>
      have stored := memGet_writeLE_pdmBuf s.pdm v lo hi (show b - a < n by omega)
      rw [Nat.add_sub_cancel' covered.1] at stored
      rw [pdmByte, stored, Option.getD_some]
    · rw [pdmByte, pdmByte, memGet_writeLE_outside _ _ _ _ _ (by omega)]
  · rw [t.byteAt_resultRam inPdm, s.byteAt_resultRam inPdm, hlive, if_neg (by omega)]

/-! ### Writes outside the region in flight -/

/-- Ranges that overlap as the machine compares them share a byte, the first one of the range that starts later. -/
theorem hitsInFlight_eq_false {s : State} {j n : Nat} (hn : 0 < n) (h : ¬meetsInFlight s j n) :
    hitsInFlight s j n = false := by
  refine Bool.eq_false_iff.2 fun hits => h ?_
  unfold hitsInFlight at hits
  split at hits
  · next f dc hf hdc =>
    obtain ⟨before, after⟩ := of_decide_eq_true hits
    exact ⟨f, dc, max j (halfBase dc f.breg), hf, hdc, le_max_left _ _, by omega,
      (inRegion_iff dc f.breg _).2 ⟨le_max_right _ _, by
        cases hb : f.breg <;> simp only [hb, halfBase] at before ⊢ <;> omega⟩⟩
  · cases hits

theorem busWriteAt_stores (P : Config.Params) {a n : Nat} (v : Word) {s : State} (hok : accessOk a n = true)
    (hr : regionOf a = .pdmBuf) (clear : hitsInFlight s (a - pdmBase) n = false) :
    busWriteAt P a n v s = .next ((s.storePdm (a - pdmBase) n v.toNat).respond false 0) := by
  simp only [busWriteAt, hok, hr, clear, Bool.true_eq_false, if_false, Bool.false_eq_true]

theorem captureWrite_stores {off : BitVec 13} (b : Byte) {s : State} (clear : hitsInFlight s off.toNat 1 = false) :
    captureWrite off b s = s.storePdm off.toNat 1 b.toNat := by
  simp [captureWrite, clear]

/-- Settles O24: a write that shares no byte with the region in flight is stored, and PDM_BUF reads back what was
stored. -/
theorem pdmWritesStoreTheirBytes : Obligations.PdmWritesStoreTheirBytes := by
  refine ⟨fun s a v n i hi lo hlt aligned clear => ?_, fun s off b rest hfault hinputs clear => ?_⟩
  · have width := width_of_mem_writes hi
    have hr := (regionOf_eq_pdmBuf_iff _).2 ⟨lo, hlt⟩
    have hok := (accessOk_iff width).2 ⟨aligned, .inr (.inr (.inl ⟨lo, hlt⟩))⟩
    have stored := busWriteAt_stores machineParams v hok hr (hitsInFlight_eq_false (by omega) clear)
    have offset : pdmBase + (a.toNat - pdmBase) = a.toNat := Nat.add_sub_cancel' lo
    refine ⟨writeLE s.pdm a.toNat n v.toNat, ⟨0, ?_⟩, byteAt_of_pdm_writeLE rfl rfl lo (pdmBuf_access_inside hok hr)⟩
    rw [exec_of_mem_writes hi, stored, State.storePdm, offset]
    rfl
  · have taken : step s = .next (State.storePdm { s with inputs := rest } off.toNat 1 b.toNat) := by
      rw [step_of_input hfault hinputs, runInputWith,
        captureWrite_stores (s := { s with inputs := rest }) b (hitsInFlight_eq_false one_pos clear)]
    have inside := off.isLt
    have bytes := byteAt_of_pdm_writeLE (s := s) (t := State.storePdm { s with inputs := rest } off.toNat 1 b.toNat)
      rfl rfl (a := 0x2000 + off.toNat) (by omega) (by omega)
    refine ⟨_, taken, fun a => (bytes a).trans ?_, rfl⟩
    by_cases here : a = 0x2000 + off.toNat
    · simp [here]
    · rw [if_neg here, if_neg (by omega)]

end Sys2Proof.Machine
end

section
/-! Refused bus transactions: an error response with data 0, and nothing else (60_exceptions.md R504). -/

namespace Sys2Proof.Machine

open Rules

theorem busReadAt_refused (P : Config.Params) {a n : Nat} (refused : accessOk a n = false) (s : State) :
    busReadAt P a n s = s.refuseBus :=
  if_pos refused

theorem busWriteAt_refused (P : Config.Params) {a n : Nat} (refused : accessOk a n = false) (v : Word) (s : State) :
    busWriteAt P a n v s = .next s.refuseBus :=
  if_pos refused

/-- What is misaligned or of a width its region does not take fails the machine's check (20_memory.md R95, R96). -/
theorem accessOk_eq_false {a n : Nat} (hn : n = 1 ∨ n = 2 ∨ n = 4) (h : a % n ≠ 0 ∨ ¬permitted a n) :
    accessOk a n = false := by
  rw [Bool.eq_false_iff, ne_eq, accessOk_iff hn]
  exact not_and_or.2 h

/-- SIZE = 0b11 is rejected in both directions (30_encoding.md R135). -/
theorem decodeBus_reservedSize {desc : BitVec 19} (v : Word) (h : desc.toNat / 2 ^ 16 % 4 = 3) :
    decodeBus desc v = .error .reservedSize := by
  unfold decodeBus
  dsimp only
  split
  case h_7 => rfl
  all_goals omega

/-- Settles O21: the access fails the check, or the descriptor is rejected, and either is refused. -/
theorem refusedTransactionsChangeNothing : Obligations.RefusedTransactionsChangeNothing := by
  refine ⟨fun s a v n i hi illegal => ⟨0, ?_, fun _ => rfl⟩, fun s desc v rest hfault hinputs reserved =>
    ⟨0, ?_, fun _ => rfl⟩⟩
  · rcases hi with hread | hwrite
    · rw [exec_of_mem_reads hread, busReadAt_refused _ (accessOk_eq_false (width_of_mem_reads hread) illegal)]
      rfl
    · rw [exec_of_mem_writes hwrite, busWriteAt_refused _ (accessOk_eq_false (width_of_mem_writes hwrite) illegal)]
      rfl
  · rw [step_of_input hfault hinputs, runInputWith, decodeBus_reservedSize v reserved]
    rfl

end Sys2Proof.Machine
end

section
/-! What writes ERRCODE, and with which codes (60_exceptions.md R501, R502). -/

namespace Sys2Proof.Machine

open Rules

section
variable {P : Config.Params} {s t : State}

/-! ### The codes of each command -/

/-- A gated command writes the code of the gate, or what it writes on an idle block. -/
theorem whenIdle_errcode_mem {k : State → State} {cs : List (BitVec 8)} (gate : 11 ∈ cs) (work : (k s).errcode ∈ cs) :
    (whenIdle s k).errcode ∈ cs := by
  rcases whenIdle_cases s k with ⟨-, h⟩ | ⟨-, h⟩ <;> rw [h]
  · exact gate
  · exact work

theorem reports_errcode {code : BitVec 8} (h : reports code s t) : t.errcode = code := by
  obtain ⟨d, rfl⟩ := h
  rfl

/-- A check that fails reports its code, and one that passes leaves the code to what follows it. -/
theorem errcode_mem_of_check {failed rest : Prop} [Decidable failed] {code : BitVec 8} {cs : List (BitVec 8)}
    (h : if failed then reports code s t else rest) (listed : code ∈ cs) (passed : rest → t.errcode ∈ cs) :
    t.errcode ∈ cs := by
  split at h
  · rwa [reports_errcode h]
  · exact passed h

theorem cfgDec_errcode_mem (h : cfgDec P s t) : t.errcode ∈ codes .cfgDec := by
  unfold cfgDec at h
  extract_lets code cin cout nout r rp hb nfin at h
  refine errcode_mem_of_check h (by decide) fun h => ?_
  refine errcode_mem_of_check h (by decide) fun h => ?_
  refine errcode_mem_of_check h (by decide) fun h => ?_
  refine errcode_mem_of_check h (by decide) fun h => ?_
  refine errcode_mem_of_check h (by decide) fun ⟨_, _, _, _, latched⟩ => ?_
  rw [latched]
  exact .head _

theorem cfgFft_errcode_mem (h : cfgFft P s t) : t.errcode ∈ codes .cfgFft := by
  unfold cfgFft at h
  extract_lets lt wcode kcode T ovl rret win at h
  refine errcode_mem_of_check h (by decide) fun h => ?_
  refine errcode_mem_of_check h (by decide) fun h => ?_
  refine errcode_mem_of_check h (by decide) fun h => ?_
  refine errcode_mem_of_check h (by decide) fun h => ?_
  refine errcode_mem_of_check h (by decide) fun ⟨_, _, _, _, _, latched⟩ => ?_
  rw [latched]
  exact .head _

theorem errValue_startCheck_mem (s : State) : errValue (startCheck s) ∈ codes .start := by
  unfold startCheck
  split
  · decide
  · split
    · split <;> decide
    · decide

theorem hostEventAt_errcode_mem {h : BufHalf} (hn : hostEventAt P h s = .next t) :
    t.errcode ∈ ([0, 11] : List (BitVec 8)) := by
  rcases hostEventAt_cases hn with rfl | ⟨-, -, u, -, rfl⟩
  · exact .tail _ (.head _)
  · exact .head _

/-- A command's next state holds one of the codes of its row (60_exceptions.md R502). -/
theorem runCmdOpAt_errcode_mem {op : CmdOp} (hn : runCmdOpAt P op s = .next t) : t.errcode ∈ codes op := by
  cases op with
  | nop | softReset => cases hn; exact .head _
  | cfgDec => cases hn; exact cfgDec_errcode_mem (cfgDecAt_meets_cfgDec P s)
  | cfgFft => cases hn; exact cfgFft_errcode_mem (cfgFftAt_meets_cfgFft P s)
  | avgReset | stop => cases hn; exact whenIdle_errcode_mem (.tail _ (.head _)) (.head _)
  | start =>
    cases hn
    refine whenIdle_errcode_mem (.tail _ (.head _)) ?_
    split
    · exact .head _
    · exact errValue_startCheck_mem s
  | evtHalf | evtFull => exact hostEventAt_errcode_mem hn

/-- A CMD word that is no command is BAD_COMMAND (30_encoding.md R133, 45_host_commands.md R381). -/
theorem onCmdAt_of_rejected (P : Config.Params) {w : Word} (rejected : ∀ i, decodeCmd w ≠ .ok i) (s : State) :
    onCmdAt P w s = .next (badCommand s) := by
  rcases onCmdAt_cases P w s with ⟨op, hop, -⟩ | ⟨e, -, h⟩
  · exact absurd (by rw [decodeCmd, hop]; rfl) (rejected op.toInstr)
  · exact h

/-! ### What leaves ERRCODE as it was -/

/-- ERRCODE is one of the host registers. -/
theorem errcode_of_hostRegisters (h : t.hostRegisters = s.hostRegisters) : t.errcode = s.errcode :=
  (congrArg State.errcode h : t.hostRegisters.errcode = s.hostRegisters.errcode)

@[simp] theorem ctrlWrite_errcode (s : State) (v : Word) (r : CtrlReg) : (ctrlWrite s v r).errcode = s.errcode := by
  cases r <;> rfl

theorem portEventAt_errcode {h : BufHalf} (hn : portEventAt P h s = .next t) : t.errcode = s.errcode := by
  rcases portEventAt_cases hn with ⟨-, rfl⟩ | ⟨-, -, hu⟩ | ⟨-, -, rfl⟩
  · rfl
  · exact errcode_of_hostRegisters (accept_hostRegisters hu)
  · rfl

theorem busWriteAt_errcode {a n : Nat} {v : Word} (notCmd : ¬(n = 4 ∧ a = 0x00C))
    (hn : busWriteAt P a n v s = .next t) : t.errcode = s.errcode := by
  rcases busWriteAt_cases hn with rfl | ⟨hok, hr, hcmd, -⟩ | ⟨-, -, -, rfl⟩ | ⟨-, -, -, rfl⟩ | ⟨-, -, -, rfl⟩ | ⟨-, rfl⟩
  · rfl
  · exact absurd ⟨width_of_accessOk_control hok hr, ctrlRegAt_eq_cmd hcmd⟩ notCmd
  · exact ctrlWrite_errcode s v _
  · rfl
  · rfl
  · rfl

/-- An instruction that is neither a command nor a 32-bit write to CMD leaves ERRCODE as it was. -/
theorem execAt_errcode {i : Instr} (noCmd : i.form ≠ .cmd) (noCmdWrite : ∀ v, i ≠ .wr32 0x00C v)
    (hn : execAt P i s = .next t) : t.errcode = s.errcode := by
  cases i with
  | nop | cfgDec | cfgFft | avgReset | start | stop | evtHalf | evtFull | softReset => exact absurd rfl noCmd
  | half | full => exact portEventAt_errcode hn
  | rd8 | rd16 | rd32 => cases hn; exact errcode_of_hostRegisters (busReadAt_hostRegisters ..)
  | wr8 | wr16 => exact busWriteAt_errcode (by omega) hn
  | wr32 a v =>
    refine busWriteAt_errcode (fun ⟨_, ha⟩ => noCmdWrite v ?_) hn
    rw [show a = 0x00C from BitVec.eq_of_toNat_eq ha]

end

/-- Settles O10: commands end with the codes of their rows, and every other operation leaves the host registers or
writes one that is not ERRCODE. -/
theorem commandsWriteOnlyTheirCodes : Obligations.CommandsWriteOnlyTheirCodes := by
  refine ⟨fun op s t hn => ?_, fun w s t rejected hn => ?_, fun i s t hn noCmd noCmdWrite => ?_,
    fun s t i rest hi hn agent => ?_⟩
  · rw [← runCmdOpAt_eq_exec] at hn
    exact runCmdOpAt_errcode_mem hn
  · have onBus : exec (.wr32 0x00C w) s = onCmdAt machineParams w s := rfl
    rw [onBus, onCmdAt_of_rejected _ rejected] at hn
    cases hn
    rfl
  · rw [exec_eq_execAt] at hn
    exact execAt_errcode noCmd noCmdWrite hn
  · obtain ⟨hfault, -⟩ := step_cases hn
    rw [step_of_input hfault hi] at hn
    obtain rfl | ⟨off, b, rfl⟩ := agent
    · cases hn
      exact errcode_of_hostRegisters (commit_hostRegisters _)
    · cases hn
      exact errcode_of_hostRegisters (captureWrite_hostRegisters off b _)

end Sys2Proof.Machine
end

section
/-! With legal configurations and no fault every step answers a next state: only an event that is accepted without a
configuration could be refused (60_exceptions.md R500, R506, 70_reset_and_hazards.md R600). -/

namespace Sys2Proof.Machine

open Safety

section
variable {P : Config.Params} {s : State}

/-- RUNNING = 1 implies both configurations are there, which is all ACCEPT needs (41_bitstream_handoff.md R254). -/
theorem accept_answers (hs : ConfigOk P s) (runs : s.running = true) (h : BufHalf) : ∃ t, accept P h s = some t := by
  obtain ⟨dc, fc, hdc, hfc, -⟩ := hs.running runs
  exact ⟨_, (accept_eq_some_iff P h s _).2 ⟨dc, fc, hdc, hfc, rfl⟩⟩

theorem hostEventAt_answers (hs : ConfigOk P s) (h : BufHalf) : ∃ t, hostEventAt P h s = .next t := by
  by_cases refused : s.inflight ≠ none ∨ s.running = false
  · exact ⟨_, hostEventAt_refused P h refused⟩
  · obtain ⟨idle, runs⟩ := not_or.1 refused
    have runs := eq_true_of_ne_false runs
    obtain ⟨t, ha⟩ := accept_answers hs runs h
    exact ⟨_, hostEventAt_accepts (not_not.1 idle) runs ha⟩

theorem portEventAt_answers (hs : ConfigOk P s) (h : BufHalf) : ∃ t, portEventAt P h s = .next t := by
  by_cases idle : s.inflight = none
  · cases runs : s.running with
    | false => exact ⟨s, portEventAt_stopped P h idle runs⟩
    | true =>
      obtain ⟨t, ha⟩ := accept_answers hs runs h
      exact ⟨t, portEventAt_accepts idle runs ha⟩
  · exact ⟨_, portEventAt_busy P h idle⟩

theorem runCmdOpAt_answers (hs : ConfigOk P s) (op : CmdOp) : ∃ t, runCmdOpAt P op s = .next t := by
  cases op with
  | evtHalf | evtFull => exact hostEventAt_answers hs _
  | nop | cfgDec | cfgFft | avgReset | start | stop | softReset => exact ⟨_, rfl⟩

theorem onCmdAt_answers (hs : ConfigOk P s) (w : Word) : ∃ t, onCmdAt P w s = .next t := by
  rcases onCmdAt_cases P w s with ⟨op, -, h⟩ | ⟨e, -, h⟩ <;> rw [h]
  · exact runCmdOpAt_answers hs op
  · exact ⟨_, rfl⟩

theorem busWriteAt_answers (hs : ConfigOk P s) (a n : Nat) (v : Word) : ∃ t, busWriteAt P a n v s = .next t := by
  unfold busWriteAt
  split
  · exact ⟨_, rfl⟩
  split
  · split
    · exact onCmdAt_answers hs v
    · exact ⟨_, rfl⟩
  · split <;> exact ⟨_, rfl⟩
  all_goals exact ⟨_, rfl⟩

theorem execAt_answers (hs : ConfigOk P s) (i : Instr) : ∃ t, execAt P i s = .next t := by
  cases i with
  | half | full => exact portEventAt_answers hs _
  | rd8 | rd16 | rd32 => exact ⟨_, rfl⟩
  | wr8 | wr16 | wr32 => exact busWriteAt_answers hs ..
  | nop | cfgDec | cfgFft | avgReset | start | stop | evtHalf | evtFull | softReset =>
    dsimp only [execAt]
    exact runCmdOpAt_answers hs _

end

theorem exec_answers {s : State} (hs : ConfigOk machineParams s) (i : Instr) : ∃ t, exec i s = .next t := by
  rw [exec_eq_execAt]
  exact execAt_answers hs i

section
variable {ex : Meaning} {s : State}

/-- Rejected bits always answer, so only the instruction they decode to could fail. -/
theorem runDecoded_answers (hex : ∀ ins, ∃ t, ex ins s = .next t) (d : Except Reject Instr) :
    ∃ t, runDecoded ex d s = .next t := by
  cases d with
  | ok ins => exact hex ins
  | error r => exact ⟨_, rfl⟩

theorem runInputWith_answers (hex : ∀ ins, ∃ t, ex ins s = .next t) (i : Input) :
    ∃ t, runInputWith ex i s = .next t := by
  cases i with
  | cap | commit => exact ⟨_, rfl⟩
  | cmd | evt | bus => exact runDecoded_answers hex _

end

/-- Settles O32: with FAULT = NONE a step could fail only at an accepted event, and RUNNING = 1 excludes that. -/
theorem stepAnswersWhileNoFault : Obligations.StepAnswersWhileNoFault := by
  intro s hs hfault
  cases hi : s.inputs with
  | nil => exact ⟨_, step_of_noInput hfault hi⟩
  | cons i rest =>
    have taken : ConfigOk machineParams { s with inputs := rest } := { hs with }
    rw [step_of_input hfault hi]
    exact runInputWith_answers (exec_answers taken) i

end Sys2Proof.Machine
end

section
/-! The power-on state: what it reads as, and that it meets the invariants every step keeps
(70_reset_and_hazards.md R600). -/

namespace Sys2Proof.Machine

open Safety

/-! ### The control registers at reset -/

/-- Only ID and PARAMS read other than 0 at reset. -/
theorem ctrlRead_reset (P : Config.Params) (r : CtrlReg) :
    ctrlRead P State.reset State.reset.live r =
      if r = .id then 0x50444D01 else if r = .params then paramsWord P else 0 := by
  cases r <;> rfl

theorem ctrlRegAt_eq_id_iff (a : Nat) : ctrlRegAt a = .id ↔ a = 0x000 := by
  unfold ctrlRegAt
  split <;> simp_all

theorem ctrlRegAt_eq_params_iff (a : Nat) : ctrlRegAt a = .params ↔ a = 0x03C := by
  unfold ctrlRegAt
  split <;> simp_all

theorem rd32_control_reset {a : Offset} (h : a.toNat < 0x1000) (aligned : a.toNat % 4 = 0) :
    exec (.rd32 a) State.reset = .next (State.reset.respond false
      (if a = 0x000 then 0x50444D01 else if a = 0x03C then Rules.paramsValue machineParams else 0)) := by
  have isId : ctrlRegAt a.toNat = .id ↔ a = 0x000 :=
    (ctrlRegAt_eq_id_iff _).trans (BitVec.toNat_inj (y := 0x000))
  have isParams : ctrlRegAt a.toNat = .params ↔ a = 0x03C :=
    (ctrlRegAt_eq_params_iff _).trans (BitVec.toNat_inj (y := 0x03C))
  rw [rd32_control _ h aligned (.inr rfl), ctrlRead_reset, paramsWord_eq_paramsValue machineParams_ok]
  simp only [isId, isParams]

/-! ### RAM at reset -/

/-- Nothing listed in the result RAM reads as 0 everywhere. -/
theorem ramByte_empty (a : Nat) : ramByte [] a = 0 := by
  unfold ramByte memGet unlisted
  split <;> rfl

/-- An unwritten byte of PDM_BUF reads its power-on value (10_state.md R60; log 4). -/
theorem pdmByte_unwritten {a : Nat} (lo : 0x2000 ≤ a) (hi : a < 0x4000) :
    pdmByte [] a = Config.powerOnByte (a - 0x2000) := by
  have noValue : memGet [] a = none := if_pos ((regionOf_eq_pdmBuf_iff a).2 ⟨lo, hi⟩)
  rw [pdmByte, noValue]
  rfl

theorem byteAt_reset (a : Nat) :
    State.reset.byteAt a = if 0x2000 ≤ a ∧ a < 0x4000 then Config.powerOnByte (a - 0x2000) else 0 := by
  split_ifs with inPdm
  · rw [State.byteAt_pdmBuf _ inPdm.1 inPdm.2]
    exact pdmByte_unwritten inPdm.1 inPdm.2
  · rw [State.byteAt_resultRam _ inPdm]
    exact ramByte_empty a

/-- Settles O30: the two non-zero registers, the bytes of an empty RAM, and the fields that reset sets by definition. -/
theorem resetIsThePowerOnState : Obligations.ResetIsThePowerOnState :=
  ⟨fun _ h aligned => rd32_control_reset h aligned, fun a _ _ => byteAt_reset a,
    rfl, rfl, rfl, rfl, rfl, rfl, rfl, rfl⟩

/-! ### The invariants at reset -/

/-- No chunk is in flight at reset, so only the live results count. -/
theorem ofResults_reset {q : Results → Prop} (h : q Results.reset) : ofResults q State.reset :=
  ofResults_of_idle rfl h

/-- Nothing is latched at reset, and RUNNING = BUSY = 0. -/
theorem configOk_reset (P : Config.Params) : ConfigOk P State.reset where
  dc _ hd := by cases hd
  fc _ hf := by cases hf
  halfBytes := rfl
  nbins := rfl
  wt := rfl
  running hr := by cases hr
  busy hb := by cases hb

/-- Without an FFT configuration every AVG word is to be +0, and an empty RAM reads so. -/
theorem avgOk_reset (P : Config.Params) : AvgOk P State.reset :=
  (avgOk_iff P _).2 (ofResults_reset fun k _ => avgWord_nil k)

/-- Settles O31: for the results' invariants by what their `ResultsKept` lemmas say of the reset results. -/
theorem resetMeetsTheInvariants : Obligations.ResetMeetsTheInvariants := by
  have config := configOk_reset machineParams
  have warmth := (warm_kept machineParams State.reset).reset
  have frame := (frameFits_kept config).reset
  have filters := (filterFits_kept machineParams_ok config).reset
  have pcmCount := (pcmCount_kept machineParams State.reset).reset
  exact ⟨registersOk_reset, config, ⟨reset_pdmWf, ofResults_reset reset_ramWf⟩, ofResults_reset warmth,
    (frameOk_iff _).2 (ofResults_reset frame), (filterOk_iff machineParams _).2 (ofResults_reset filters),
    ofResults_reset pcmCount, avgOk_reset⟩

end Sys2Proof.Machine
end
